-- ==== Sys2Proof/Word.lean ====
section
/-! DEFINITION. The word and byte of QCONV (spec/00_scope.md R9, R11): registers are 32 bits wide, data memory is addressed
by the byte. -/

namespace Sys2Proof

/-- A 32-bit register or bus word (R9, D4). -/
abbrev Word := BitVec 32

/-- One byte of data memory (R60). -/
abbrev Byte := BitVec 8

/-- The two kinds of access of the platform predicate `MEM_ADMIT` (R72). -/
inductive AccessKind where
  | read
  | write
deriving DecidableEq, Repr

end Sys2Proof
end

