-- ==== Sys2Proof/Config.lean ====
section
/-! DEFINITION. What the spec leaves OPEN (R10). The platform's memory map is plain data that State holds and no step writes, so
that a claim holds for every platform; the float function and the draws are opaque constants, so that nothing can be proved of
their values. -/

namespace Sys2Proof

/-- The addresses `[base, base + len)`. -/
structure Range where
  base : Nat
  len  : Nat
deriving DecidableEq, Repr

/-- The platform's OPEN memory map: the bytes at which `MEM_ADMIT` refuses a read or a write (R72, D50), and those at which a
device stands instead of plain memory (R61, R75, D48). Every predicate on the 2^32 addresses is some list of ranges. -/
structure Platform where
  noRead  : List Range
  noWrite : List Range
  devices : List Range
deriving DecidableEq, Repr

/-- `FLOAT_CONV(terms, bias)`, the OPEN parameter giving each float32 output pattern (R160, R161, D22). FREE VALUE: it has no
body, and only its dependence on its arguments is known (log entry 8). -/
opaque Config.floatConv : List (Word × Word) → Option Word → Word

/-- The draw behind `BUSPICK` (R130, D28): the position, counted round the fault set, of the access a BUS_ERROR reports, for each
value of the draw counter. FREE VALUE (log entry 9). -/
opaque Config.busPick : Nat → Nat

/-- The value of an unspecified byte (U3, U5, U6): a function of the draw counter and the address. FREE VALUE (log entry 10). -/
opaque Config.freeByte : Nat → Nat → Byte

end Sys2Proof
end

