-- ==== Sys2Proof/Syntax.lean ====
section
/-! DEFINITION. The commands of QCONV as syntax: operations (R93), representation tags (R92), typed paths (R95), the fields
of the CMD word (R91), the 19 commands of the opcode map (R102), and what decoding may refuse (R94, R116). -/

namespace Sys2Proof

/-- The defined operation codes (R93). -/
inductive Op where
  | conv
  | dwconv
  | unpack4
deriving DecidableEq, Repr

/-- The defined representation tags (R92); tags 7 to 15 are reserved and name no tag. -/
inductive Tag where
  | absent
  | float32
  | int8
  | int16
  | int4p
  | int32
  | int64
deriving DecidableEq, Repr

/-- The typed paths of CONV and DWCONV (R95). -/
inductive Path where
  | f32
  | i8
  | i8w4
  | i16
  | i16b64
deriving DecidableEq, Repr

/-- The tensors an unsupported-type error can name, ids 1 to 4 (R27, R116). -/
inductive TensorId where
  | input
  | filter
  | bias
  | output
deriving DecidableEq, Repr

/-- The seven fields of a CMD word as raw bits (R91). -/
structure CmdFields where
  op       : BitVec 4
  rsv0     : BitVec 4
  inType   : BitVec 4
  fltType  : BitVec 4
  biasType : BitVec 4
  outType  : BitVec 4
  rsv1     : BitVec 8
deriving DecidableEq, Repr

/-- What a command computes on: its operation and the representation of its four tensors (R91, R95, R96). -/
structure Form where
  op       : Op
  inType   : Tag
  fltType  : Tag
  biasType : Tag
  outType  : Tag
deriving DecidableEq, Repr

/-- The commands of the opcode map, one per row (R102). A command has no operand bits: all its operands are descriptor
registers (R90, R98). -/
inductive Instr where
  /-- `conv.f32` -/
  | convF32
  /-- `conv.f32.nb` -/
  | convF32Nb
  /-- `conv.i8` -/
  | convI8
  /-- `conv.i8.nb` -/
  | convI8Nb
  /-- `conv.i8w4` -/
  | convI8w4
  /-- `conv.i8w4.nb` -/
  | convI8w4Nb
  /-- `conv.i16` -/
  | convI16
  /-- `conv.i16.nb` -/
  | convI16Nb
  /-- `conv.i16b64` -/
  | convI16b64
  /-- `dwconv.f32` -/
  | dwconvF32
  /-- `dwconv.f32.nb` -/
  | dwconvF32Nb
  /-- `dwconv.i8` -/
  | dwconvI8
  /-- `dwconv.i8.nb` -/
  | dwconvI8Nb
  /-- `dwconv.i8w4` -/
  | dwconvI8w4
  /-- `dwconv.i8w4.nb` -/
  | dwconvI8w4Nb
  /-- `dwconv.i16` -/
  | dwconvI16
  /-- `dwconv.i16.nb` -/
  | dwconvI16Nb
  /-- `dwconv.i16b64` -/
  | dwconvI16b64
  /-- `unpack4` -/
  | unpack4
deriving DecidableEq, Repr

/-- Why a CMD word is no command. -/
inductive CmdError where
  /-- OP is 0 or 4 to 15: ILLEGAL_COMMAND sub-cause 1 (R94, R213). -/
  | illegalOp
  /-- OP is defined and a reserved bit is set: ILLEGAL_COMMAND sub-cause 2 (R94, R213). -/
  | reservedBits
  /-- The tag pattern is not supported; the first failing tensor and its tag (R116, R214). -/
  | unsupported (tensor : TensorId) (tag : BitVec 4)
deriving DecidableEq, Repr

end Sys2Proof
end

