-- ==== Sys2Proof/WellFormed.lean ====
section
/-! DEFINITION. Which CMD fields are a command: the operation is defined (R93), the reserved fields are 0 (R91), and the four
tags are one of the supported patterns (R95, R96). -/

namespace Sys2Proof

/-- OP is 1, 2 or 3 (R93). -/
def CmdFields.opDefined (f : CmdFields) : Bool :=
  f.op == 1#4 || f.op == 2#4 || f.op == 3#4

/-- Both reserved fields are 0 (R91). -/
def CmdFields.reservedClear (f : CmdFields) : Bool :=
  f.rsv0 == 0#4 && f.rsv1 == 0#8

/-- The supported (IN_TYPE, FLT_TYPE, BIAS_TYPE, OUT_TYPE) patterns of CONV and DWCONV, row by row as R95 lists them. -/
def supportedConvTags : List (BitVec 4 × BitVec 4 × BitVec 4 × BitVec 4) :=
  [ (1#4, 1#4, 1#4, 1#4), (1#4, 1#4, 0#4, 1#4),
    (2#4, 2#4, 5#4, 2#4), (2#4, 2#4, 0#4, 2#4),
    (2#4, 4#4, 5#4, 2#4), (2#4, 4#4, 0#4, 2#4),
    (3#4, 2#4, 5#4, 3#4), (3#4, 2#4, 0#4, 3#4),
    (3#4, 2#4, 6#4, 3#4) ]

/-- The tags are a supported pattern for the operation (R95, R96). -/
def CmdFields.tagsSupported (f : CmdFields) : Bool :=
  if f.op == 3#4 then
    f.inType == 0#4 && f.fltType == 4#4 && f.biasType == 0#4 && f.outType == 0#4
  else
    supportedConvTags.contains (f.inType, f.fltType, f.biasType, f.outType)

/-- The fields are those of one of the 19 commands (R97, R102). -/
def CmdFields.wellFormed (f : CmdFields) : Bool :=
  f.opDefined && f.reservedClear && f.tagsSupported

end Sys2Proof
end

