-- ==== Sys2Proof/Decode.lean ====
section
/-! DEFINITION. Decoding of the CMD word (R91 to R97, R102, R115, R116) and, after it, the encoder. The decoder is total: every
32-bit word is one of the 19 commands or is rejected by name. -/

namespace Sys2Proof

/-- The seven fields of a CMD word (R29, R91). -/
def CmdFields.ofWord (w : Word) : CmdFields where
  op       := w.extractLsb' 0 4
  rsv0     := w.extractLsb' 4 4
  inType   := w.extractLsb' 8 4
  fltType  := w.extractLsb' 12 4
  biasType := w.extractLsb' 16 4
  outType  := w.extractLsb' 20 4
  rsv1     := w.extractLsb' 24 8

/-- The CMD word of its fields, as the pattern string of R91: `rsv1 outType biasType fltType inType rsv0 op`. -/
def CmdFields.toWord (f : CmdFields) : Word :=
  f.rsv1 ++ (f.outType ++ (f.biasType ++ (f.fltType ++ (f.inType ++ (f.rsv0 ++ f.op)))))

/-- The operation of an OP field (R93); OP 0 and 4 to 15 are reserved. -/
def Op.ofBits (b : BitVec 4) : Option Op :=
  if b == 1#4 then some .conv
  else if b == 2#4 then some .dwconv
  else if b == 3#4 then some .unpack4
  else none

/-- The OP field of an operation (R93). -/
def Op.bits : Op → BitVec 4
  | .conv    => 1#4
  | .dwconv  => 2#4
  | .unpack4 => 3#4

/-- The four bits of a representation tag (R92). -/
def Tag.bits : Tag → BitVec 4
  | .absent  => 0#4
  | .float32 => 1#4
  | .int8    => 2#4
  | .int16   => 3#4
  | .int4p   => 4#4
  | .int32   => 5#4
  | .int64   => 6#4

/-- The id of a tensor in ERR_INFO.TENSOR (R27, R116). -/
def TensorId.bits : TensorId → BitVec 4
  | .input  => 1#4
  | .filter => 2#4
  | .bias   => 3#4
  | .output => 4#4

/-- The filter tags a CONV or DWCONV admits for an input tag (R116, `allowedF`). -/
def allowedFilters (it : BitVec 4) : List (BitVec 4) :=
  if it == 1#4 then [1#4] else if it == 2#4 then [2#4, 4#4] else [2#4]

/-- The bias tags a CONV or DWCONV admits for an input tag (R116, `allowedB`). -/
def allowedBiases (it : BitVec 4) : List (BitVec 4) :=
  if it == 1#4 then [0#4, 1#4] else if it == 2#4 then [0#4, 5#4] else [0#4, 5#4, 6#4]

/-- Path selection of CONV and DWCONV: the tensors are examined in the order input, output, filter, bias, and the first that
fails is named with its tag (R116). -/
def dispatchConv (it ft bt ot : BitVec 4) : Except CmdError Path :=
  if !(it == 1#4 || it == 2#4 || it == 3#4) then .error (.unsupported .input it)
  else if ot != it then .error (.unsupported .output ot)
  else if !(allowedFilters it).contains ft then .error (.unsupported .filter ft)
  else if !(allowedBiases it).contains bt then .error (.unsupported .bias bt)
  else if it == 1#4 then .ok .f32
  else if it == 2#4 then (if ft == 2#4 then .ok .i8 else .ok .i8w4)
  else (if bt == 6#4 then .ok .i16b64 else .ok .i16)

/-- The one pattern of UNPACK4, tensors examined in the order input, output, filter, bias (R96, R116). -/
def dispatchUnpack (it ft bt ot : BitVec 4) : Except CmdError Instr :=
  if it != 0#4 then .error (.unsupported .input it)
  else if ot != 0#4 then .error (.unsupported .output ot)
  else if ft != 4#4 then .error (.unsupported .filter ft)
  else if bt != 0#4 then .error (.unsupported .bias bt)
  else .ok .unpack4

/-- The CONV command of a path, with or without a bias (R102). -/
def convInstr : Path → Bool → Instr
  | .f32, true     => .convF32
  | .f32, false    => .convF32Nb
  | .i8, true      => .convI8
  | .i8, false     => .convI8Nb
  | .i8w4, true    => .convI8w4
  | .i8w4, false   => .convI8w4Nb
  | .i16, true     => .convI16
  | .i16, false    => .convI16Nb
  | .i16b64, _     => .convI16b64

/-- The DWCONV command of a path, with or without a bias (R102). -/
def dwconvInstr : Path → Bool → Instr
  | .f32, true     => .dwconvF32
  | .f32, false    => .dwconvF32Nb
  | .i8, true      => .dwconvI8
  | .i8, false     => .dwconvI8Nb
  | .i8w4, true    => .dwconvI8w4
  | .i8w4, false   => .dwconvI8w4Nb
  | .i16, true     => .dwconvI16
  | .i16, false    => .dwconvI16Nb
  | .i16b64, _     => .dwconvI16b64

/-- Dispatch on the representation tags: exactly one command or one error (R115, R116). -/
def dispatch (op : Op) (it ft bt ot : BitVec 4) : Except CmdError Instr :=
  match op with
  | .unpack4 => dispatchUnpack it ft bt ot
  | .conv    => (dispatchConv it ft bt ot).map fun p => convInstr p (bt != 0#4)
  | .dwconv  => (dispatchConv it ft bt ot).map fun p => dwconvInstr p (bt != 0#4)

/-- Decoding of the CMD fields in the order of R94: the operation, the reserved bits, then the tags. -/
def decodeFields (f : CmdFields) : Except CmdError Instr :=
  match Op.ofBits f.op with
  | none => .error .illegalOp
  | some op =>
    if !f.reservedClear then .error .reservedBits
    else dispatch op f.inType f.fltType f.biasType f.outType

/-- Decoding of the CMD word at START, phases 1 and 2 of a command (R94, R111). -/
def decode (w : Word) : Except CmdError Instr :=
  decodeFields (CmdFields.ofWord w)

/-- The operation and tags of each command, from R95, R96 and R102. -/
def Instr.form : Instr → Form
  | .convF32      => ⟨.conv, .float32, .float32, .float32, .float32⟩
  | .convF32Nb    => ⟨.conv, .float32, .float32, .absent, .float32⟩
  | .convI8       => ⟨.conv, .int8, .int8, .int32, .int8⟩
  | .convI8Nb     => ⟨.conv, .int8, .int8, .absent, .int8⟩
  | .convI8w4     => ⟨.conv, .int8, .int4p, .int32, .int8⟩
  | .convI8w4Nb   => ⟨.conv, .int8, .int4p, .absent, .int8⟩
  | .convI16      => ⟨.conv, .int16, .int8, .int32, .int16⟩
  | .convI16Nb    => ⟨.conv, .int16, .int8, .absent, .int16⟩
  | .convI16b64   => ⟨.conv, .int16, .int8, .int64, .int16⟩
  | .dwconvF32    => ⟨.dwconv, .float32, .float32, .float32, .float32⟩
  | .dwconvF32Nb  => ⟨.dwconv, .float32, .float32, .absent, .float32⟩
  | .dwconvI8     => ⟨.dwconv, .int8, .int8, .int32, .int8⟩
  | .dwconvI8Nb   => ⟨.dwconv, .int8, .int8, .absent, .int8⟩
  | .dwconvI8w4   => ⟨.dwconv, .int8, .int4p, .int32, .int8⟩
  | .dwconvI8w4Nb => ⟨.dwconv, .int8, .int4p, .absent, .int8⟩
  | .dwconvI16    => ⟨.dwconv, .int16, .int8, .int32, .int16⟩
  | .dwconvI16Nb  => ⟨.dwconv, .int16, .int8, .absent, .int16⟩
  | .dwconvI16b64 => ⟨.dwconv, .int16, .int8, .int64, .int16⟩
  | .unpack4      => ⟨.unpack4, .absent, .int4p, .absent, .absent⟩

/-- The CMD fields of a command form, the reserved fields 0 (R91, R92, R93). -/
def Form.fields (f : Form) : CmdFields where
  op       := f.op.bits
  rsv0     := 0#4
  inType   := f.inType.bits
  fltType  := f.fltType.bits
  biasType := f.biasType.bits
  outType  := f.outType.bits
  rsv1     := 0#8

/-- The encoder: the CMD word of a command. -/
def encode (i : Instr) : Word :=
  i.form.fields.toWord

/-- A command is well formed when its CMD fields are. -/
def Instr.wellFormed (i : Instr) : Bool :=
  i.form.fields.wellFormed

/-- The command a table row's bits decode to: the CMD word is one 32-bit register word, bit 0 the least significant (R11,
R29), and the bits above `nbits` are 0. -/
def decodeTableWord (nbits w : Nat) : Option Instr :=
  match decode (BitVec.ofNat 32 (w % 2 ^ nbits)) with
  | .ok i    => some i
  | .error _ => none

end Sys2Proof
end

