-- ==== Sys2Proof/Machine/State.lean ====
section
/-! DEFINITION. The state of QCONV as plain data (R19, R20, R23, R45, R50, R60, R230), why a step can stop, and the state after
reset. -/

namespace Sys2Proof.Machine

/-- The sequencing state of an engine (R45). STATUS.BUSY is `phase = run` and has no other storage. -/
inductive Phase where
  | idle
  | run
deriving DecidableEq, Repr

/-- The error codes of STATUS.ERR_CODE that are ever written (R211). -/
inductive ErrCode where
  | none
  | illegalCommand
  | unsupportedType
  | configMismatch
  | busError
deriving DecidableEq, Repr

/-- The sub-causes of CONFIG_MISMATCH, 1 to 10 in this order (R119, R215). -/
inductive ConfigCause where
  | paramRange
  | depthMismatch
  | qtabLen
  | scratchMissing
  | scratchSmall
  | zpRange
  | actRange
  | regionRange
  | regionOverlap
  | shiftRange
deriving DecidableEq, Repr

/-- The arguments of `raise ERR` (R13, R113): what an error completion writes. -/
structure ErrRecord where
  code    : ErrCode
  sub     : BitVec 8
  tensor  : BitVec 4
  tag     : BitVec 4
  channel : Nat
  addr    : Nat
deriving DecidableEq, Repr

/-- The regions a command may have active (R69). -/
inductive RegionName where
  | inp
  | flt
  | bias
  | qtab
  | out
  | scr
deriving DecidableEq, Repr

/-- An active region `[base, base + len)` and the kinds of access made to its bytes (R69, R72). -/
structure Region where
  name   : RegionName
  base   : Nat
  len    : Nat
  access : List AccessKind
deriving DecidableEq, Repr

/-- The descriptor registers, offsets 0x20 to 0x8C (R23, R30 to R41). The 16-bit registers keep only their defined bits (R42). -/
structure Descriptors where
  dimN        : BitVec 16
  dimIH       : BitVec 16
  dimIW       : BitVec 16
  dimIC       : BitVec 16
  dimOH       : BitVec 16
  dimOW       : BitVec 16
  dimOC       : BitVec 16
  dimKH       : BitVec 16
  dimKW       : BitVec 16
  depthMult   : BitVec 16
  strideH     : BitVec 16
  strideW     : BitVec 16
  dilH        : BitVec 16
  dilW        : BitVec 16
  padH        : BitVec 16
  padW        : BitVec 16
  inZp        : Word
  outZp       : Word
  actMin      : Word
  actMax      : Word
  inAddr      : Word
  fltAddr     : Word
  biasAddr    : Word
  outAddr     : Word
  qtabAddr    : Word
  qtabLen     : Word
  scratchAddr : Word
  scratchLen  : Word
deriving DecidableEq, Repr

/-- One engine: its register block and its phase (R20, R23, R45). -/
structure Engine where
  /-- ENGINE_BASE_k divided by 256: the block is 256-byte aligned (R23, R230, D51). It names the engine. OPEN parameter, never
  written. -/
  page    : Nat
  /-- PHASE (R45); STATUS.BUSY reads 1 exactly when it is `run`. -/
  phase   : Phase
  /-- CTRL.IRQ_EN (R25). -/
  irqEn   : Bool
  /-- STATUS.DONE (R26). -/
  done    : Bool
  /-- STATUS.ERR (R26). -/
  err     : Bool
  /-- STATUS.ERR_CODE (R26, R211). -/
  errCode : ErrCode
  /-- ERR_INFO (R27). -/
  errInfo : Word
  /-- ERR_ADDR (R28). -/
  errAddr : Word
  /-- CMD, all 32 bits (R29). -/
  cmd     : Word
  /-- The descriptor registers (R30 to R41). -/
  desc    : Descriptors
  /-- MODEL'S OWN: the active regions of accepted commands whose completion the host has not observed, the window of R248 in which
  the host may not write them nor read OUT and SCR (R79, R80; log entry 13). -/
  lent    : List Region
deriving DecidableEq, Repr

/-- What the world outside the engines does next (R21, R100, R137, R220, R240, R254, R257). -/
inductive Input where
  /-- The host writes `width` bytes at a bus address of a register block (R21). -/
  | regWrite (addr width : Nat) (v : Word)
  /-- The host reads `width` bytes at a bus address of a register block (R21). -/
  | regRead (addr width : Nat)
  /-- The host repeats a word read until the masked word equals `value` (R100 `poll`). -/
  | poll (addr : Nat) (mask value : Word)
  /-- The host writes one byte of data memory (R100 `mem.b`). -/
  | memWrite (a : Nat) (b : Byte)
  /-- The host reads one byte of data memory. -/
  | memRead (a : Nat)
  /-- The host takes the interrupt of the engine at `base`, if it is asserted (R79, R220). -/
  | takeIrq (base : Nat)
  /-- The platform resets the engine at `base` (R240). -/
  | reset (base : Nat)
  /-- The command running on the engine at `base`, if any, reaches its completion (R254: the duration is open). -/
  | complete (base : Nat)
deriving DecidableEq, Repr

/-- What the host gets back from a read. -/
inductive Reply where
  | word (v : Word)
  | byte (b : Byte)
deriving DecidableEq, Repr

/-- The whole machine. -/
structure State where
  /-- The engine instance that moves. -/
  eng      : Engine
  /-- The other engine instances (R230); NUM_ENGINES is one more than their number. -/
  others   : List Engine
  /-- Data memory (R60), in canonical form: addresses strictly rising, no byte equal to what an unlisted address reads as. -/
  mem      : List Host.Cell
  /-- The platform's OPEN memory map (R10, R72, R75), never written. -/
  platform : Platform
  /-- MODEL'S OWN: pending actions of the host and the platform, oldest first (log entry 3). -/
  inputs   : List Input
  /-- MODEL'S OWN: what host reads have returned, newest first (log entry 3). -/
  replies  : List Reply
  /-- MODEL'S OWN: the number of draws taken so far (log entry 10). -/
  draws    : Nat
deriving DecidableEq, Repr

/-- Stops that are the model's own: an input names something that does not exist. No command raises one. -/
inductive Fault where
  /-- Raised by an input whose bus address lies in no engine's register block. SAFE: the spec gives such an access no result. -/
  | noRegisterBlock (addr : Nat)
  /-- Raised by a host access to data memory at or above 2^32, an address that does not exist (R60). SAFE. -/
  | noDataAddress (a : Nat)
  /-- Raised by a host access to a byte whose memory does not admit it (R72). SAFE: the spec says what the engine sees there, not what
  the host sees. -/
  | notAdmitted (a : Nat)
deriving DecidableEq, Repr

/-- Cases the spec itself tells a model to refuse. -/
inductive Refusal where
  /-- Raised by an arm of `exec` whose instruction has no meaning yet. SAFE. -/
  | notModelled (mnemonic : String)
  /-- Raised by a register access that is not an aligned 32-bit word (R21, U9). SAFE. -/
  | registerAccessForm (addr width : Nat)
  /-- Raised by a host write to a byte of an active region before the host has observed the completion (R80, R248, U7). SAFE. -/
  | hostWriteToLentByte (a : Nat)
  /-- Raised by a command whose active region covers a device (R61, R75, U10). SAFE. -/
  | regionOverDevice
  /-- Raised by a command, or by the reset that abandons one, whose regions conflict with those of a command running on another engine,
  whatever the two commands would end with (R82, R250, U8). SAFE. -/
  | enginesConflict
  /-- Raised by a host access to a byte where the platform places a device: the spec does not describe the device (R61). SAFE. -/
  | hostAccessToDevice (a : Nat)
deriving DecidableEq, Repr

/-- Every descriptor register is 0 after reset (R50). -/
def Descriptors.reset : Descriptors where
  dimN := 0
  dimIH := 0
  dimIW := 0
  dimIC := 0
  dimOH := 0
  dimOW := 0
  dimOC := 0
  dimKH := 0
  dimKW := 0
  depthMult := 0
  strideH := 0
  strideW := 0
  dilH := 0
  dilW := 0
  padH := 0
  padW := 0
  inZp := 0
  outZp := 0
  actMin := 0
  actMax := 0
  inAddr := 0
  fltAddr := 0
  biasAddr := 0
  outAddr := 0
  qtabAddr := 0
  qtabLen := 0
  scratchAddr := 0
  scratchLen := 0

/-- An engine right after reset (R50, R240). -/
def Engine.reset (page : Nat) : Engine where
  page := page
  phase := .idle
  irqEn := false
  done := false
  err := false
  errCode := .none
  errInfo := 0
  errAddr := 0
  cmd := 0
  desc := Descriptors.reset
  lent := []

/-- The machine right after reset (R50, R240). DESIGN CHOICE for what the spec leaves OPEN or does not have: one engine, its block at
0x40000000, memory that admits every access, no device (log entries 6 and 7); no pending input, no reply, no draw (log entries 3
and 10); no byte of memory listed (log entry 5). -/
def State.reset : State where
  eng := Engine.reset 0x400000
  others := []
  mem := []
  platform := ⟨[], [], []⟩
  inputs := []
  replies := []
  draws := 0

end Sys2Proof.Machine
end

