-- ==== Sys2Proof/Machine/Flags.lean ====
section
/-! DEFINITION. Every flag and its computation: the STATUS word (R26, R47), the ERR_INFO word and its fields (R27), the numeric codes
(R211, R215), the interrupt level (R43, R220), and the acknowledge of DONE (R26, R224). -/

namespace Sys2Proof.Machine

/-- The four bits of STATUS.ERR_CODE (R211). -/
def ErrCode.bits : ErrCode → BitVec 4
  | .none            => 0#4
  | .illegalCommand  => 1#4
  | .unsupportedType => 2#4
  | .configMismatch  => 3#4
  | .busError        => 4#4

/-- The sub-cause number of a CONFIG_MISMATCH (R119, R215). -/
def ConfigCause.sub : ConfigCause → BitVec 8
  | .paramRange     => 1#8
  | .depthMismatch  => 2#8
  | .qtabLen        => 3#8
  | .scratchMissing => 4#8
  | .scratchSmall   => 5#8
  | .zpRange        => 6#8
  | .actRange       => 7#8
  | .regionRange    => 8#8
  | .regionOverlap  => 9#8
  | .shiftRange     => 10#8

/-- The sub-cause of a BUS_ERROR: 1 a refused read, 2 a refused write (R130, R216). -/
def busSub : AccessKind → BitVec 8
  | .read  => 1#8
  | .write => 2#8

/-- One bit as a bit vector. -/
def bit (b : Bool) : BitVec 1 := BitVec.ofBool b

/-- STATUS.BUSY, which is `PHASE = RUN` (R45). -/
def Engine.busy (e : Engine) : Bool := e.phase == .run

/-- The STATUS word: BUSY bit 0, DONE bit 1, ERR bit 2, ERR_CODE bits 11:8, the rest 0 (R26). -/
def Engine.statusWord (e : Engine) : Word :=
  0#20 ++ (e.errCode.bits ++ (0#5 ++ (bit e.err ++ (bit e.done ++ bit e.busy))))

/-- The CTRL word: START reads 0, IRQ_EN bit 1, the rest 0 (R25). -/
def Engine.ctrlWord (e : Engine) : Word :=
  0#30 ++ (bit e.irqEn ++ 0#1)

/-- The interrupt output, a level equal at every instant to DONE and IRQ_EN (R43, R220). -/
def Engine.irq (e : Engine) : Bool := e.done && e.irqEn

/-- The ERR_INFO word of an error (R27, R113): `CHANNEL ++ TAG ++ TENSOR ++ SUBCAUSE`, the channel's low 16 bits. -/
def ErrRecord.info (r : ErrRecord) : Word :=
  BitVec.ofNat 16 r.channel ++ (r.tag ++ (r.tensor ++ r.sub))

/-- ERR_INFO.SUBCAUSE (R27). -/
def errSubcause (w : Word) : BitVec 8 := w.extractLsb' 0 8

/-- ERR_INFO.TENSOR (R27). -/
def errTensor (w : Word) : BitVec 4 := w.extractLsb' 8 4

/-- ERR_INFO.TAG (R27). -/
def errTag (w : Word) : BitVec 4 := w.extractLsb' 12 4

/-- ERR_INFO.CHANNEL (R27). -/
def errChannel (w : Word) : BitVec 16 := w.extractLsb' 16 16

/-- A host write of `v` to STATUS clears DONE where bit 1 of `v` is 1 and changes nothing else (R21, R26, R224). -/
def Engine.ackDone (e : Engine) (v : Word) : Engine :=
  if v.getLsbD 1 then { e with done := false } else e

/-- The error a rejected CMD word ends in (R94, R116, R212). -/
def ErrRecord.ofCmdError : CmdError → ErrRecord
  | .illegalOp       => ⟨.illegalCommand, 1#8, 0#4, 0#4, 0, 0⟩
  | .reservedBits    => ⟨.illegalCommand, 2#8, 0#4, 0#4, 0, 0⟩
  | .unsupported t g => ⟨.unsupportedType, 0#8, t.bits, g, 0, 0⟩

/-- The error of a failed configuration check, sub-causes 1 to 9 (R119, R212). -/
def ErrRecord.ofConfig (c : ConfigCause) : ErrRecord :=
  ⟨.configMismatch, c.sub, 0#4, 0#4, 0, 0⟩

/-- The error of a table shift outside [-31, 31]: channel `c`, the shift word at `a` (R129, R212). -/
def ErrRecord.shiftRange (c a : Nat) : ErrRecord :=
  ⟨.configMismatch, ConfigCause.shiftRange.sub, 0#4, 0#4, c, a⟩

/-- The error of an unadmitted byte `a` in table entry `c` (R129, R212). -/
def ErrRecord.tableBus (c a : Nat) : ErrRecord :=
  ⟨.busError, busSub .read, 0#4, 0#4, c, a⟩

/-- The error of an unadmitted access in execution (R130, R212). -/
def ErrRecord.execBus (x : Nat × AccessKind) : ErrRecord :=
  ⟨.busError, busSub x.2, 0#4, 0#4, 0, x.1⟩

end Sys2Proof.Machine
end

