-- ==== Sys2Proof/Machine/Ops.lean ====
section
/-! DEFINITION. The named operations over memory and registers: bytes of data memory (R60), little-endian accesses (R13, R62),
admission (R72), the two completions of a command (R112, R113), of which the error completion stands for taking an exception
(R223), and the choice of the engine that moves (R230). -/

namespace Sys2Proof.Machine

/-- The size of the data address space (R60). -/
def addrSpace : Nat := 2 ^ 32

/-- Data memory: (address, byte) pairs. A byte that is not listed reads as 0 (log entry 5). -/
abbrev Memory := List Host.Cell

/-- What a byte that is not listed reads as. DESIGN CHOICE: the spec gives memory no initial contents (log entry 5). -/
def unlisted : Byte := 0#8

/-- The canonical form: addresses strictly rising and inside the address space, no byte equal to what an unlisted one reads as. -/
abbrev Memory.wf (m : Memory) : Prop :=
  m.Pairwise (fun x y => x.1 < y.1) ∧ ∀ c ∈ m, c.2 ≠ unlisted ∧ c.1 < addrSpace

/-- `Mem[a]` (R13, R60). -/
def Memory.get : Memory → Nat → Byte
  | [], _ => unlisted
  | c :: m, a => if c.1 = a then c.2 else Memory.get m a

/-- The byte put in its place by address. -/
def Memory.insert : Memory → Host.Cell → Memory
  | [], x => [x]
  | c :: m, x => if x.1 < c.1 then x :: c :: m else c :: Memory.insert m x

/-- `Mem[a] <- b` (R13, R60), keeping the canonical form. -/
def Memory.put (m : Memory) (a : Nat) (b : Byte) : Memory :=
  let rest := m.filter (fun c => c.1 != a)
  if b = unlisted then rest else Memory.insert rest (a, b)

/-- The bytes of `l` written one after the other. -/
def Memory.store (m : Memory) (l : List Host.Cell) : Memory :=
  l.foldl (fun m c => Memory.put m c.1 c.2) m

/-- The number whose bytes, lowest address first, are the `n` bytes from `a`: the sum of `Mem[a+i] * 2^(8i)` (R62). -/
def Memory.number (m : Memory) (a : Nat) : Nat → Nat
  | 0 => 0
  | n + 1 => Memory.number m a n + (Memory.get m (a + n)).toNat * 2 ^ (8 * n)

/-- `MemRead(a, n)`, an 8n-bit pattern, little-endian (R13, R62). -/
def memRead (m : Memory) (a n : Nat) : BitVec (8 * n) :=
  BitVec.ofNat (8 * n) (Memory.number m a n)

/-- The bytes `MemWrite(a, n, v)` stores: `v[8i+7 : 8i]` at `a + i` (R13, R62). -/
def cellsLE (a n : Nat) (v : BitVec (8 * n)) : List Host.Cell :=
  (List.range n).map fun i => (a + i, v.extractLsb' (8 * i) 8)

/-- `MemWrite(a, n, v)` (R13, R62). -/
def memWrite (m : Memory) (a n : Nat) (v : BitVec (8 * n)) : Memory :=
  Memory.store m (cellsLE a n v)

/-- `wrap_N(v)`, the two's-complement wrap of `v` to `w` bits (R12). -/
def wrap (w : Nat) (v : Int) : Int := (BitVec.ofInt w v).toInt

/-- `clamp(v, lo, hi)` (R12). -/
def clamp (v lo hi : Int) : Int := min (max v lo) hi

/-- The address lies in the range. -/
def inRange (r : Range) (a : Nat) : Bool :=
  decide (r.base ≤ a) && decide (a < r.base + r.len)

/-- `MEM_ADMIT(a, kind)` of the platform (R72). -/
def admits (p : Platform) (a : Nat) (k : AccessKind) : Bool :=
  match k with
  | .read  => !p.noRead.any (inRange · a)
  | .write => !p.noWrite.any (inRange · a)

/-- ENGINE_BASE_k, the bus address of the engine's register block: a multiple of 256 (R23, D51). -/
def Engine.base (e : Engine) : Nat := 256 * e.page

/-- The addresses of an engine's register block (R23, R61). -/
def Engine.block (e : Engine) : Range := ⟨e.base, 256⟩

/-- Every place where the platform puts a device, each engine's register block included (R61, R75). -/
def deviceRanges (s : State) : List Range :=
  s.platform.devices ++ (s.eng :: s.others).map Engine.block

/-- The moving engine replaced. -/
def State.withEng (s : State) (e : Engine) : State := { s with eng := e }

/-- The registers of `finish()` (R112); ERR_INFO and ERR_ADDR are not written. -/
def Engine.finish (e : Engine) : Engine :=
  { e with phase := .idle, done := true, err := false, errCode := .none }

/-- The registers of `raise ERR` (R113). -/
def Engine.raise (e : Engine) (r : ErrRecord) : Engine :=
  { e with
    errInfo := r.info
    errAddr := BitVec.ofNat 32 r.addr
    errCode := r.code
    err := true
    done := true
    phase := .idle }

/-- Success completion of the moving engine's command, memory now `m` (R112). -/
def finish (m : Memory) (s : State) : State :=
  { s with eng := s.eng.finish, mem := m }

/-- Error completion of the moving engine's command: what stands for taking an exception on this device (R113, R223). It saves the
error code in STATUS, the details in ERR_INFO and ERR_ADDR, and goes from RUN to IDLE; control goes to no address. -/
def raiseErr (r : ErrRecord) (s : State) : State :=
  { s with eng := s.eng.raise r }

/-- What stands for the return from an exception: the host's acknowledge of the completion, which restores nothing (R224). -/
def acknowledge (v : Word) (s : State) : State :=
  { s with eng := s.eng.ackDone v }

/-- The first engine of a list that satisfies `p`, and the list with `cur` in its place. -/
def takeEngine (p : Engine → Bool) (cur : Engine) : List Engine → Option (Engine × List Engine)
  | [] => none
  | e :: es =>
    if p e then some (e, cur :: es)
    else (takeEngine p cur es).map fun x => (x.1, e :: x.2)

/-- The state in which an engine satisfying `p` is the one that moves: the engine that moves now if it does, else the first of the
others that does, the two exchanging places (R230). Nothing else changes. -/
def focus (p : Engine → Bool) (s : State) : Option State :=
  if p s.eng then some s
  else (takeEngine p s.eng s.others).map fun x => { s with eng := x.1, others := x.2 }

end Sys2Proof.Machine
end

