-- ==== Sys2Proof/Machine/Operands.lean ====
section
/-! DEFINITION. Every operand form: the descriptor registers as numbers (R98), the sizes and ranges of the element representations
(R63, R170), the element addresses (R64 to R68), and the active regions of a command (R69 to R71). -/

namespace Sys2Proof.Machine

/-- The operands of a command, decoded from the descriptor registers (R98), under the spec's own names. -/
structure Operands where
  N  : Nat
  IH : Nat
  IW : Nat
  IC : Nat
  OH : Nat
  OW : Nat
  OC : Nat
  KH : Nat
  KW : Nat
  DM : Nat
  SH : Nat
  SW : Nat
  DH : Nat
  DW : Nat
  PH : Nat
  PW : Nat
  inZp : Int
  outZp : Int
  actMin : Int
  actMax : Int
  inAddr : Nat
  fltAddr : Nat
  biasAddr : Nat
  outAddr : Nat
  qtabAddr : Nat
  qtabLen : Nat
  scratchAddr : Nat
  scratchLen : Nat
deriving DecidableEq, Repr

/-- Dimensions `zext_16`, zero points and bounds `sext_32`, addresses and lengths `zext_32` (R98). -/
def operandsOf (d : Descriptors) : Operands where
  N := d.dimN.toNat
  IH := d.dimIH.toNat
  IW := d.dimIW.toNat
  IC := d.dimIC.toNat
  OH := d.dimOH.toNat
  OW := d.dimOW.toNat
  OC := d.dimOC.toNat
  KH := d.dimKH.toNat
  KW := d.dimKW.toNat
  DM := d.depthMult.toNat
  SH := d.strideH.toNat
  SW := d.strideW.toNat
  DH := d.dilH.toNat
  DW := d.dilW.toNat
  PH := d.padH.toNat
  PW := d.padW.toNat
  inZp := d.inZp.toInt
  outZp := d.outZp.toInt
  actMin := d.actMin.toInt
  actMax := d.actMax.toInt
  inAddr := d.inAddr.toNat
  fltAddr := d.fltAddr.toNat
  biasAddr := d.biasAddr.toNat
  outAddr := d.outAddr.toNat
  qtabAddr := d.qtabAddr.toNat
  qtabLen := d.qtabLen.toNat
  scratchAddr := d.scratchAddr.toNat
  scratchLen := d.scratchLen.toNat

/-- The operands of the moving engine's command. -/
def State.operands (s : State) : Operands := operandsOf s.eng.desc

/-- `size(T)` in bytes (R63). A packed element is half a byte and an absent tensor has none: neither has a size of its own. -/
def tagSize : Tag → Nat
  | .int8    => 1
  | .int16   => 2
  | .int32   => 4
  | .int64   => 8
  | .float32 => 4
  | .int4p   => 0
  | .absent  => 0

/-- The least value of a signed representation: TMIN for INT8 and INT16 (R125, R170). -/
def tagMin : Tag → Int
  | .int8    => -128
  | .int16   => -32768
  | .int4p   => -8
  | .int32   => -2147483648
  | .int64   => -9223372036854775808
  | .float32 => 0
  | .absent  => 0

/-- The greatest value of a signed representation: TMAX for INT8 and INT16 (R125, R170). -/
def tagMax : Tag → Int
  | .int8    => 127
  | .int16   => 32767
  | .int4p   => 7
  | .int32   => 2147483647
  | .int64   => 9223372036854775807
  | .float32 => 0
  | .absent  => 0

/-- `bytes(T, E)`: the bytes of a tensor of `E` elements (R69). -/
def tensorBytes (t : Tag) (E : Nat) : Nat :=
  match t with
  | .int4p => (E + 1) / 2
  | _      => E * tagSize t

/-- The command is a CONV or DWCONV. -/
def isConv (f : Form) : Bool := f.op != .unpack4

/-- The command is an integer path of CONV or DWCONV: I8, I8W4, I16 or I16B64 (R129). -/
def isInt (f : Form) : Bool := isConv f && f.inType != .float32

/-- The filter is packed: FLT_TYPE = INT4P (R41). -/
def isPacked (f : Form) : Bool := f.fltType == .int4p

/-- The number of input elements (R69). -/
def eIn (o : Operands) : Nat := o.N * o.IH * o.IW * o.IC

/-- The number of output elements (R69). -/
def eOut (o : Operands) : Nat := o.N * o.OH * o.OW * o.OC

/-- The number of filter elements (R69). -/
def eFlt (op : Op) (o : Operands) : Nat :=
  match op with
  | .dwconv => o.KH * o.KW * o.OC
  | _       => o.OC * o.KH * o.KW * o.IC

/-- `addr_IN(n, y, x, c)` (R64). -/
def addrIn (f : Form) (o : Operands) (n y x c : Nat) : Nat :=
  o.inAddr + (((n * o.IH + y) * o.IW + x) * o.IC + c) * tagSize f.inType

/-- `f_std(oc, ky, kx, ic)` (R65). -/
def filterStd (o : Operands) (oc ky kx ic : Nat) : Nat :=
  ((oc * o.KH + ky) * o.KW + kx) * o.IC + ic

/-- `f_dw(ky, kx, oc)` (R65). -/
def filterDw (o : Operands) (ky kx oc : Nat) : Nat :=
  (ky * o.KW + kx) * o.OC + oc

/-- `addr_BIAS(oc)` (R66). -/
def addrBias (f : Form) (o : Operands) (oc : Nat) : Nat :=
  o.biasAddr + oc * tagSize f.biasType

/-- The address of entry `c` of the quantization table (R67). -/
def addrQtab (o : Operands) (c : Nat) : Nat := o.qtabAddr + 8 * c

/-- `addr_OUT(n, y, x, oc)` (R68). -/
def addrOut (f : Form) (o : Operands) (n y x oc : Nat) : Nat :=
  o.outAddr + (((n * o.OH + y) * o.OW + x) * o.OC + oc) * tagSize f.outType

/-- The multiplier `M_c` (R67). -/
def multiplier (m : Memory) (o : Operands) (c : Nat) : Int := (memRead m (addrQtab o c) 4).toInt

/-- The shift `S_c` (R67). -/
def shift (m : Memory) (o : Operands) (c : Nat) : Int := (memRead m (addrQtab o c + 4) 4).toInt

/-- The signed element of `n` bytes at `a` (R63): `sext_8n(MemRead(a, n))`. -/
def readSigned (m : Memory) (a n : Nat) : Int := (memRead m a n).toInt

/-- The input region (R69). -/
def inRegion (f : Form) (o : Operands) : Region :=
  ⟨.inp, o.inAddr, tensorBytes f.inType (eIn o), [.read]⟩

/-- The filter region (R69). -/
def fltRegion (f : Form) (o : Operands) : Region :=
  ⟨.flt, o.fltAddr, tensorBytes f.fltType (eFlt f.op o), [.read]⟩

/-- The bias region (R69). -/
def biasRegion (f : Form) (o : Operands) : Region :=
  ⟨.bias, o.biasAddr, tensorBytes f.biasType o.OC, [.read]⟩

/-- The quantization table (R69). -/
def qtabRegion (o : Operands) : Region := ⟨.qtab, o.qtabAddr, 8 * o.OC, [.read]⟩

/-- The output region (R69). -/
def outRegion (f : Form) (o : Operands) : Region :=
  ⟨.out, o.outAddr, tensorBytes f.outType (eOut o), [.write]⟩

/-- The scratch region: written then read by a packed convolution, only written by UNPACK4 (R69). -/
def scrRegion (f : Form) (o : Operands) : Region :=
  ⟨.scr, o.scratchAddr, eFlt f.op o, if isConv f then [.write, .read] else [.write]⟩

/-- The active regions of a command, in the order of R69. -/
def regions (f : Form) (o : Operands) : List Region :=
  if isConv f then
    [inRegion f o, fltRegion f o]
      ++ (if f.biasType != .absent then [biasRegion f o] else [])
      ++ (if isInt f then [qtabRegion o] else [])
      ++ [outRegion f o]
      ++ (if isPacked f then [scrRegion f o] else [])
  else
    [fltRegion f o, scrRegion f o]

/-- The region is OUT or SCR, one a command writes (R71). -/
def Region.written (r : Region) : Bool := r.name == .out || r.name == .scr

/-- The address lies in the region. -/
def Region.holds (r : Region) (a : Nat) : Bool :=
  decide (r.base ≤ a) && decide (a < r.base + r.len)

/-- Two stretches of addresses overlap (R71). -/
def overlap (a la b lb : Nat) : Bool :=
  decide (0 < la) && decide (0 < lb) && decide (a < b + lb) && decide (b < a + la)

/-- Two regions overlap (R71). -/
def Region.overlaps (r t : Region) : Bool := overlap r.base r.len t.base t.len

/-- The active regions of the command in an engine's CMD and descriptor registers; a CMD word that is no command has none. -/
def Engine.regions (e : Engine) : List Region :=
  match decode e.cmd with
  | .ok i    => Sys2Proof.Machine.regions i.form (operandsOf e.desc)
  | .error _ => []

end Sys2Proof.Machine
end

