-- ==== Sys2Proof/Machine/Checks.lean ====
section
/-! DEFINITION. What a command checks before it computes: the configuration checks of phase 3 (R119 to R128), the quantization-table
check of phase 4 (R129), the access set and its faults of phase 5 (R72, R130), and the two host duties whose breach the spec tells a
model to refuse (R75, R82). -/

namespace Sys2Proof.Machine

/-- PARAM_RANGE, sub-cause 1 (R120). -/
def paramRangeBad (f : Form) (o : Operands) : Bool :=
  o.SH == 0 || o.SW == 0 || o.DH == 0 || o.DW == 0 || o.KH == 0 || o.KW == 0
    || (f.op == .dwconv && o.DM == 0)

/-- DEPTH_MISMATCH, sub-cause 2 (R121). -/
def depthBad (f : Form) (o : Operands) : Bool :=
  f.op == .dwconv && o.OC != o.IC * o.DM

/-- QTAB_LEN, sub-cause 3 (R122). -/
def qtabLenBad (o : Operands) : Bool := o.qtabLen != o.OC

/-- SCRATCH_MISSING, sub-cause 4 (R123). -/
def scratchMissing (o : Operands) : Bool := o.scratchLen == 0

/-- SCRATCH_SMALL, sub-cause 5 (R124). -/
def scratchSmall (f : Form) (o : Operands) : Bool := decide (o.scratchLen < eFlt f.op o)

/-- The value lies in the range of the representation (R125). -/
def inTagRange (t : Tag) (v : Int) : Bool := decide (tagMin t ≤ v) && decide (v ≤ tagMax t)

/-- ZP_RANGE, sub-cause 6 (R125). -/
def zpRangeBad (f : Form) (o : Operands) : Bool :=
  !(inTagRange f.inType o.inZp && inTagRange f.outType o.outZp)

/-- ACT_RANGE, sub-cause 7 (R126). -/
def actRangeBad (o : Operands) : Bool := decide (o.actMax < o.actMin)

/-- REGION_RANGE, sub-cause 8: some active region ends past 2^32 (R70, R127). -/
def regionRangeBad (rs : List Region) : Bool :=
  rs.any fun r => decide (addrSpace < r.base + r.len)

/-- REGION_OVERLAP, sub-cause 9: the OUT or the SCR region overlaps another active region (R71, R128). -/
def regionOverlapBad (rs : List Region) : Bool :=
  rs.any fun a => a.written && rs.any fun b => a.name != b.name && a.overlaps b

/-- The configuration checks in order, each with whether it holds on this form: the table of R119. -/
def configChecks (f : Form) (o : Operands) : List (ConfigCause × Bool) :=
  [ (.paramRange,     isConv f && paramRangeBad f o),
    (.depthMismatch,  isConv f && depthBad f o),
    (.qtabLen,        isInt f && qtabLenBad o),
    (.scratchMissing, isPacked f && scratchMissing o),
    (.scratchSmall,   isPacked f && scratchSmall f o),
    (.zpRange,        isInt f && zpRangeBad f o),
    (.actRange,       isInt f && actRangeBad o),
    (.regionRange,    regionRangeBad (regions f o)),
    (.regionOverlap,  regionOverlapBad (regions f o)) ]

/-- The sub-cause phase 3 raises: the first check that holds (R119, R219). -/
def configError (f : Form) (o : Operands) : Option ConfigCause :=
  ((configChecks f o).find? (·.2)).map (·.1)

/-- The error of table entry `c`: its lowest unadmitted byte, else a shift outside [-31, 31] (R129). -/
def entryError (p : Platform) (m : Memory) (o : Operands) (c : Nat) : Option ErrRecord :=
  match ((List.range 8).map (addrQtab o c + ·)).find? (fun a => !admits p a .read) with
  | some a => some (ErrRecord.tableBus c a)
  | none =>
    if shift m o c < -31 ∨ 31 < shift m o c then
      some (ErrRecord.shiftRange c (addrQtab o c + 4))
    else none

/-- Phase 4, integer paths only: the first error in channel order (R129, D52). -/
def tableError (f : Form) (p : Platform) (m : Memory) (o : Operands) : Option ErrRecord :=
  if isInt f then (List.range o.OC).findSome? (entryError p m o) else none

/-- The accesses to the bytes of a region (R72). -/
def Region.accesses (r : Region) : List (Nat × AccessKind) :=
  (List.range r.len).flatMap fun i => r.access.map fun k => (r.base + i, k)

/-- The accesses of phase 5 that the platform does not admit, over every active region but the table (R130). -/
def faultSet (f : Form) (p : Platform) (o : Operands) : List (Nat × AccessKind) :=
  (((regions f o).filter (·.name != .qtab)).flatMap Region.accesses).filter fun x => !admits p x.1 x.2

/-- Some region covers a byte where the platform places a device (R61, R75). -/
def coversDevice (s : State) (rs : List Region) : Bool :=
  rs.any fun r => (deviceRanges s).any fun d => overlap r.base r.len d.base d.len

/-- The OUT or SCR region of one set overlaps a region of the other (R82, R250). -/
def conflict (rs ts : List Region) : Bool :=
  rs.any fun a => ts.any fun b => (a.written || b.written) && a.overlaps b

/-- A command running on another engine conflicts with these regions (R82, R250). -/
def conflictsRunning (s : State) (rs : List Region) : Bool :=
  s.others.any fun e => e.busy && conflict rs e.regions

end Sys2Proof.Machine
end

