-- ==== Sys2Proof/Machine/Command.lean ====
section
/-! DEFINITION. Phases 3 to 5 of a command as one step (R81, R111, R132), shared by all 19 commands: what each computes is an argument.
Beside it what an accepted START does to the registers (R110) and the unspecified bytes of OUT and SCR (R130, R241). -/

namespace Sys2Proof.Machine

/-- The bytes of a region that lie in the address space. -/
def Region.bytes (r : Region) : List Nat :=
  ((List.range r.len).map (r.base + ·)).filter (· < addrSpace)

/-- Every byte of the OUT and SCR regions among `rs` becomes a FREE VALUE, the draw numbered `draw` (R130, R241, U3, U5). -/
def unspecify (draw : Nat) (rs : List Region) (m : Memory) : Memory :=
  Memory.store m (((rs.filter Region.written).flatMap Region.bytes).map fun a => (a, Config.freeByte draw a))

/-- `BUSPICK`: the element of the non-empty fault set `x :: xs` that draw `draw` selects (R130). FREE VALUE. -/
def busPickOf (draw : Nat) (x : Nat × AccessKind) (xs : List (Nat × AccessKind)) : Nat × AccessKind :=
  (x :: xs).getD (Config.busPick draw % (xs.length + 1)) x

/-- The end of a command whose execution finds unadmitted accesses `x :: xs` (R130): one is reported, the OUT and SCR bytes are
unspecified, everything else is as it was. -/
def busFault (rs : List Region) (x : Nat × AccessKind) (xs : List (Nat × AccessKind)) (s : State) : State :=
  raiseErr (ErrRecord.execBus (busPickOf s.draws x xs))
    { s with mem := unspecify s.draws rs s.mem, draws := s.draws + 1 }

/-- Phases 4 and 5 of a command of form `f` that computes `work` (R111): the table check, the bus-error check, then the computation and
`finish()` (R132). -/
def runMemoryPhases (f : Form) (work : Operands → Memory → Memory) (s : State) : Host.Outcome State Fault Refusal :=
  match tableError f s.platform s.mem s.operands with
  | some e => .next (raiseErr e s)
  | none =>
    match faultSet f s.platform s.operands with
    | x :: xs => .next (busFault (regions f s.operands) x xs s)
    | [] => .next (finish (work s.operands s.mem) s)

/-- A command of form `f` that computes `work` (R111). A conflict with a command running on another engine is judged before all else: it
leaves the results of both unspecified, an error of phase 3 included (R82, R250, U8; log entry 12). Then the configuration checks, which
touch no memory; then whether a region covers a device, judged before memory is touched (R75, U10; log entry 11); then phases 4 and 5. -/
def runCommand (f : Form) (work : Operands → Memory → Memory) (s : State) : Host.Outcome State Fault Refusal :=
  if conflictsRunning s (regions f s.operands) then .refused .enginesConflict
  else
    match configError f s.operands with
    | some c => .next (raiseErr (ErrRecord.ofConfig c) s)
    | none =>
      if coversDevice s (regions f s.operands) then .refused .regionOverDevice
      else runMemoryPhases f work s

/-- The registers of an accepted START (R110): the results of the command before it are cleared and the engine runs. The command's
active regions are lent to the engine from here until the host observes its completion (R248, log entry 13). -/
def Engine.start (e : Engine) : Engine :=
  { e with
    done := false
    err := false
    errCode := .none
    errInfo := 0#32
    errAddr := 0#32
    phase := .run
    lent := e.regions ++ e.lent }

end Sys2Proof.Machine
end

