-- ==== Sys2Proof/Machine/Unpack.lean ====
section
/-! DEFINITION. The weight unpacker (R140, R141) and the stand-alone command UNPACK4 (R142). -/

namespace Sys2Proof.Machine

/-- The nibble of element `i` of the packed tensor at `b`: the low one for an even element, the high one for an odd one (R140). -/
def nibble (m : Memory) (b i : Nat) : BitVec 4 :=
  if i % 2 = 0 then (memRead m (b + i / 2) 1).extractLsb' 0 4
  else (memRead m (b + i / 2) 1).extractLsb' 4 4

/-- `unpack4(b, i)`, an integer in [-8, 7] (R140). -/
def unpackElem (m : Memory) (b i : Nat) : Int := (nibble m b i).toInt

/-- The bytes the unpack pass writes, in the filter's flat order (R141). -/
def unpackCells (f : Form) (o : Operands) (m : Memory) : List Host.Cell :=
  (List.range (eFlt f.op o)).map fun i => (o.scratchAddr + i, BitVec.ofInt 8 (unpackElem m o.fltAddr i))

/-- The unpack pass (R141). The filter and the scratch buffer do not overlap (R128), so each element is read from the memory before
the pass. -/
def unpackPass (f : Form) (o : Operands) (m : Memory) : Memory :=
  Memory.store m (unpackCells f o m)

/-- `unpack4` (R142): the unpack pass and nothing else. -/
def execUnpack4 (s : State) : Host.Outcome State Fault Refusal :=
  runCommand ⟨.unpack4, .absent, .int4p, .absent, .absent⟩
    (unpackPass ⟨.unpack4, .absent, .int4p, .absent, .absent⟩) s

end Sys2Proof.Machine
end

