-- ==== Sys2Proof/Machine/Accumulate.lean ====
section
/-! DEFINITION. The accumulation engine (R150 to R160): output elements, the taps of a receptive field, the sums of CONV and DWCONV,
the bias, the accumulator's width, and the terms of the float path. -/

namespace Sys2Proof.Machine

/-- One output element (n, oy, ox, oc) (R150). -/
structure Elem where
  n  : Nat
  oy : Nat
  ox : Nat
  oc : Nat
deriving DecidableEq, Repr

/-- The output elements in the order n, oy, ox, oc, oc fastest (R150). -/
def outputElems (o : Operands) : List Elem :=
  (List.range o.N).flatMap fun n =>
    (List.range o.OH).flatMap fun oy =>
      (List.range o.OW).flatMap fun ox =>
        (List.range o.OC).map fun oc => ⟨n, oy, ox, oc⟩

/-- `iy`, the input row of kernel row `ky` for output row `oy`, an exact signed integer (R151). -/
def tapRow (o : Operands) (oy ky : Nat) : Int := (oy : Int) * o.SH - o.PH + (ky : Int) * o.DH

/-- `ix`, the input column of kernel column `kx` for output column `ox` (R151). -/
def tapCol (o : Operands) (ox kx : Nat) : Int := (ox : Int) * o.SW - o.PW + (kx : Int) * o.DW

/-- `inb(iy, ix)` (R151). -/
def inBounds (o : Operands) (iy ix : Int) : Bool :=
  decide (0 ≤ iy) && decide (iy < o.IH) && decide (0 ≤ ix) && decide (ix < o.IW)

/-- An in-bounds tap: its kernel position and its input position. -/
structure Tap where
  ky : Nat
  kx : Nat
  iy : Nat
  ix : Nat
deriving DecidableEq, Repr

/-- The in-bounds taps of output position (oy, ox) in the loop order ky, kx. A padded tap is left out: it contributes nothing (R152). -/
def windowTaps (o : Operands) (oy ox : Nat) : List Tap :=
  (List.range o.KH).flatMap fun ky =>
    (List.range o.KW).filterMap fun kx =>
      if inBounds o (tapRow o oy ky) (tapCol o ox kx) then
        some ⟨ky, kx, (tapRow o oy ky).toNat, (tapCol o ox kx).toNat⟩
      else none

/-- The terms of a CONV element: for each in-bounds tap and input channel, the input element's address and the filter element's flat
index (R154, R160). -/
def termsStd (f : Form) (o : Operands) (e : Elem) : List (Nat × Nat) :=
  (windowTaps o e.oy e.ox).flatMap fun t =>
    (List.range o.IC).map fun ic => (addrIn f o e.n t.iy t.ix ic, filterStd o e.oc t.ky t.kx ic)

/-- The terms of a DWCONV element: only input channel `oc div DM` is read (R155, R160). -/
def termsDw (f : Form) (o : Operands) (e : Elem) : List (Nat × Nat) :=
  (windowTaps o e.oy e.ox).map fun t => (addrIn f o e.n t.iy t.ix (e.oc / o.DM), filterDw o t.ky t.kx e.oc)

/-- The terms of an output element, in loop order. -/
def terms (f : Form) (o : Operands) (e : Elem) : List (Nat × Nat) :=
  match f.op with
  | .dwconv => termsDw f o e
  | _       => termsStd f o e

/-- The base of the bytes an integer path reads filter elements from: the scratch buffer when the filter is packed (R158). -/
def filterBase (f : Form) (o : Operands) : Nat :=
  if isPacked f then o.scratchAddr else o.fltAddr

/-- The filter element of flat index `x` on an integer path, one signed byte (R158). -/
def filterElem (f : Form) (o : Operands) (m : Memory) (x : Nat) : Int :=
  readSigned m (filterBase f o + x) 1

/-- The exact product of one in-bounds tap (R153). There is no filter zero point. -/
def product (f : Form) (o : Operands) (m : Memory) (t : Nat × Nat) : Int :=
  (readSigned m t.1 (tagSize f.inType) - o.inZp) * filterElem f o m t.2

/-- `BIAS(oc)`, 0 when the bias is absent (R157). -/
def biasValue (f : Form) (o : Operands) (m : Memory) (oc : Nat) : Int :=
  if f.biasType == .absent then 0 else readSigned m (addrBias f o oc) (tagSize f.biasType)

/-- The exact sum of an output element: its products, then the bias (R154, R155). -/
def exactSum (f : Form) (o : Operands) (m : Memory) (e : Elem) : Int :=
  ((terms f o e).map (product f o m)).sum + biasValue f o m e.oc

/-- The accumulator width W: 64 for int16 input, 32 for int8 input (R156). -/
def accWidth (f : Form) : Nat := if f.inType == .int16 then 64 else 32

/-- The accumulator of an output element, `acc_std` or `acc_dw`: the exact sum wrapped to W bits (R154, R155, R156). -/
def accumulate (f : Form) (o : Operands) (m : Memory) (e : Elem) : Int :=
  wrap (accWidth f) (exactSum f o m e)

/-- The pairs of raw patterns a float element is computed from (R160). -/
def floatTerms (f : Form) (o : Operands) (m : Memory) (e : Elem) : List (Word × Word) :=
  (terms f o e).map fun t => (memRead m t.1 4, memRead m (o.fltAddr + t.2 * tagSize f.fltType) 4)

/-- The bias pattern of a float element, if a bias is present (R160). -/
def floatBias (f : Form) (o : Operands) (m : Memory) (oc : Nat) : Option Word :=
  if f.biasType == .absent then none else some (memRead m (addrBias f o oc) 4)

end Sys2Proof.Machine
end

