-- ==== Sys2Proof/Machine/Requant.lean ====
section
/-! DEFINITION. The requantization stage (R170 to R178) and the writing of output elements (R160, R162, R176). -/

namespace Sys2Proof.Machine

/-- `rhaz(P, r)`: `P / 2^r` rounded to the nearest integer, ties away from zero, one rounding (R170, R172). -/
def rhaz (P : Int) (r : Nat) : Int :=
  if r = 0 then P
  else P.sign * (((P.natAbs + 2 ^ (r - 1)) / 2 ^ r : Nat) : Int)

/-- `scaled`: the exact product `acc * M` shifted right by `r = 31 - S` with rounding (R170, R171). A positive shift scales up. -/
def scaled (acc M S : Int) : Int := rhaz (acc * M) (31 - S).toNat

/-- `requant(acc, M, S, zpo, amin, amax, T)` (R170): the zero point is added, then the activation clamp, then the output range. -/
def requant (acc M S zpo amin amax : Int) (T : Tag) : Int :=
  clamp (clamp (scaled acc M S + zpo) amin amax) (tagMin T) (tagMax T)

/-- The value of an integer output element: the accumulator taken from memory `m`, the table entry of its own channel from the memory
`qt` that phase 4 read (R129, R162, R177). -/
def outputValue (f : Form) (o : Operands) (qt m : Memory) (e : Elem) : Int :=
  requant (accumulate f o m e) (multiplier qt o e.oc) (shift qt o e.oc) o.outZp o.actMin o.actMax f.outType

/-- The bytes of the integer output elements (R162, R176). -/
def integerCells (f : Form) (o : Operands) (qt m : Memory) : List Host.Cell :=
  (outputElems o).flatMap fun e =>
    cellsLE (addrOut f o e.n e.oy e.ox e.oc) (tagSize f.outType) (BitVec.ofInt _ (outputValue f o qt m e))

/-- The bytes of the float output elements: each is `FLOAT_CONV` of its terms and its bias, a FREE VALUE; no zero point, no
requantization, no clamp (R160, R161). -/
def floatCells (f : Form) (o : Operands) (m : Memory) : List Host.Cell :=
  (outputElems o).flatMap fun e =>
    cellsLE (addrOut f o e.n e.oy e.ox e.oc) 4 (Config.floatConv (floatTerms f o m e) (floatBias f o m e.oc))

/-- The computation of path F32 (R190, R200). -/
def floatPath (f : Form) (o : Operands) (m : Memory) : Memory :=
  Memory.store m (floatCells f o m)

/-- The computation of paths I8, I16 and I16B64 (R191, R193, R194, R201, R203, R204). OUT overlaps no region that is read (R128), so
every element is computed from the memory before the first write (R81). -/
def integerPath (f : Form) (o : Operands) (m : Memory) : Memory :=
  Memory.store m (integerCells f o m m)

/-- The computation of path I8W4: the unpack pass, then the sums over the scratch bytes it wrote (R192, R202). -/
def packedPath (f : Form) (o : Operands) (m : Memory) : Memory :=
  Memory.store (unpackPass f o m) (integerCells f o m (unpackPass f o m))

end Sys2Proof.Machine
end

