-- ==== Sys2Proof/Machine/Conv.lean ====
section
/-! DEFINITION. The standard convolution commands, one meaning each (R190 to R194), over the shared phases of Command.lean and the
paths of Requant.lean. -/

namespace Sys2Proof.Machine

/-- `conv.f32` (R190): path F32, float32 input, float32 filter, float32 bias. -/
def execConvF32 (s : State) : Host.Outcome State Fault Refusal :=
  runCommand ⟨.conv, .float32, .float32, .float32, .float32⟩
    (floatPath ⟨.conv, .float32, .float32, .float32, .float32⟩) s

/-- `conv.f32.nb` (R190): path F32, float32 input, float32 filter, no bias. -/
def execConvF32Nb (s : State) : Host.Outcome State Fault Refusal :=
  runCommand ⟨.conv, .float32, .float32, .absent, .float32⟩
    (floatPath ⟨.conv, .float32, .float32, .absent, .float32⟩) s

/-- `conv.i8` (R191): path I8, int8 input, int8 filter, int32 bias. -/
def execConvI8 (s : State) : Host.Outcome State Fault Refusal :=
  runCommand ⟨.conv, .int8, .int8, .int32, .int8⟩
    (integerPath ⟨.conv, .int8, .int8, .int32, .int8⟩) s

/-- `conv.i8.nb` (R191): path I8, int8 input, int8 filter, no bias. -/
def execConvI8Nb (s : State) : Host.Outcome State Fault Refusal :=
  runCommand ⟨.conv, .int8, .int8, .absent, .int8⟩
    (integerPath ⟨.conv, .int8, .int8, .absent, .int8⟩) s

/-- `conv.i8w4` (R192): path I8W4, int8 input, packed 4-bit filter, int32 bias. -/
def execConvI8w4 (s : State) : Host.Outcome State Fault Refusal :=
  runCommand ⟨.conv, .int8, .int4p, .int32, .int8⟩
    (packedPath ⟨.conv, .int8, .int4p, .int32, .int8⟩) s

/-- `conv.i8w4.nb` (R192): path I8W4, int8 input, packed 4-bit filter, no bias. -/
def execConvI8w4Nb (s : State) : Host.Outcome State Fault Refusal :=
  runCommand ⟨.conv, .int8, .int4p, .absent, .int8⟩
    (packedPath ⟨.conv, .int8, .int4p, .absent, .int8⟩) s

/-- `conv.i16` (R193): path I16, int16 input, int8 filter, int32 bias. -/
def execConvI16 (s : State) : Host.Outcome State Fault Refusal :=
  runCommand ⟨.conv, .int16, .int8, .int32, .int16⟩
    (integerPath ⟨.conv, .int16, .int8, .int32, .int16⟩) s

/-- `conv.i16.nb` (R193): path I16, int16 input, int8 filter, no bias. -/
def execConvI16Nb (s : State) : Host.Outcome State Fault Refusal :=
  runCommand ⟨.conv, .int16, .int8, .absent, .int16⟩
    (integerPath ⟨.conv, .int16, .int8, .absent, .int16⟩) s

/-- `conv.i16b64` (R194): path I16B64, int16 input, int8 filter, int64 bias. -/
def execConvI16b64 (s : State) : Host.Outcome State Fault Refusal :=
  runCommand ⟨.conv, .int16, .int8, .int64, .int16⟩
    (integerPath ⟨.conv, .int16, .int8, .int64, .int16⟩) s

end Sys2Proof.Machine
end

