-- ==== Sys2Proof/Machine/Dwconv.lean ====
section
/-! DEFINITION. The depthwise convolution commands, one meaning each (R200 to R204), over the shared phases of Command.lean and the
paths of Requant.lean. -/

namespace Sys2Proof.Machine

/-- `dwconv.f32` (R200): path F32, float32 input, float32 filter, float32 bias. -/
def execDwconvF32 (s : State) : Host.Outcome State Fault Refusal :=
  runCommand ⟨.dwconv, .float32, .float32, .float32, .float32⟩
    (floatPath ⟨.dwconv, .float32, .float32, .float32, .float32⟩) s

/-- `dwconv.f32.nb` (R200): path F32, float32 input, float32 filter, no bias. -/
def execDwconvF32Nb (s : State) : Host.Outcome State Fault Refusal :=
  runCommand ⟨.dwconv, .float32, .float32, .absent, .float32⟩
    (floatPath ⟨.dwconv, .float32, .float32, .absent, .float32⟩) s

/-- `dwconv.i8` (R201): path I8, int8 input, int8 filter, int32 bias. -/
def execDwconvI8 (s : State) : Host.Outcome State Fault Refusal :=
  runCommand ⟨.dwconv, .int8, .int8, .int32, .int8⟩
    (integerPath ⟨.dwconv, .int8, .int8, .int32, .int8⟩) s

/-- `dwconv.i8.nb` (R201): path I8, int8 input, int8 filter, no bias. -/
def execDwconvI8Nb (s : State) : Host.Outcome State Fault Refusal :=
  runCommand ⟨.dwconv, .int8, .int8, .absent, .int8⟩
    (integerPath ⟨.dwconv, .int8, .int8, .absent, .int8⟩) s

/-- `dwconv.i8w4` (R202): path I8W4, int8 input, packed 4-bit filter, int32 bias. -/
def execDwconvI8w4 (s : State) : Host.Outcome State Fault Refusal :=
  runCommand ⟨.dwconv, .int8, .int4p, .int32, .int8⟩
    (packedPath ⟨.dwconv, .int8, .int4p, .int32, .int8⟩) s

/-- `dwconv.i8w4.nb` (R202): path I8W4, int8 input, packed 4-bit filter, no bias. -/
def execDwconvI8w4Nb (s : State) : Host.Outcome State Fault Refusal :=
  runCommand ⟨.dwconv, .int8, .int4p, .absent, .int8⟩
    (packedPath ⟨.dwconv, .int8, .int4p, .absent, .int8⟩) s

/-- `dwconv.i16` (R203): path I16, int16 input, int8 filter, int32 bias. -/
def execDwconvI16 (s : State) : Host.Outcome State Fault Refusal :=
  runCommand ⟨.dwconv, .int16, .int8, .int32, .int16⟩
    (integerPath ⟨.dwconv, .int16, .int8, .int32, .int16⟩) s

/-- `dwconv.i16.nb` (R203): path I16, int16 input, int8 filter, no bias. -/
def execDwconvI16Nb (s : State) : Host.Outcome State Fault Refusal :=
  runCommand ⟨.dwconv, .int16, .int8, .absent, .int16⟩
    (integerPath ⟨.dwconv, .int16, .int8, .absent, .int16⟩) s

/-- `dwconv.i16b64` (R204): path I16B64, int16 input, int8 filter, int64 bias. -/
def execDwconvI16b64 (s : State) : Host.Outcome State Fault Refusal :=
  runCommand ⟨.dwconv, .int16, .int8, .int64, .int16⟩
    (integerPath ⟨.dwconv, .int16, .int8, .int64, .int16⟩) s

end Sys2Proof.Machine
end

