-- ==== Sys2Proof/Machine/Dispatch.lean ====
section
/-! DEFINITION. Dispatch of a decoded command to its meaning (R132), one arm per command. -/

namespace Sys2Proof.Machine

/-- Phases 3 to 5 of the command `i` on the engine that moves (R111, R132). -/
def exec (i : Instr) (s : State) : Host.Outcome State Fault Refusal :=
  match i with
  | .convF32 => Sys2Proof.Machine.execConvF32 s
  | .convF32Nb => Sys2Proof.Machine.execConvF32Nb s
  | .convI8 => Sys2Proof.Machine.execConvI8 s
  | .convI8Nb => Sys2Proof.Machine.execConvI8Nb s
  | .convI8w4 => Sys2Proof.Machine.execConvI8w4 s
  | .convI8w4Nb => Sys2Proof.Machine.execConvI8w4Nb s
  | .convI16 => Sys2Proof.Machine.execConvI16 s
  | .convI16Nb => Sys2Proof.Machine.execConvI16Nb s
  | .convI16b64 => Sys2Proof.Machine.execConvI16b64 s
  | .dwconvF32 => Sys2Proof.Machine.execDwconvF32 s
  | .dwconvF32Nb => Sys2Proof.Machine.execDwconvF32Nb s
  | .dwconvI8 => Sys2Proof.Machine.execDwconvI8 s
  | .dwconvI8Nb => Sys2Proof.Machine.execDwconvI8Nb s
  | .dwconvI8w4 => Sys2Proof.Machine.execDwconvI8w4 s
  | .dwconvI8w4Nb => Sys2Proof.Machine.execDwconvI8w4Nb s
  | .dwconvI16 => Sys2Proof.Machine.execDwconvI16 s
  | .dwconvI16Nb => Sys2Proof.Machine.execDwconvI16Nb s
  | .dwconvI16b64 => Sys2Proof.Machine.execDwconvI16b64 s
  | .unpack4 => Sys2Proof.Machine.execUnpack4 s

end Sys2Proof.Machine
end

