-- ==== Sys2Proof/Machine/Registers.lean ====
section
/-! DEFINITION. The register block as the host sees it (R21 to R43): the register map, reads, writes, and what a write to CTRL or STATUS
does (R110, R224). -/

namespace Sys2Proof.Machine

/-- The registers of the block (R23); the other offsets are reserved (R42). -/
inductive Reg where
  | id
  | version
  | ctrl
  | status
  | errInfo
  | errAddr
  | cmd
  | dimN
  | dimIH
  | dimIW
  | dimIC
  | dimOH
  | dimOW
  | dimOC
  | dimKH
  | dimKW
  | depthMult
  | strideH
  | strideW
  | dilH
  | dilW
  | padH
  | padW
  | inZp
  | outZp
  | actMin
  | actMax
  | inAddr
  | fltAddr
  | biasAddr
  | outAddr
  | qtabAddr
  | qtabLen
  | scratchAddr
  | scratchLen
deriving DecidableEq, Repr

/-- The offset of a register from ENGINE_BASE (R23). -/
def Reg.offset : Reg → Nat
  | .id          => 0x00
  | .version     => 0x04
  | .ctrl        => 0x08
  | .status      => 0x0C
  | .errInfo     => 0x10
  | .errAddr     => 0x14
  | .cmd         => 0x18
  | .dimN        => 0x20
  | .dimIH       => 0x24
  | .dimIW       => 0x28
  | .dimIC       => 0x2C
  | .dimOH       => 0x30
  | .dimOW       => 0x34
  | .dimOC       => 0x38
  | .dimKH       => 0x3C
  | .dimKW       => 0x40
  | .depthMult   => 0x44
  | .strideH     => 0x48
  | .strideW     => 0x4C
  | .dilH        => 0x50
  | .dilW        => 0x54
  | .padH        => 0x58
  | .padW        => 0x5C
  | .inZp        => 0x60
  | .outZp       => 0x64
  | .actMin      => 0x68
  | .actMax      => 0x6C
  | .inAddr      => 0x70
  | .fltAddr     => 0x74
  | .biasAddr    => 0x78
  | .outAddr     => 0x7C
  | .qtabAddr    => 0x80
  | .qtabLen     => 0x84
  | .scratchAddr => 0x88
  | .scratchLen  => 0x8C

/-- Every register, in the order of the map (R23). -/
def allRegs : List Reg :=
  [.id, .version, .ctrl, .status, .errInfo, .errAddr, .cmd, .dimN,
   .dimIH, .dimIW, .dimIC, .dimOH, .dimOW, .dimOC, .dimKH, .dimKW,
   .depthMult, .strideH, .strideW, .dilH, .dilW, .padH, .padW, .inZp,
   .outZp, .actMin, .actMax, .inAddr, .fltAddr, .biasAddr, .outAddr, .qtabAddr,
   .qtabLen, .scratchAddr, .scratchLen]

/-- The register at an offset; a reserved offset has none (R23, R42). -/
def regAt (offset : Nat) : Option Reg := allRegs.find? fun r => r.offset == offset

/-- A 16-bit register as a word: its reserved bits read 0 (R42). -/
def word16 (v : BitVec 16) : Word := v.setWidth 32

/-- The defined bits of a 16-bit register in a written word (R42). -/
def low16 (v : Word) : BitVec 16 := v.setWidth 16

/-- What a descriptor register reads (R30 to R41); the other registers are no descriptors. -/
def Descriptors.read (d : Descriptors) : Reg → Word
  | .dimN        => word16 d.dimN
  | .dimIH       => word16 d.dimIH
  | .dimIW       => word16 d.dimIW
  | .dimIC       => word16 d.dimIC
  | .dimOH       => word16 d.dimOH
  | .dimOW       => word16 d.dimOW
  | .dimOC       => word16 d.dimOC
  | .dimKH       => word16 d.dimKH
  | .dimKW       => word16 d.dimKW
  | .depthMult   => word16 d.depthMult
  | .strideH     => word16 d.strideH
  | .strideW     => word16 d.strideW
  | .dilH        => word16 d.dilH
  | .dilW        => word16 d.dilW
  | .padH        => word16 d.padH
  | .padW        => word16 d.padW
  | .inZp        => d.inZp
  | .outZp       => d.outZp
  | .actMin      => d.actMin
  | .actMax      => d.actMax
  | .inAddr      => d.inAddr
  | .fltAddr     => d.fltAddr
  | .biasAddr    => d.biasAddr
  | .outAddr     => d.outAddr
  | .qtabAddr    => d.qtabAddr
  | .qtabLen     => d.qtabLen
  | .scratchAddr => d.scratchAddr
  | .scratchLen  => d.scratchLen
  | .id          => 0#32
  | .version     => 0#32
  | .ctrl        => 0#32
  | .status      => 0#32
  | .errInfo     => 0#32
  | .errAddr     => 0#32
  | .cmd         => 0#32

/-- A word written to a descriptor register (R30 to R42); the other registers are no descriptors. -/
def Descriptors.write (d : Descriptors) (v : Word) : Reg → Descriptors
  | .dimN        => { d with dimN := low16 v }
  | .dimIH       => { d with dimIH := low16 v }
  | .dimIW       => { d with dimIW := low16 v }
  | .dimIC       => { d with dimIC := low16 v }
  | .dimOH       => { d with dimOH := low16 v }
  | .dimOW       => { d with dimOW := low16 v }
  | .dimOC       => { d with dimOC := low16 v }
  | .dimKH       => { d with dimKH := low16 v }
  | .dimKW       => { d with dimKW := low16 v }
  | .depthMult   => { d with depthMult := low16 v }
  | .strideH     => { d with strideH := low16 v }
  | .strideW     => { d with strideW := low16 v }
  | .dilH        => { d with dilH := low16 v }
  | .dilW        => { d with dilW := low16 v }
  | .padH        => { d with padH := low16 v }
  | .padW        => { d with padW := low16 v }
  | .inZp        => { d with inZp := v }
  | .outZp       => { d with outZp := v }
  | .actMin      => { d with actMin := v }
  | .actMax      => { d with actMax := v }
  | .inAddr      => { d with inAddr := v }
  | .fltAddr     => { d with fltAddr := v }
  | .biasAddr    => { d with biasAddr := v }
  | .outAddr     => { d with outAddr := v }
  | .qtabAddr    => { d with qtabAddr := v }
  | .qtabLen     => { d with qtabLen := v }
  | .scratchAddr => { d with scratchAddr := v }
  | .scratchLen  => { d with scratchLen := v }
  | .id          => d
  | .version     => d
  | .ctrl        => d
  | .status      => d
  | .errInfo     => d
  | .errAddr     => d
  | .cmd         => d

/-- What a host read of a register returns (R21, R24 to R41). Reads are always served (R22). -/
def Engine.read (e : Engine) (r : Reg) : Word :=
  match r with
  | .id      => 0x51434E56#32
  | .version => 0x00000001#32
  | .ctrl    => e.ctrlWord
  | .status  => e.statusWord
  | .errInfo => e.errInfo
  | .errAddr => e.errAddr
  | .cmd     => e.cmd
  | r        => e.desc.read r

/-- What a host read at an offset returns: a reserved offset reads 0 (R42). -/
def Engine.readAt (e : Engine) (offset : Nat) : Word :=
  match regAt offset with
  | some r => e.read r
  | none   => 0#32

/-- A host write to CTRL (R25, R110): IRQ_EN takes bit 1; START, bit 0, starts a command when the engine is idle and is ignored when it
runs (R247). -/
def Engine.writeCtrl (e : Engine) (v : Word) : Engine :=
  let e1 := { e with irqEn := v.getLsbD 1 }
  if v.getLsbD 0 && !e1.busy then e1.start else e1

/-- A host write to a register of an idle engine (R21, R24 to R42). -/
def Engine.writeIdle (e : Engine) (v : Word) (r : Reg) : Engine :=
  match r with
  | .id      => e
  | .version => e
  | .ctrl    => e.writeCtrl v
  | .status  => e.ackDone v
  | .errInfo => e
  | .errAddr => e
  | .cmd     => { e with cmd := v }
  | r        => { e with desc := e.desc.write v r }

/-- A host write to a register: while BUSY every write is ignored but one to CTRL, of which only IRQ_EN takes effect (R22, R246). -/
def Engine.write (e : Engine) (v : Word) (r : Reg) : Engine :=
  if e.busy then (if r = .ctrl then e.writeCtrl v else e) else e.writeIdle v r

/-- A host write at an offset: a reserved offset ignores it (R42). -/
def Engine.writeAt (e : Engine) (v : Word) (offset : Nat) : Engine :=
  match regAt offset with
  | some r => e.write v r
  | none   => e

/-- The host observes the engine's completion, DONE = 1 (R79): what was lent to it returns to the host (R248, log entry 13). DESIGN CHOICE:
all regions lent to the engine return, those of earlier commands whose completion the host never observed included (log entries 28 and 30);
with DONE already cleared, reading BUSY = 0 observes nothing (R221, log entry 29). -/
def Engine.observed (e : Engine) : Engine :=
  if e.done then { e with lent := [] } else e

/-- What a host read at an offset changes: reading STATUS with DONE = 1 is the observation of R79; every other read changes nothing. -/
def Engine.afterRead (e : Engine) (offset : Nat) : Engine :=
  if regAt offset = some .status then e.observed else e

end Sys2Proof.Machine
end

