-- ==== Sys2Proof/Machine/Schedule.lean ====
section
/-! DEFINITION. What one step does: an input of the host or the platform is served, or, with none pending, a running command is
performed (R19, R81, R254, R257). Step.lean only calls it. -/

namespace Sys2Proof.Machine

/-- The moving engine performs the command in its CMD register: a word that is no command ends in its error (R94, R111, R114, R117), the
others run (R132). -/
def runEngine (s : State) : Host.Outcome State Fault Refusal :=
  match decode s.eng.cmd with
  | .ok i    => exec i s
  | .error e => .next (raiseErr (ErrRecord.ofCmdError e) s)

/-- With no input pending a running engine performs its command, the moving one before the others; when none runs nothing happens
(R232, R254, log entry 4). -/
def runPending (s : State) : Host.Outcome State Fault Refusal :=
  match focus Engine.busy s with
  | some s1 => runEngine s1
  | none    => .next s

/-- The command running on the engine at `base` reaches its completion; an idle engine does nothing (R232, R254). -/
def complete (base : Nat) (s : State) : Host.Outcome State Fault Refusal :=
  match focus (fun e => e.base == base) s with
  | none => .fault (.noRegisterBlock base)
  | some s1 => if s1.eng.busy then runEngine s1 else .next s1

/-- The engine whose register block holds a bus address made the moving one, and the offset in its block (R21, R23); an access that is
no aligned 32-bit word is refused (R21, U9). -/
def withBlock (addr width : Nat) (s : State) (k : Nat → State → State) : Host.Outcome State Fault Refusal :=
  match focus (fun e => inRange e.block addr) s with
  | none => .fault (.noRegisterBlock addr)
  | some s1 =>
    let off := addr - s1.eng.base
    if width = 4 ∧ addr % 4 = 0 then .next (k off s1)
    else .refused (.registerAccessForm addr width)

/-- A host write of word `v` at an offset of the moving engine's block (R21, R22, R110). -/
def hostWrite (v : Word) (off : Nat) (s : State) : State :=
  s.withEng (s.eng.writeAt v off)

/-- A host read at an offset of the moving engine's block: the word is returned, and reading STATUS with DONE = 1 observes the completion
(R21, R79). -/
def hostRead (off : Nat) (s : State) : State :=
  { s with eng := s.eng.afterRead off, replies := .word (s.eng.readAt off) :: s.replies }

/-- The completions that come before an unsuccessful poll of the moving engine is repeated, so that no poll keeps a command from completing
(R254): that of the engine's own command if it runs; if it is idle, and so can no longer change what the poll reads, those of every command
running on another engine (log entry 23). -/
def pollProgress (s : State) : List Input :=
  if s.eng.busy then [.complete s.eng.base]
  else (s.others.filter Engine.busy).map fun e => .complete e.base

/-- One read of a poll (R100): while the masked word differs from `value` the poll stays, behind the completions that must not wait for it
(R254, log entry 23). -/
def hostPoll (addr : Nat) (mask value : Word) (off : Nat) (s : State) : State :=
  if s.eng.readAt off &&& mask = value then hostRead off s
  else { hostRead off s with inputs := pollProgress s ++ .poll addr mask value :: s.inputs }

/-- Every engine's lent regions (R248). -/
def lentRegions (s : State) : List Region := (s.eng :: s.others).flatMap Engine.lent

/-- A host access of kind `k` to data memory byte `a`: it must exist, be no device, and be admitted (R60, R61, R72, log entry 15). -/
def hostAccess (a : Nat) (k : AccessKind) (s : State) (t : Host.Outcome State Fault Refusal) : Host.Outcome State Fault Refusal :=
  if addrSpace ≤ a then .fault (.noDataAddress a)
  else if (deviceRanges s).any (fun r => inRange r a) then .refused (.hostAccessToDevice a)
  else if !admits s.platform a k then .fault (.notAdmitted a)
  else t

/-- A host write of a byte: a byte lent to an engine is refused (R80, R248, U7). -/
def hostStore (a : Nat) (b : Byte) (s : State) : Host.Outcome State Fault Refusal :=
  hostAccess a .write s <|
    if (lentRegions s).any (fun r => r.holds a) then .refused (.hostWriteToLentByte a)
    else .next { s with mem := Memory.put s.mem a b }

/-- A host read of a byte: a byte of a lent OUT or SCR region reads as a FREE VALUE (R79, R80, R248, U6). -/
def hostLoad (a : Nat) (s : State) : Host.Outcome State Fault Refusal :=
  hostAccess a .read s <|
    if (lentRegions s).any (fun r => r.written && r.holds a) then
      .next { s with replies := .byte (Config.freeByte s.draws a) :: s.replies, draws := s.draws + 1 }
    else .next { s with replies := .byte (Memory.get s.mem a) :: s.replies }

/-- The moving engine after a reset: its registers as after reset (R240); a command in progress is abandoned and its OUT and SCR bytes
are unspecified, every other byte is unchanged (R241, R242). -/
def resetEngine (s : State) : State :=
  if s.eng.busy then
    { s with
      eng := Engine.reset s.eng.page
      mem := unspecify s.draws s.eng.regions s.mem
      draws := s.draws + 1 }
  else { s with eng := Engine.reset s.eng.page }

/-- One input served; `s` no longer holds it. A reset that abandons a command whose regions conflict with those of a command running
on another engine is refused as the completion of either would be (R82, R250, U8; log entry 12). -/
def serve (i : Input) (s : State) : Host.Outcome State Fault Refusal :=
  match i with
  | .regWrite addr width v => withBlock addr width s (hostWrite v)
  | .regRead addr width    => withBlock addr width s hostRead
  | .poll addr mask value  => withBlock addr 4 s (hostPoll addr mask value)
  | .memWrite a b          => hostStore a b s
  | .memRead a             => hostLoad a s
  | .takeIrq base =>
    match focus (fun e => e.base == base) s with
    | none    => .fault (.noRegisterBlock base)
    | some s1 => .next (if s1.eng.irq then s1.withEng s1.eng.observed else s1)
  | .reset base =>
    match focus (fun e => e.base == base) s with
    | none    => .fault (.noRegisterBlock base)
    | some s1 => if s1.eng.busy && conflictsRunning s1 s1.eng.regions then .refused .enginesConflict else .next (resetEngine s1)
  | .complete base => complete base s

/-- The machine takes its oldest input, or performs a running command when there is none. -/
def advance (s : State) : Host.Outcome State Fault Refusal :=
  match s.inputs with
  | []        => runPending s
  | i :: rest => serve i { s with inputs := rest }

/-- The state in which CMD word `w` has just been started on the moving engine, with no input pending: the very next step performs it
(R90, R110, log entry 2). -/
def startWord (s : State) (w : Word) : State :=
  { s with eng := Engine.start { s.eng with cmd := w }, inputs := [] }

end Sys2Proof.Machine
end

