-- ==== Sys2Proof/Machine/Step.lean ====
section
/-! DEFINITION. One step of the machine. -/

namespace Sys2Proof.Machine

/-- One step: the oldest input is served, or a running command is performed at its completion (R81, R254). -/
def step (s : State) : Host.Outcome State Fault Refusal := advance s

/-- `s` with the CMD word a table row's bits give (the bits above `nbits` 0) in the moving engine's CMD register and its START accepted,
so that the very next step performs it (R90, R110; log entry 2). -/
def State.withFetchWord (s : State) (nbits w : Nat) : State :=
  startWord s (BitVec.ofNat 32 (w % 2 ^ nbits))

end Sys2Proof.Machine
end

