-- ==== Sys2Proof/Machine/Assembly.lean ====
section
/-! DEFINITION. The host-side assembly (R100, R101) as statements and the inputs they stand for, on the engine whose block is at
`base`. The textual form (comments, number spellings) is not modelled (log entry 26). -/

namespace Sys2Proof.Machine

/-- A statement of the assembly (R100) or a pseudo-instruction (R101). -/
inductive Stmt where
  | wr (r : Reg) (v : Int)
  | rd (r : Reg)
  | poll (r : Reg) (mask value : Word)
  | memB (a : Nat) (l : List Int)
  | memH (a : Nat) (l : List Int)
  | memW (a : Nat) (l : List Int)
  | memD (a : Nat) (l : List Int)
  | cmd (i : Instr)
  | start
  | startIrq
  | wait
  | ack
  | invoke (i : Instr)
  | qt (a : Nat) (l : List (Int × Int))
deriving DecidableEq, Repr

/-- Host writes of `n`-byte values little-endian from `a` upward (R100). -/
def memInputs (n a : Nat) : List Int → List Input
  | [] => []
  | v :: l =>
    (cellsLE a n (BitVec.ofInt _ v)).map (fun c => Input.memWrite c.1 c.2) ++ memInputs n (a + n) l

/-- `wr REG, v`: one word write of `bits_32(v)` at ENGINE_BASE + offset(REG) (R100). -/
def wrInput (base : Nat) (r : Reg) (v : Word) : Input := .regWrite (base + r.offset) 4 v

/-- `poll STATUS.DONE == 1` (R101 `wait`). -/
def waitInput (base : Nat) : Input := .poll (base + Reg.status.offset) 2#32 2#32

/-- The inputs of a statement (R100, R101, R102). -/
def assemble (base : Nat) : Stmt → List Input
  | .wr r v       => [wrInput base r (BitVec.ofInt 32 v)]
  | .rd r         => [.regRead (base + r.offset) 4]
  | .poll r m v   => [.poll (base + r.offset) m v]
  | .memB a l     => memInputs 1 a l
  | .memH a l     => memInputs 2 a l
  | .memW a l     => memInputs 4 a l
  | .memD a l     => memInputs 8 a l
  | .cmd i        => [wrInput base .cmd (encode i)]
  | .start        => [wrInput base .ctrl 1#32]
  | .startIrq     => [wrInput base .ctrl 3#32]
  | .wait         => [waitInput base]
  | .ack          => [wrInput base .status 2#32]
  | .invoke i     => [wrInput base .cmd (encode i), wrInput base .ctrl 1#32, waitInput base]
  | .qt a l       => memInputs 4 a (l.flatMap fun x => [x.1, x.2])

/-- The inputs of a host program. -/
def assembleAll (base : Nat) (p : List Stmt) : List Input := p.flatMap (assemble base)

end Sys2Proof.Machine
end

