-- ==== Sys2Proof/Safety.lean ====
section
/-! DEFINITION. The terms claims are stated in: when each configuration check holds (R119 to R128), when a command executes normally (R111),
and the invariant of the machine (R26, R27, R28, R45, R248 and the canonical form of memory). -/

namespace Sys2Proof.Machine

/-- The form is an integer path of CONV or DWCONV (R129). -/
abbrev IntegerForm (f : Form) : Prop := f.op ≠ .unpack4 ∧ f.inType ≠ .float32

/-- When configuration check `c` holds for a command of form `f` with operands `o`: the condition of its rule on the paths R119 marks for
it. SHIFT_RANGE is no check of phase 3. -/
abbrev CheckHolds (f : Form) (o : Operands) (c : ConfigCause) : Prop :=
  match c with
  | .paramRange =>
    f.op ≠ .unpack4 ∧ (o.SH = 0 ∨ o.SW = 0 ∨ o.DH = 0 ∨ o.DW = 0 ∨ o.KH = 0 ∨ o.KW = 0 ∨ (f.op = .dwconv ∧ o.DM = 0))
  | .depthMismatch => f.op = .dwconv ∧ o.OC ≠ o.IC * o.DM
  | .qtabLen => IntegerForm f ∧ o.qtabLen ≠ o.OC
  | .scratchMissing => f.fltType = .int4p ∧ o.scratchLen = 0
  | .scratchSmall => f.fltType = .int4p ∧ o.scratchLen < eFlt f.op o
  | .zpRange =>
    IntegerForm f ∧
      ¬ (tagMin f.inType ≤ o.inZp ∧ o.inZp ≤ tagMax f.inType ∧ tagMin f.outType ≤ o.outZp ∧ o.outZp ≤ tagMax f.outType)
  | .actRange => IntegerForm f ∧ o.actMin > o.actMax
  | .regionRange => ∃ r ∈ regions f o, r.base + r.len > 2 ^ 32
  | .regionOverlap =>
    ∃ r ∈ regions f o, ∃ t ∈ regions f o, (r.name = .out ∨ r.name = .scr) ∧ t.name ≠ r.name ∧
      0 < r.len ∧ 0 < t.len ∧ r.base < t.base + t.len ∧ t.base < r.base + r.len
  | .shiftRange => False

/-- The causes of phase 3 in the order of R119. -/
def checkOrder : List ConfigCause :=
  [.paramRange, .depthMismatch, .qtabLen, .scratchMissing, .scratchSmall, .zpRange, .actRange, .regionRange, .regionOverlap]

/-- No configuration check holds. -/
abbrev NoCheckHolds (f : Form) (o : Operands) : Prop := ∀ c ∈ checkOrder, ¬ CheckHolds f o c

/-- No active region of a command of form `f` covers a device (R61, R75). -/
abbrev NoDevice (f : Form) (s : State) : Prop :=
  ∀ r ∈ regions f s.operands, ∀ d ∈ deviceRanges s, overlap r.base r.len d.base d.len = false

/-- No command running on another engine conflicts with a command of form `f` (R82, R250). -/
abbrev NoConflict (f : Form) (s : State) : Prop :=
  ∀ e ∈ s.others, e.phase = .run → ∀ r ∈ regions f s.operands, ∀ t ∈ e.regions,
    (r.written = true ∨ t.written = true) → r.overlaps t = false

/-- The host keeps the two duties whose breach a model refuses (R75, R82). -/
abbrev DutiesKept (f : Form) (s : State) : Prop := NoDevice f s ∧ NoConflict f s

/-- Entry `c` of the quantization table passes phase 4 (R129). -/
abbrev EntryGood (s : State) (c : Nat) : Prop :=
  (∀ i < 8, admits s.platform (addrQtab s.operands c + i) .read = true) ∧
    -31 ≤ shift s.mem s.operands c ∧ shift s.mem s.operands c ≤ 31

/-- Every entry of the table of an integer path passes phase 4 (R129). -/
abbrev TableGood (f : Form) (s : State) : Prop := IntegerForm f → ∀ c < s.operands.OC, EntryGood s c

/-- Every access of phase 5 is admitted (R72, R130). -/
abbrev AllAdmitted (f : Form) (s : State) : Prop :=
  ∀ r ∈ regions f s.operands, r.name ≠ .qtab → ∀ i < r.len, ∀ k ∈ r.access, admits s.platform (r.base + i) k = true

/-- A command of form `f` passes phases 3 and 4 and the bus-error check of phase 5: it executes normally (R111, R132). -/
abbrev Accepted (f : Form) (s : State) : Prop :=
  NoCheckHolds f s.operands ∧ DutiesKept f s ∧ TableGood f s ∧ AllAdmitted f s

/-- The address lies in no OUT or SCR region of a command of form `f`. -/
abbrev OutsideWritten (f : Form) (o : Operands) (a : Nat) : Prop :=
  ∀ r ∈ regions f o, r.written = true → ¬ (r.base ≤ a ∧ a < r.base + r.len)

/-- The end of a command with an error, spelled out field by field: ERR_CODE `code`, ERR_INFO `info`, ERR_ADDR `addr`, ERR and DONE 1, the
engine idle, nothing else changed (R113). -/
abbrev failed (s : State) (code : ErrCode) (info addr : Word) : State :=
  { s with eng := { s.eng with errInfo := info, errAddr := addr, errCode := code, err := true, done := true, phase := .idle } }

/-- The end of a command with success and memory `m`, spelled out field by field: DONE 1, ERR and ERR_CODE 0, the engine idle, nothing else
changed (R112). -/
abbrev succeeded (s : State) (m : Memory) : State :=
  { s with eng := { s.eng with done := true, err := false, errCode := .none, phase := .idle }, mem := m }

/-- The invariant of one engine: while it runs, the results are cleared as START left them (R110) and its regions are lent (R248); ERR is 1
exactly when ERR_CODE is not 0 (R26); after a success ERR_INFO and ERR_ADDR are 0 (R112, R212). -/
abbrev Engine.Inv (e : Engine) : Prop :=
  (e.phase = .run → e.done = false ∧ e.err = false ∧ e.errCode = .none ∧ ∀ r ∈ e.regions, r ∈ e.lent) ∧
  (e.err = true ↔ e.errCode ≠ .none) ∧
  (e.errCode = .none → e.errInfo = 0#32 ∧ e.errAddr = 0#32)

/-- The invariant of the machine's engines. -/
abbrev State.EnginesInv (s : State) : Prop := s.eng.Inv ∧ ∀ e ∈ s.others, e.Inv

/-- A safe step: it ends in a next state, or the spec itself tells a model to refuse; it is no fault. -/
def SafeOutcome (r : Host.Outcome State Fault Refusal) : Prop :=
  match r with
  | .next _    => True
  | .refused _ => True
  | .fault _   => False

end Sys2Proof.Machine
end

