-- ==== Sys2Proof/Certificates/Slice0/Obligations.lean ====
section
/-! DEFINITION. The statements for the provers, from the numbered rules of spec/: encoding, the register block, the ends of a command, the
unpacker, the sums, requantization, the commands' results and frames, the host's duties, and the machine's invariants. -/

open Sys2Proof Sys2Proof.Machine

/-! ## Encoding (30_encoding.md, 40_dispatch.md) -/

/-- R102: a CMD word decodes to a command exactly when the opcode map lists the pair; every other word is no command. -/
def Obligations.OpcodeMapExact : Prop :=
  ∀ (w : Word) (i : Instr), decode w = .ok i ↔
    (i, w) ∈ ([ (.convF32, 0x00111101#32), (.convF32Nb, 0x00101101#32), (.convI8, 0x00252201#32), (.convI8Nb, 0x00202201#32),
      (.convI8w4, 0x00254201#32), (.convI8w4Nb, 0x00204201#32), (.convI16, 0x00352301#32), (.convI16Nb, 0x00302301#32),
      (.convI16b64, 0x00362301#32), (.dwconvF32, 0x00111102#32), (.dwconvF32Nb, 0x00101102#32), (.dwconvI8, 0x00252202#32),
      (.dwconvI8Nb, 0x00202202#32), (.dwconvI8w4, 0x00254202#32), (.dwconvI8w4Nb, 0x00204202#32), (.dwconvI16, 0x00352302#32),
      (.dwconvI16Nb, 0x00302302#32), (.dwconvI16b64, 0x00362302#32), (.unpack4, 0x00004003#32) ] : List (Instr × Word))

/-- Words written out from R91 to R93 and R102, one of each path and operation, decode to the command they stand for. -/
def Obligations.SpecWordsDecode : Prop :=
  decode 0x00111101#32 = .ok .convF32 ∧ decode 0x00202201#32 = .ok .convI8Nb ∧ decode 0x00254202#32 = .ok .dwconvI8w4 ∧
  decode 0x00302302#32 = .ok .dwconvI16Nb ∧ decode 0x00362301#32 = .ok .convI16b64 ∧ decode 0x00004003#32 = .ok .unpack4

/-- Decoding the CMD word of a well-formed command gives the command back. -/
def Obligations.DecodeOfEncode : Prop :=
  ∀ i : Instr, i.wellFormed = true ∧ decode (encode i) = .ok i

/-- R213: a running CMD word with a reserved OP ends in ILLEGAL_COMMAND sub-cause 1, one with a defined OP and a reserved bit set in
sub-cause 2, whatever the tags; nothing but STATUS, ERR_INFO and ERR_ADDR changes. -/
def Obligations.ReservedEncodingsIllegal : Prop :=
  ∀ s : State, s.inputs = [] → s.eng.phase = .run →
    ((s.eng.cmd.extractLsb' 0 4 = 0#4 ∨ 4 ≤ (s.eng.cmd.extractLsb' 0 4).toNat) →
      step s = .next (failed s .illegalCommand 1#32 0#32)) ∧
    ((s.eng.cmd.extractLsb' 0 4 = 1#4 ∨ s.eng.cmd.extractLsb' 0 4 = 2#4 ∨ s.eng.cmd.extractLsb' 0 4 = 3#4) →
      (s.eng.cmd.extractLsb' 4 4 ≠ 0#4 ∨ s.eng.cmd.extractLsb' 24 8 ≠ 0#8) →
      step s = .next (failed s .illegalCommand 2#32 0#32))

/-- R214: with the reserved fields clear, an unsupported tag pattern ends the command with UNSUPPORTED_TYPE_COMBINATION naming the first
failing tensor in the order input, output, filter, bias, and its tag (ERR_INFO is TAG * 4096 + TENSOR * 256); no memory changes. -/
def Obligations.UnsupportedNamesFirstFailingTensor : Prop :=
  ∀ s : State, s.inputs = [] → s.eng.phase = .run →
    s.eng.cmd.extractLsb' 4 4 = 0#4 → s.eng.cmd.extractLsb' 24 8 = 0#8 →
    ∀ it ft bt ot : BitVec 4, it = s.eng.cmd.extractLsb' 8 4 → ft = s.eng.cmd.extractLsb' 12 4 →
      bt = s.eng.cmd.extractLsb' 16 4 → ot = s.eng.cmd.extractLsb' 20 4 →
    ((s.eng.cmd.extractLsb' 0 4 = 1#4 ∨ s.eng.cmd.extractLsb' 0 4 = 2#4) →
      (¬ (it = 1#4 ∨ it = 2#4 ∨ it = 3#4) →
        step s = .next (failed s .unsupportedType (BitVec.ofNat 32 (it.toNat * 4096 + 256)) 0#32)) ∧
      ((it = 1#4 ∨ it = 2#4 ∨ it = 3#4) → ot ≠ it →
        step s = .next (failed s .unsupportedType (BitVec.ofNat 32 (ot.toNat * 4096 + 1024)) 0#32)) ∧
      ((it = 1#4 ∨ it = 2#4 ∨ it = 3#4) → ot = it →
        ¬ ((it = 1#4 ∧ ft = 1#4) ∨ (it = 2#4 ∧ (ft = 2#4 ∨ ft = 4#4)) ∨ (it = 3#4 ∧ ft = 2#4)) →
        step s = .next (failed s .unsupportedType (BitVec.ofNat 32 (ft.toNat * 4096 + 512)) 0#32)) ∧
      (ot = it → ((it = 1#4 ∧ ft = 1#4) ∨ (it = 2#4 ∧ (ft = 2#4 ∨ ft = 4#4)) ∨ (it = 3#4 ∧ ft = 2#4)) →
        ¬ (bt = 0#4 ∨ (it = 1#4 ∧ bt = 1#4) ∨ (it = 2#4 ∧ bt = 5#4) ∨ (it = 3#4 ∧ (bt = 5#4 ∨ bt = 6#4))) →
        step s = .next (failed s .unsupportedType (BitVec.ofNat 32 (bt.toNat * 4096 + 768)) 0#32))) ∧
    (s.eng.cmd.extractLsb' 0 4 = 3#4 →
      (it ≠ 0#4 → step s = .next (failed s .unsupportedType (BitVec.ofNat 32 (it.toNat * 4096 + 256)) 0#32)) ∧
      (it = 0#4 → ot ≠ 0#4 →
        step s = .next (failed s .unsupportedType (BitVec.ofNat 32 (ot.toNat * 4096 + 1024)) 0#32)) ∧
      (it = 0#4 → ot = 0#4 → ft ≠ 4#4 →
        step s = .next (failed s .unsupportedType (BitVec.ofNat 32 (ft.toNat * 4096 + 512)) 0#32)) ∧
      (it = 0#4 → ot = 0#4 → ft = 4#4 → bt ≠ 0#4 →
        step s = .next (failed s .unsupportedType (BitVec.ofNat 32 (bt.toNat * 4096 + 768)) 0#32)))

/-! ## The step (40_dispatch.md, 60_exceptions.md) -/

/-- A running command is performed as one step at its completion (R19, R81): when the CMD word of the running engine decodes to `i`, a step
with no input pending, and a step whose oldest input is that engine's completion, is `exec i` at that state, the input consumed. When the
completion happens is the model's choice (log entry 4): the spec leaves it open. -/
def Obligations.StepRunsDecodedCommand : Prop :=
  ∀ (s : State) (i : Instr), s.eng.phase = .run → decode s.eng.cmd = .ok i →
    (s.inputs = [] → step s = exec i s) ∧
    (∀ rest, s.inputs = .complete s.eng.base :: rest → step s = exec i { s with inputs := rest })

/-- A CMD word placed by `withFetchWord` is what the very next step performs. -/
def Obligations.PlacedCommandRunsNext : Prop :=
  ∀ (s : State) (w : Word) (i : Instr), decode w = .ok i →
    step (s.withFetchWord 32 w.toNat) = exec i (s.withFetchWord 32 w.toNat)

/-- R232: with no input and every engine idle a step changes nothing. -/
def Obligations.IdleMachineWaits : Prop :=
  ∀ s : State, s.inputs = [] → s.eng.phase = .idle → (∀ e ∈ s.others, e.phase = .idle) → step s = .next s

/-- R230: choosing the engine that moves only exchanges engines; no register of any engine, no byte of memory and nothing else changes,
and the choice succeeds whenever some engine qualifies. -/
def Obligations.FocusOnlyExchangesEngines : Prop :=
  ∀ (p : Engine → Bool) (s : State),
    ((∃ e ∈ s.eng :: s.others, p e = true) → ∃ t, focus p s = some t) ∧
    (∀ t, focus p s = some t →
      p t.eng = true ∧ (t.eng :: t.others).Perm (s.eng :: s.others) ∧
      t = { s with eng := t.eng, others := t.others })

/-! ## The register block (10_state.md, 70_reset_and_hazards.md) -/

/-- R50: what the registers of `State.reset` read, the phase and the interrupt. -/
def Obligations.ResetRegisterValues : Prop :=
  (∀ r : Reg, State.reset.eng.read r = if r = .id then 0x51434E56#32 else if r = .version then 1#32 else 0#32) ∧
  State.reset.eng.phase = .idle ∧ State.reset.eng.irq = false

/-- R240, R242: a reset of an engine, whatever its state, gives every register its reset value, makes it idle and deasserts IRQ; data memory
is unchanged, but for the OUT and SCR regions of a command in progress. A command in progress whose regions conflict with those of a
command running on another engine is the host's breach of R82, and the reset is refused (log entry 12). -/
def Obligations.ResetInputResetsEngine : Prop :=
  ∀ (s : State) (rest : List Input), s.inputs = .reset s.eng.base :: rest →
    ((s.eng.phase = .idle ∨ ∀ e ∈ s.others, e.phase = .run → ∀ r ∈ s.eng.regions, ∀ t ∈ e.regions,
        (r.written = true ∨ t.written = true) → r.overlaps t = false) →
      ∃ t, step s = .next t ∧
        (∀ r : Reg, t.eng.read r = if r = .id then 0x51434E56#32 else if r = .version then 1#32 else 0#32) ∧
        t.eng.phase = .idle ∧ t.eng.irq = false ∧ t.eng.base = s.eng.base ∧ t.others = s.others ∧ t.inputs = rest ∧
        (s.eng.phase = .idle → t.mem = s.mem) ∧
        (∀ a, (∀ r ∈ s.eng.regions, r.written = true → ¬ (r.base ≤ a ∧ a < r.base + r.len)) →
          Memory.get t.mem a = Memory.get s.mem a)) ∧
    ((s.eng.phase = .run ∧ ∃ e ∈ s.others, e.phase = .run ∧ ∃ r ∈ s.eng.regions, ∃ t ∈ e.regions,
        (r.written = true ∨ t.written = true) ∧ r.overlaps t = true) →
      step s = .refused .enginesConflict)

/-- R243: a START accepted right after reset runs the command CMD = 0, which ends at once with ILLEGAL_COMMAND sub-cause 1. -/
def Obligations.StartAfterResetIsIllegal : Prop :=
  ∀ (s : State) (v : Word), s.eng = Engine.reset s.eng.page → v.getLsbD 0 = true →
    s.inputs = [.regWrite (s.eng.base + 0x08) 4 v] →
    ∃ t u, step s = .next t ∧ t.eng.phase = .run ∧ step t = .next u ∧ u.eng.phase = .idle ∧ u.eng.done = true ∧ u.eng.err = true ∧
      u.eng.errCode = .illegalCommand ∧ u.eng.errInfo = 1#32 ∧ u.eng.errAddr = 0#32 ∧ u.mem = s.mem

/-- R42, R24: a host word write to a block is `writeAt` of its offset on that engine. Reserved offsets read 0 and ignore writes; ID and VERSION
read their constants in every state, and a write to them, to ERR_INFO or to ERR_ADDR changes nothing; CTRL reads back IRQ_EN alone; a written
16-bit register keeps only bits 15:0; CMD and the 32-bit descriptor registers keep all bits; the reserved bits of CTRL and STATUS read 0; no
other register changes. -/
def Obligations.RegisterReadBack : Prop :=
  (∀ (s : State) (off : Nat) (v : Word) (rest : List Input), off < 256 → off % 4 = 0 →
    s.inputs = .regWrite (s.eng.base + off) 4 v :: rest →
    step s = .next { s with eng := s.eng.writeAt v off, inputs := rest }) ∧
  (∀ e : Engine, e.readAt 0x00 = 0x51434E56#32 ∧ e.readAt 0x04 = 0x00000001#32) ∧
  (∀ (e : Engine) (v : Word) (r : Reg), r ∈ [Reg.id, .version, .errInfo, .errAddr] → e.writeAt v r.offset = e) ∧
  (∀ (e : Engine) (v : Word), (e.writeAt v 0x08).readAt 0x08 = v &&& 0x00000002#32) ∧
  (∀ (e : Engine) (v : Word) (off : Nat), (off = 0x1C ∨ (0x90 ≤ off ∧ off ≤ 0xFC)) → e.readAt off = 0#32 ∧ e.writeAt v off = e) ∧
  (∀ e : Engine, e.ctrlWord &&& 0xFFFFFFFD#32 = 0#32 ∧ e.statusWord &&& 0xFFFFF0F8#32 = 0#32) ∧
  (∀ (e : Engine) (v : Word) (r : Reg), e.phase = .idle → 0x18 ≤ r.offset →
    (e.writeAt v r.offset).readAt r.offset =
      (if 0x20 ≤ r.offset ∧ r.offset ≤ 0x5C then v &&& 0x0000FFFF#32 else v) ∧
    ∀ r' : Reg, r' ≠ r → (e.writeAt v r.offset).readAt r'.offset = e.readAt r'.offset)

/-- R246, R22: while BUSY a host write to any register but CTRL changes nothing and is not queued, and of a CTRL write only IRQ_EN takes
effect, so a START is ignored. A read is served whether the engine runs or is idle: it returns the register and changes nothing (of the
model's own field `lent` nothing is said here). -/
def Obligations.BusyWritesIgnored : Prop :=
  ∀ (s : State) (off : Nat) (rest : List Input), off < 256 → off % 4 = 0 →
    (s.eng.phase = .run → ∀ v : Word, s.inputs = .regWrite (s.eng.base + off) 4 v :: rest →
      step s = .next (if off = 0x08 then { s with eng := { s.eng with irqEn := v.getLsbD 1 }, inputs := rest }
        else { s with inputs := rest })) ∧
    (s.inputs = .regRead (s.eng.base + off) 4 :: rest → ∃ t, step s = .next t ∧
      t = { s with
        eng := { s.eng with lent := t.eng.lent }, replies := .word (s.eng.readAt off) :: s.replies, inputs := rest })

/-- R110: a host write of `v` to CTRL sets IRQ_EN to bit 1; with bit 0 set and the engine idle it clears DONE, ERR, ERR_CODE, ERR_INFO and
ERR_ADDR and the engine runs, the descriptor registers and CMD as they are; with bit 0 clear, or the engine running, nothing further. What
the model's own field `lent` becomes is left to the engines' invariant. -/
def Obligations.StartAccepted : Prop :=
  ∀ (s : State) (v : Word) (rest : List Input), s.inputs = .regWrite (s.eng.base + 0x08) 4 v :: rest → ∃ t, step s = .next t ∧
    t = { s with eng := t.eng, inputs := rest } ∧
    (v.getLsbD 0 = true → s.eng.phase = .idle →
      t.eng = { s.eng with
        irqEn := v.getLsbD 1, done := false, err := false, errCode := .none, errInfo := 0#32, errAddr := 0#32,
        phase := .run, lent := t.eng.lent }) ∧
    ((v.getLsbD 0 = false ∨ s.eng.phase = .run) → t.eng = { s.eng with irqEn := v.getLsbD 1 })

/-- R26, R224: a host write to STATUS of an idle engine clears DONE where bit 1 is 1 and changes nothing else: ERR, ERR_CODE, ERR_INFO and
ERR_ADDR stay. -/
def Obligations.AcknowledgeClearsOnlyDone : Prop :=
  ∀ (s : State) (v : Word) (rest : List Input), s.eng.phase = .idle →
    s.inputs = .regWrite (s.eng.base + 0x0C) 4 v :: rest →
    step s = .next { s with eng := { s.eng with done := s.eng.done && !v.getLsbD 1 }, inputs := rest }

/-- R26: the fields of the STATUS word. -/
def Obligations.StatusWordFields : Prop :=
  ∀ e : Engine, (e.statusWord.getLsbD 0 = true ↔ e.phase = .run) ∧ e.statusWord.getLsbD 1 = e.done ∧
    e.statusWord.getLsbD 2 = e.err ∧ e.statusWord.extractLsb' 3 5 = 0#5 ∧ e.statusWord.extractLsb' 12 20 = 0#20 ∧
    e.statusWord.extractLsb' 8 4 =
      (match e.errCode with
        | .none => 0#4 | .illegalCommand => 1#4 | .unsupportedType => 2#4 | .configMismatch => 3#4 | .busError => 4#4)

/-- R43: IRQ equals DONE and IRQ_EN at every instant; a completion with IRQ_EN = 1 asserts it, that of a CMD word that is no command included,
and so does setting IRQ_EN while DONE = 1; clearing DONE or IRQ_EN, or a reset, deasserts it. -/
def Obligations.CompletionDrivesInterrupt : Prop :=
  (∀ e : Engine, e.irq = (e.statusWord.getLsbD 1 && e.ctrlWord.getLsbD 1)) ∧
  (∀ (i : Instr) (s t : State), exec i s = .next t → t.eng.irq = s.eng.irqEn) ∧
  (∀ s t : State, s.eng.phase = .run → (s.inputs = [] ∨ ∃ rest, s.inputs = .complete s.eng.base :: rest) → step s = .next t →
    t.eng.irq = s.eng.irqEn) ∧
  (∀ (e : Engine) (v : Word), e.done = true → v.getLsbD 1 = true → v.getLsbD 0 = false → (e.write v .ctrl).irq = true) ∧
  (∀ page : Nat, (Engine.reset page).irq = false) ∧
  (∀ (e : Engine) (v : Word), e.phase = .idle → v.getLsbD 1 = true → (e.write v .status).irq = false) ∧
  (∀ (e : Engine) (v : Word), v.getLsbD 1 = false → (e.write v .ctrl).irq = false)

/-- R21, U9: a host register access that is no aligned 32-bit word is refused. -/
def Obligations.BadRegisterAccessRefused : Prop :=
  ∀ (s : State) (addr width : Nat) (v : Word) (rest : List Input),
    s.eng.base ≤ addr → addr < s.eng.base + 256 → (width ≠ 4 ∨ addr % 4 ≠ 0) →
    (s.inputs = .regWrite addr width v :: rest ∨ s.inputs = .regRead addr width :: rest) →
    step s = .refused (.registerAccessForm addr width)

/-! ## The ends of a command (40_dispatch.md, 60_exceptions.md) -/

/-- R257: a command never writes outside its OUT and SCR regions and never writes a register other than STATUS, ERR_INFO and ERR_ADDR, of its
own engine; the other engines, the platform and the pending inputs are untouched. -/
def Obligations.CommandWritesOnlyResults : Prop :=
  ∀ (i : Instr) (s t : State), exec i s = .next t →
    t = { s with
      eng := { s.eng with
        phase := t.eng.phase, done := t.eng.done, err := t.eng.err, errCode := t.eng.errCode, errInfo := t.eng.errInfo,
        errAddr := t.eng.errAddr }
      mem := t.mem
      draws := t.draws } ∧
    ∀ a, OutsideWritten i.form s.operands a → Memory.get t.mem a = Memory.get s.mem a

/-- Every command completes: it ends in a next state with the engine idle and DONE set, unless the host broke one of the two duties whose
breach a model refuses (R75, R82); it never faults. -/
def Obligations.CommandAlwaysCompletes : Prop :=
  ∀ (i : Instr) (s : State),
    (DutiesKept i.form s → ∃ t, exec i s = .next t ∧ t.eng.phase = .idle ∧ t.eng.done = true) ∧
    SafeOutcome (exec i s)

/-- R119 to R128: the first configuration check that holds, in the order of R119, ends the command with CONFIG_MISMATCH and its place in that
order as the sub-cause; memory and everything else are unchanged. The premise `NoConflict` is R82's: with a conflicting command running on
another engine the results of both are unspecified (OverlappingEnginesRefused). -/
def Obligations.ConfigurationChecksInOrder : Prop :=
  ∀ (i : Instr) (s : State) (before after : List ConfigCause) (c : ConfigCause),
    [.paramRange, .depthMismatch, .qtabLen, .scratchMissing, .scratchSmall, .zpRange, .actRange, .regionRange, .regionOverlap]
      = before ++ c :: after →
    NoConflict i.form s → CheckHolds i.form s.operands c → (∀ b ∈ before, ¬ CheckHolds i.form s.operands b) →
    exec i s = .next (failed s .configMismatch (BitVec.ofNat 32 (before.length + 1)) 0#32)

/-- R129: on an integer path the first bad table entry `c` ends the command: its lowest unadmitted byte in BUS_ERROR sub-cause 1, else a shift
outside [-31, 31] in SHIFT_RANGE; CHANNEL is `c`, memory is unchanged. -/
def Obligations.TableCheckInChannelOrder : Prop :=
  ∀ (i : Instr) (s : State) (c : Nat), IntegerForm i.form → NoCheckHolds i.form s.operands → DutiesKept i.form s →
    c < s.operands.OC → (∀ c' < c, EntryGood s c') →
    (∀ j < 8, admits s.platform (s.operands.qtabAddr + 8 * c + j) .read = false →
      (∀ j' < j, admits s.platform (s.operands.qtabAddr + 8 * c + j') .read = true) →
      exec i s = .next (failed s .busError (BitVec.ofNat 32 (c * 65536 + 1))
        (BitVec.ofNat 32 (s.operands.qtabAddr + 8 * c + j)))) ∧
    ((∀ j < 8, admits s.platform (s.operands.qtabAddr + 8 * c + j) .read = true) →
      (shift s.mem s.operands c < -31 ∨ 31 < shift s.mem s.operands c) →
      exec i s = .next (failed s .configMismatch (BitVec.ofNat 32 (c * 65536 + 10))
        (BitVec.ofNat 32 (s.operands.qtabAddr + 8 * c + 4))))

/-- R130: when phases 3 and 4 pass and some access of an active region other than the table is not admitted, the command ends in BUS_ERROR
reporting one such access; all memory outside the OUT and SCR regions is unchanged. -/
def Obligations.ExecutionBusError : Prop :=
  ∀ (i : Instr) (s : State), NoCheckHolds i.form s.operands → DutiesKept i.form s → TableGood i.form s →
    ¬ AllAdmitted i.form s →
    ∃ r ∈ regions i.form s.operands, r.name ≠ .qtab ∧ ∃ j < r.len, ∃ k ∈ r.access, admits s.platform (r.base + j) k = false ∧
      ∃ t, exec i s = .next t ∧
        t.eng = (failed s .busError (if k = .read then 1#32 else 2#32) (BitVec.ofNat 32 (r.base + j))).eng ∧
        t.others = s.others ∧ t.platform = s.platform ∧ t.inputs = s.inputs ∧ t.replies = s.replies ∧
        ∀ a, OutsideWritten i.form s.operands a → Memory.get t.mem a = Memory.get s.mem a

/-- R131: a command that ends in phase 1 to 4 leaves data memory unchanged. -/
def Obligations.EarlyEndsLeaveMemory : Prop :=
  ∀ s t : State, s.inputs = [] → s.eng.phase = .run → step s = .next t →
    ((∃ e, decode s.eng.cmd = .error e) ∨
      (∃ i, decode s.eng.cmd = .ok i ∧ (¬ NoCheckHolds i.form s.operands ∨ ¬ TableGood i.form s))) →
    t.mem = s.mem ∧ t.eng.err = true

/-! ## The unpacker (41_unpacker.md) -/

/-- R140: the value of packed element `i`, from the low nibble of byte `i div 2` for an even `i` and the high nibble for an odd one, and the
byte that stands for it in the scratch buffer. -/
def Obligations.UnpackedElementValue : Prop :=
  ∀ (m : Memory) (b i v : Nat),
    v = (if i % 2 = 0 then (Memory.get m (b + i / 2)).toNat % 16 else (Memory.get m (b + i / 2)).toNat / 16) →
    unpackElem m b i = (if v < 8 then (v : Int) else (v : Int) - 16) ∧
    BitVec.ofInt 8 (unpackElem m b i) = BitVec.ofNat 8 (if v < 8 then v else v + 0xF0)

/-- R143: unpacking the two elements of a byte and re-packing them gives the byte back. -/
def Obligations.UnpackRoundTrip : Prop :=
  ∀ (m : Memory) (b k : Nat),
    BitVec.ofInt 4 (unpackElem m b (2 * k + 1)) ++ BitVec.ofInt 4 (unpackElem m b (2 * k)) = Memory.get m (b + k)

/-- R144: a packed filter of `E` elements occupies `ceil(E/2)` bytes, and with an odd count the high nibble of the last one is never used:
memories that agree on the other nibbles of the filter unpack alike. -/
def Obligations.OddHighNibbleIgnored : Prop :=
  (∀ (f : Form) (o : Operands), f.fltType = .int4p →
    2 * (fltRegion f o).len = eFlt f.op o ∨ 2 * (fltRegion f o).len = eFlt f.op o + 1) ∧
  ∀ (f : Form) (o : Operands) (m m' : Memory) (k : Nat), eFlt f.op o = 2 * k + 1 →
    (∀ j < k, Memory.get m (o.fltAddr + j) = Memory.get m' (o.fltAddr + j)) →
    (Memory.get m (o.fltAddr + k)).toNat % 16 = (Memory.get m' (o.fltAddr + k)).toNat % 16 →
    unpackCells f o m = unpackCells f o m'

/-- R142, R141, R87: UNPACK4 that executes normally succeeds, and the scratch bytes hold the unpacked elements; every byte outside
[SCRATCH_ADDR, SCRATCH_ADDR + E_flt) and everything but STATUS is unchanged. -/
def Obligations.UnpackFourCompletes : Prop :=
  ∀ s : State, Accepted Instr.unpack4.form s → ∃ m, exec .unpack4 s = .next (succeeded s m) ∧
    (∀ i < s.operands.OC * s.operands.KH * s.operands.KW * s.operands.IC,
      Memory.get m (s.operands.scratchAddr + i) = BitVec.ofInt 8 (unpackElem s.mem s.operands.fltAddr i)) ∧
    (∀ a, ¬ (s.operands.scratchAddr ≤ a ∧
        a < s.operands.scratchAddr + s.operands.OC * s.operands.KH * s.operands.KW * s.operands.IC) →
      Memory.get m a = Memory.get s.mem a)

/-! ## The sums (42_accumulation.md) -/

/-- R154: the accumulator of a CONV element. -/
def Obligations.StandardSum : Prop :=
  ∀ (f : Form) (o : Operands) (m : Memory) (n oy ox oc : Nat), f.op = .conv →
    accumulate f o m ⟨n, oy, ox, oc⟩ = wrap (if f.inType = .int16 then 64 else 32)
      ((∑ ky ∈ Finset.range o.KH, ∑ kx ∈ Finset.range o.KW, ∑ ic ∈ Finset.range o.IC,
        if 0 ≤ (oy : Int) * o.SH - o.PH + ky * o.DH ∧ (oy : Int) * o.SH - o.PH + ky * o.DH < o.IH ∧
            0 ≤ (ox : Int) * o.SW - o.PW + kx * o.DW ∧ (ox : Int) * o.SW - o.PW + kx * o.DW < o.IW then
          (readSigned m (addrIn f o n ((oy : Int) * o.SH - o.PH + ky * o.DH).toNat ((ox : Int) * o.SW - o.PW + kx * o.DW).toNat ic)
              (tagSize f.inType) - o.inZp) *
            readSigned m ((if f.fltType = .int4p then o.scratchAddr else o.fltAddr) + (((oc * o.KH + ky) * o.KW + kx) * o.IC + ic)) 1
        else 0) +
        (if f.biasType = .absent then 0 else readSigned m (o.biasAddr + oc * tagSize f.biasType) (tagSize f.biasType)))

/-- R155: the accumulator of a DWCONV element, which reads input channel `oc div DM` only. -/
def Obligations.DepthwiseSum : Prop :=
  ∀ (f : Form) (o : Operands) (m : Memory) (n oy ox oc : Nat), f.op = .dwconv →
    accumulate f o m ⟨n, oy, ox, oc⟩ = wrap (if f.inType = .int16 then 64 else 32)
      ((∑ ky ∈ Finset.range o.KH, ∑ kx ∈ Finset.range o.KW,
        if 0 ≤ (oy : Int) * o.SH - o.PH + ky * o.DH ∧ (oy : Int) * o.SH - o.PH + ky * o.DH < o.IH ∧
            0 ≤ (ox : Int) * o.SW - o.PW + kx * o.DW ∧ (ox : Int) * o.SW - o.PW + kx * o.DW < o.IW then
          (readSigned m (addrIn f o n ((oy : Int) * o.SH - o.PH + ky * o.DH).toNat ((ox : Int) * o.SW - o.PW + kx * o.DW).toNat (oc / o.DM))
              (tagSize f.inType) - o.inZp) *
            readSigned m ((if f.fltType = .int4p then o.scratchAddr else o.fltAddr) + ((ky * o.KW + kx) * o.OC + oc)) 1
        else 0) +
        (if f.biasType = .absent then 0 else readSigned m (o.biasAddr + oc * tagSize f.biasType) (tagSize f.biasType)))

/-- R165: a CONV with no input channel, or an element whose every tap is padding, has the bias (0 if absent) as its accumulator, and the
requantized bias as its output. -/
def Obligations.OnlyPaddingLeavesBias : Prop :=
  ∀ (i : Instr) (o : Operands) (qt m : Memory) (e : Elem) (b : Int), IntegerForm i.form →
    ((i.form.op = .conv ∧ o.IC = 0) ∨
      (∀ ky < o.KH, ∀ kx < o.KW, inBounds o (tapRow o e.oy ky) (tapCol o e.ox kx) = false)) →
    b = (if i.form.biasType = .absent then 0
      else readSigned m (o.biasAddr + e.oc * tagSize i.form.biasType) (tagSize i.form.biasType)) →
    accumulate i.form o m e = b ∧
    outputValue i.form o qt m e =
      requant b (multiplier qt o e.oc) (shift qt o e.oc) o.outZp o.actMin o.actMax i.form.outType

/-- R156: W is 64 for int16 input and 32 for int8 input; the accumulator is the W-bit wrap of the exact sum, and the sum itself when it
fits. -/
def Obligations.AccumulatorWidthAndWrap : Prop :=
  ∀ (f : Form) (o : Operands) (m : Memory) (e : Elem) (W : Nat), W = (if f.inType = .int16 then 64 else 32) →
    (-(2 ^ (W - 1) : Int) ≤ accumulate f o m e ∧ accumulate f o m e < 2 ^ (W - 1)) ∧
    (2 ^ W : Int) ∣ exactSum f o m e - accumulate f o m e ∧
    (|exactSum f o m e| ≤ 2 ^ (W - 1) - 1 → accumulate f o m e = exactSum f o m e)

/-- R153: an in-bounds tap contributes `(a - IN_ZP) * w`, `w` the filter byte as stored (of the scratch buffer where the filter is packed);
its bounds when IN_ZP lies in the input type's range. -/
def Obligations.ProductBounds : Prop :=
  ∀ (i : Instr) (o : Operands) (m : Memory) (t : Nat × Nat), IntegerForm i.form →
    product i.form o m t = (readSigned m t.1 (if i.form.inType = .int16 then 2 else 1) - o.inZp) *
      readSigned m ((if i.form.fltType = .int4p then o.scratchAddr else o.fltAddr) + t.2) 1 ∧
    (tagMin i.form.inType ≤ o.inZp → o.inZp ≤ tagMax i.form.inType →
    |product i.form o m t| ≤ if i.form.inType = .int16 then 8388480 else 32640)

/-- R163: whatever the order in which the products are added with W-bit wrapping additions, the bias after them, the result is the
accumulator. -/
def Obligations.TapOrderIndependent : Prop :=
  ∀ (f : Form) (o : Operands) (m : Memory) (e : Elem) (l : List Int),
    l.Perm ((terms f o e).map (product f o m)) →
    wrap (accWidth f) (l.foldl (fun acc x => wrap (accWidth f) (acc + x)) 0 + biasValue f o m e.oc) = accumulate f o m e

/-- R164: an integer output element depends only on the input elements at its in-bounds taps (of every input channel for CONV, of channel
`oc div DM` for DWCONV), the filter elements of channel `oc`, the bias and the table entry of channel `oc`, and the operands IN_ZP, OUT_ZP,
ACT_MIN and ACT_MAX, which the two runs share. -/
def Obligations.AccumulatorLocality : Prop :=
  ∀ (f : Form) (o : Operands) (qt qt' m m' : Memory) (e : Elem),
    (∀ ky < o.KH, ∀ kx < o.KW, inBounds o (tapRow o e.oy ky) (tapCol o e.ox kx) = true →
      ∀ c, (if f.op = .dwconv then c = e.oc / o.DM else c < o.IC) →
      readSigned m (addrIn f o e.n (tapRow o e.oy ky).toNat (tapCol o e.ox kx).toNat c) (tagSize f.inType) =
        readSigned m' (addrIn f o e.n (tapRow o e.oy ky).toNat (tapCol o e.ox kx).toNat c) (tagSize f.inType)) →
    (∀ ky < o.KH, ∀ kx < o.KW, ∀ ic, (if f.op = .dwconv then ic = 0 else ic < o.IC) →
      filterElem f o m (if f.op = .dwconv then filterDw o ky kx e.oc else filterStd o e.oc ky kx ic) =
        filterElem f o m' (if f.op = .dwconv then filterDw o ky kx e.oc else filterStd o e.oc ky kx ic)) →
    biasValue f o m e.oc = biasValue f o m' e.oc →
    multiplier qt o e.oc = multiplier qt' o e.oc → shift qt o e.oc = shift qt' o e.oc →
    accumulate f o m e = accumulate f o m' e ∧ outputValue f o qt m e = outputValue f o qt' m' e

/-- R160: the terms of a float element are the pairs of raw patterns at its in-bounds taps, in the loop order of R154 or R155. -/
def Obligations.FloatTermsInLoopOrder : Prop :=
  ∀ (i : Instr) (o : Operands) (m : Memory) (e : Elem), i ∈ [Instr.convF32, .convF32Nb, .dwconvF32, .dwconvF32Nb] →
    floatTerms i.form o m e =
      (List.range o.KH).flatMap fun ky => (List.range o.KW).flatMap fun kx =>
        if inBounds o (tapRow o e.oy ky) (tapCol o e.ox kx) then
          (if i.form.op = .conv then
            (List.range o.IC).map fun ic =>
              (memRead m (o.inAddr + (((e.n * o.IH + (tapRow o e.oy ky).toNat) * o.IW + (tapCol o e.ox kx).toNat) * o.IC + ic) * 4) 4,
               memRead m (o.fltAddr + (((e.oc * o.KH + ky) * o.KW + kx) * o.IC + ic) * 4) 4)
          else
            [(memRead m (o.inAddr + (((e.n * o.IH + (tapRow o e.oy ky).toNat) * o.IW + (tapCol o e.ox kx).toNat) * o.IC + e.oc / o.DM) * 4) 4,
              memRead m (o.fltAddr + ((ky * o.KW + kx) * o.OC + e.oc) * 4) 4)])
        else []

/-! ## Requantization (43_requantization.md) -/

/-- R172: `rhaz P r` is `P / 2^r` rounded to the nearest integer, a tie away from zero, and symmetric; `scaled` is one such rounding of the
exact product, by `31 - S` bits. -/
def Obligations.RoundsHalfAwayFromZero : Prop :=
  ∀ (P : Int) (r : Nat),
    2 * |rhaz P r * 2 ^ r - P| ≤ 2 ^ r ∧
    (2 * |rhaz P r * 2 ^ r - P| = 2 ^ r → |P| < |rhaz P r * 2 ^ r|) ∧
    rhaz (-P) r = -rhaz P r ∧
    ∀ (acc M S : Int), P = acc * M → (r : Int) = 31 - S → scaled acc M S = rhaz P r

/-- R180: `scaled` is the integer nearest to `acc * M * 2^(S - 31)`, a tie going to the integer of larger magnitude; S = 31 gives the product
itself, M = 2^30 with S = 0 half of the accumulator rounded half away from zero, and with S = 1 the accumulator. -/
def Obligations.ScalingLandmarks : Prop :=
  (∀ (acc M S : Int) (r : Nat), (r : Int) = 31 - S →
    2 * |scaled acc M S * 2 ^ r - acc * M| ≤ 2 ^ r ∧
    (2 * |scaled acc M S * 2 ^ r - acc * M| = 2 ^ r → |acc * M| < |scaled acc M S * 2 ^ r|)) ∧
  ∀ acc M : Int, scaled acc M 31 = acc * M ∧ scaled acc (2 ^ 30) 1 = acc ∧
    (0 ≤ acc → scaled acc (2 ^ 30) 0 = (acc + 1) / 2) ∧ (acc < 0 → scaled acc (2 ^ 30) 0 = -((1 - acc) / 2))

/-- R181: every requantized value lies in the output representation's range, for every accumulator, table entry, zero point and bounds. -/
def Obligations.RequantizedInRange : Prop :=
  ∀ acc M S zpo amin amax : Int,
    (-128 ≤ requant acc M S zpo amin amax .int8 ∧ requant acc M S zpo amin amax .int8 ≤ 127) ∧
    (-32768 ≤ requant acc M S zpo amin amax .int16 ∧ requant acc M S zpo amin amax .int16 ≤ 32767)

/-- R179: a zero multiplier scales to 0, a negative one to the opposite sign. -/
def Obligations.MultiplierSign : Prop :=
  ∀ acc M S : Int, (M = 0 → scaled acc M S = 0) ∧ (M < 0 → 0 ≤ acc → scaled acc M S ≤ 0) ∧ (M < 0 → acc ≤ 0 → 0 ≤ scaled acc M S)

/-- R183: with every filter element 0, or every input element read equal to IN_ZP, and the bias absent or 0, the output is OUT_ZP clamped to the
activation bounds and the output range, for any table entry. -/
def Obligations.DegenerateOutput : Prop :=
  ∀ (i : Instr) (o : Operands) (qt m : Memory) (e : Elem), IntegerForm i.form →
    ((∀ t ∈ terms i.form o e, filterElem i.form o m t.2 = 0) ∨
      (∀ t ∈ terms i.form o e, readSigned m t.1 (tagSize i.form.inType) = o.inZp)) →
    biasValue i.form o m e.oc = 0 →
    outputValue i.form o qt m e =
      min (max (min (max o.outZp o.actMin) o.actMax) (tagMin i.form.outType)) (tagMax i.form.outType)

/-! ## The commands (44_conv.md, 45_dwconv.md) -/

/-- R190, R200, R160, R161: a float convolution that executes normally succeeds; each output element is FLOAT_CONV of its terms and bias; no
byte outside the OUT region and nothing but STATUS changes. It holds for every FLOAT_CONV. -/
def Obligations.FloatConvolutionCompletes : Prop :=
  ∀ (i : Instr) (s : State), i ∈ [Instr.convF32, .convF32Nb, .dwconvF32, .dwconvF32Nb] → Accepted i.form s →
    ∃ m, exec i s = .next (succeeded s m) ∧
      (∀ n oy ox oc, n < s.operands.N → oy < s.operands.OH → ox < s.operands.OW → oc < s.operands.OC →
        memRead m (addrOut i.form s.operands n oy ox oc) 4 =
          Config.floatConv (floatTerms i.form s.operands s.mem ⟨n, oy, ox, oc⟩)
            (if i.form.biasType = .absent then none else some (memRead s.mem (s.operands.biasAddr + oc * 4) 4))) ∧
      (∀ a, ¬ (s.operands.outAddr ≤ a ∧ a < s.operands.outAddr + eOut s.operands * 4) → Memory.get m a = Memory.get s.mem a)

/-- R191, R193, R194, R162: a standard integer convolution with an int8 filter that executes normally succeeds; each output element reads back as
the requantization of its accumulator with its own channel's table entry; no byte outside the OUT region and nothing but STATUS
changes. -/
def Obligations.IntegerConvolutionCompletes : Prop :=
  ∀ (i : Instr) (s : State), i ∈ [Instr.convI8, .convI8Nb, .convI16, .convI16Nb, .convI16b64] → Accepted i.form s →
    ∃ m, exec i s = .next (succeeded s m) ∧
      (∀ n oy ox oc, n < s.operands.N → oy < s.operands.OH → ox < s.operands.OW → oc < s.operands.OC →
        readSigned m (addrOut i.form s.operands n oy ox oc) (tagSize i.form.outType) =
          requant (accumulate i.form s.operands s.mem ⟨n, oy, ox, oc⟩)
            (readSigned s.mem (s.operands.qtabAddr + 8 * oc) 4) (readSigned s.mem (s.operands.qtabAddr + 8 * oc + 4) 4)
            s.operands.outZp s.operands.actMin s.operands.actMax i.form.outType) ∧
      (∀ a, ¬ (s.operands.outAddr ≤ a ∧ a < s.operands.outAddr + eOut s.operands * tagSize i.form.outType) →
        Memory.get m a = Memory.get s.mem a)

/-- R201, R203, R204, R162: the same for the depthwise integer convolutions with an int8 filter. -/
def Obligations.IntegerDepthwiseCompletes : Prop :=
  ∀ (i : Instr) (s : State), i ∈ [Instr.dwconvI8, .dwconvI8Nb, .dwconvI16, .dwconvI16Nb, .dwconvI16b64] → Accepted i.form s →
    ∃ m, exec i s = .next (succeeded s m) ∧
      (∀ n oy ox oc, n < s.operands.N → oy < s.operands.OH → ox < s.operands.OW → oc < s.operands.OC →
        readSigned m (addrOut i.form s.operands n oy ox oc) (tagSize i.form.outType) =
          requant (accumulate i.form s.operands s.mem ⟨n, oy, ox, oc⟩)
            (readSigned s.mem (s.operands.qtabAddr + 8 * oc) 4) (readSigned s.mem (s.operands.qtabAddr + 8 * oc + 4) 4)
            s.operands.outZp s.operands.actMin s.operands.actMax i.form.outType) ∧
      (∀ a, ¬ (s.operands.outAddr ≤ a ∧ a < s.operands.outAddr + eOut s.operands * tagSize i.form.outType) →
        Memory.get m a = Memory.get s.mem a)

/-- R192, R202, R87, R158: a convolution with a packed filter that executes normally succeeds; its first E_flt scratch bytes hold the unpacked
filter; each output element is the requantization of the wrapped sum of its terms with the filter elements unpacked from FLT_ADDR; no byte
outside the OUT and SCR regions and nothing but STATUS changes. -/
def Obligations.PackedConvolutionCompletes : Prop :=
  ∀ (i : Instr) (s : State), i ∈ [Instr.convI8w4, .convI8w4Nb, .dwconvI8w4, .dwconvI8w4Nb] → Accepted i.form s →
    ∃ m, exec i s = .next (succeeded s m) ∧
      (∀ x < eFlt i.form.op s.operands,
        Memory.get m (s.operands.scratchAddr + x) = BitVec.ofInt 8 (unpackElem s.mem s.operands.fltAddr x)) ∧
      (∀ n oy ox oc, n < s.operands.N → oy < s.operands.OH → ox < s.operands.OW → oc < s.operands.OC →
        readSigned m (addrOut i.form s.operands n oy ox oc) 1 =
          requant (wrap 32 (((terms i.form s.operands ⟨n, oy, ox, oc⟩).map fun t =>
              (readSigned s.mem t.1 1 - s.operands.inZp) * unpackElem s.mem s.operands.fltAddr t.2).sum +
              biasValue i.form s.operands s.mem oc))
            (readSigned s.mem (s.operands.qtabAddr + 8 * oc) 4) (readSigned s.mem (s.operands.qtabAddr + 8 * oc + 4) 4)
            s.operands.outZp s.operands.actMin s.operands.actMax .int8) ∧
      (∀ a, ¬ (s.operands.outAddr ≤ a ∧ a < s.operands.outAddr + eOut s.operands) →
        ¬ (s.operands.scratchAddr ≤ a ∧ a < s.operands.scratchAddr + eFlt i.form.op s.operands) →
        Memory.get m a = Memory.get s.mem a)

/-- R205: depthwise with DM = 1, a 1x1 kernel, no padding, stride 1 and OH = IH, OW = IW is per-channel scaling. -/
def Obligations.PointwiseDepthwiseScales : Prop :=
  ∀ (i : Instr) (o : Operands) (qt m : Memory) (n h w c : Nat), IntegerForm i.form → i.form.op = .dwconv →
    o.DM = 1 → o.KH = 1 → o.KW = 1 → o.PH = 0 → o.PW = 0 → o.SH = 1 → o.SW = 1 → h < o.IH → w < o.IW →
    outputValue i.form o qt m ⟨n, h, w, c⟩ =
      requant (wrap (accWidth i.form)
          ((readSigned m (addrIn i.form o n h w c) (tagSize i.form.inType) - o.inZp) * filterElem i.form o m c +
            biasValue i.form o m c))
        (multiplier qt o c) (shift qt o c) o.outZp o.actMin o.actMax i.form.outType

/-- R134: a successful command run a second time from the memory it left, with no host write between, succeeds again and leaves the same
memory. -/
def Obligations.SuccessfulCommandIdempotent : Prop :=
  ∀ (i : Instr) (s : State), Accepted i.form s → ∃ m m', exec i s = .next (succeeded s m) ∧
    exec i { s with mem := m } = .next (succeeded { s with mem := m } m') ∧ ∀ a, Memory.get m' a = Memory.get m a

/-- R135: a command with no output element (UNPACK4: no filter element) that passes every check writes nothing, but for the unpacked scratch bytes
of a packed convolution, and succeeds; a packed one that passes has SCRATCH_LEN above 0. -/
def Obligations.EmptyWorkSucceeds : Prop :=
  ∀ (i : Instr) (s : State), Accepted i.form s → (if i = .unpack4 then eFlt .unpack4 s.operands = 0 else eOut s.operands = 0) →
    (i.form.fltType = .int4p → 0 < s.operands.scratchLen) ∧
    ∃ m, exec i s = .next (succeeded s m) ∧
      ∀ a, ¬ (i.form.fltType = .int4p ∧ s.operands.scratchAddr ≤ a ∧ a < s.operands.scratchAddr + eFlt i.form.op s.operands) →
        Memory.get m a = Memory.get s.mem a

/-- R133: two runs of a command from the same descriptor registers, data memory and platform, ERR_INFO and ERR_ADDR cleared as START leaves
them, end with the same error code and the same bytes outside OUT and SCR; unless an execution-phase bus error ends them, also with the
same ERR_INFO, ERR_ADDR and memory. -/
def Obligations.OutcomeIsDetermined : Prop :=
  ∀ (i : Instr) (s s' t t' : State), exec i s = .next t → exec i s' = .next t' →
    s.eng.desc = s'.eng.desc → s.mem = s'.mem → s.platform = s'.platform →
    s.eng.errInfo = 0#32 → s'.eng.errInfo = 0#32 → s.eng.errAddr = 0#32 → s'.eng.errAddr = 0#32 →
    t.eng.err = t'.eng.err ∧ t.eng.errCode = t'.eng.errCode ∧
    (∀ a, OutsideWritten i.form s.operands a → Memory.get t.mem a = Memory.get t'.mem a) ∧
    ((AllAdmitted i.form s ∨ ¬ NoCheckHolds i.form s.operands ∨ ¬ TableGood i.form s) →
      t.eng.errInfo = t'.eng.errInfo ∧ t.eng.errAddr = t'.eng.errAddr ∧ t.mem = t'.mem)

/-- A command does not depend on the registers the table of R44 marks as ignored by it: with those changed, it ends the same way and leaves them
as they are. -/
def Obligations.IgnoredRegistersDoNotMatter : Prop :=
  ∀ (i : Instr) (s t : State) (d : Descriptors), exec i s = .next t →
    (d.dimIC = s.eng.desc.dimIC ∧ d.dimOC = s.eng.desc.dimOC ∧ d.dimKH = s.eng.desc.dimKH ∧ d.dimKW = s.eng.desc.dimKW ∧
      d.fltAddr = s.eng.desc.fltAddr) →
    (i ≠ .unpack4 → d.dimN = s.eng.desc.dimN ∧ d.dimIH = s.eng.desc.dimIH ∧ d.dimIW = s.eng.desc.dimIW ∧
      d.dimOH = s.eng.desc.dimOH ∧ d.dimOW = s.eng.desc.dimOW ∧ d.strideH = s.eng.desc.strideH ∧ d.strideW = s.eng.desc.strideW ∧
      d.dilH = s.eng.desc.dilH ∧ d.dilW = s.eng.desc.dilW ∧ d.padH = s.eng.desc.padH ∧ d.padW = s.eng.desc.padW ∧
      d.inAddr = s.eng.desc.inAddr ∧ d.outAddr = s.eng.desc.outAddr) →
    (i.form.op = .dwconv → d.depthMult = s.eng.desc.depthMult) →
    (IntegerForm i.form → d.inZp = s.eng.desc.inZp ∧ d.outZp = s.eng.desc.outZp ∧ d.actMin = s.eng.desc.actMin ∧
      d.actMax = s.eng.desc.actMax ∧ d.qtabAddr = s.eng.desc.qtabAddr ∧ d.qtabLen = s.eng.desc.qtabLen) →
    (i.form.biasType ≠ .absent → d.biasAddr = s.eng.desc.biasAddr) →
    (i.form.fltType = .int4p → d.scratchAddr = s.eng.desc.scratchAddr ∧ d.scratchLen = s.eng.desc.scratchLen) →
    exec i { s with eng := { s.eng with desc := d } } = .next { t with eng := { t.eng with desc := d } }

/-- R182: changing only the table entries of other channels, the new shifts legal, leaves every output element of channel `oc` as it was (the
table overlapping no other region that is read). -/
def Obligations.PerChannelIndependence : Prop :=
  ∀ (i : Instr) (s s' : State) (oc : Nat), IntegerForm i.form → s' = { s with mem := s'.mem } →
    Accepted i.form s → Accepted i.form s' → oc < s.operands.OC →
    (∀ a, ¬ (s.operands.qtabAddr ≤ a ∧ a < s.operands.qtabAddr + 8 * s.operands.OC) → Memory.get s'.mem a = Memory.get s.mem a) →
    (∀ j < 8, Memory.get s'.mem (s.operands.qtabAddr + 8 * oc + j) = Memory.get s.mem (s.operands.qtabAddr + 8 * oc + j)) →
    (∀ r ∈ regions i.form s.operands, r.name = .inp ∨ r.name = .flt ∨ r.name = .bias →
      r.overlaps (qtabRegion s.operands) = false) →
    ∃ t t', exec i s = .next t ∧ exec i s' = .next t' ∧
      ∀ n oy ox, n < s.operands.N → oy < s.operands.OH → ox < s.operands.OW →
        readSigned t'.mem (addrOut i.form s.operands n oy ox oc) (tagSize i.form.outType) =
          readSigned t.mem (addrOut i.form s.operands n oy ox oc) (tagSize i.form.outType)

/-! ## Duties of the host (20_memory.md, 70_reset_and_hazards.md) -/

/-- R80, R248: a host write to a byte of a region lent to an engine is refused; a write of a byte that is not lent is done. A host read of a byte
outside every lent OUT and SCR region returns the byte; a read of a byte of one returns some byte, and nothing but the model's own reply and
draw counter changes. -/
def Obligations.HostAccessToLentBytes : Prop :=
  ∀ (s : State) (a : Nat) (b : Byte) (rest : List Input), a < 2 ^ 32 →
    (deviceRanges s).any (fun r => inRange r a) = false →
    (s.inputs = .memWrite a b :: rest → admits s.platform a .write = true →
      ((∃ e ∈ s.eng :: s.others, ∃ r ∈ e.lent, r.base ≤ a ∧ a < r.base + r.len) → step s = .refused (.hostWriteToLentByte a)) ∧
      ((∀ e ∈ s.eng :: s.others, ∀ r ∈ e.lent, ¬ (r.base ≤ a ∧ a < r.base + r.len)) →
        step s = .next { s with mem := Memory.put s.mem a b, inputs := rest })) ∧
    (s.inputs = .memRead a :: rest → admits s.platform a .read = true →
      ((∀ e ∈ s.eng :: s.others, ∀ r ∈ e.lent, r.written = true → ¬ (r.base ≤ a ∧ a < r.base + r.len)) →
        step s = .next { s with replies := .byte (Memory.get s.mem a) :: s.replies, inputs := rest }) ∧
      ((∃ e ∈ s.eng :: s.others, ∃ r ∈ e.lent, r.written = true ∧ r.base ≤ a ∧ a < r.base + r.len) →
        ∃ t x, step s = .next t ∧ t = { s with replies := .byte x :: s.replies, draws := t.draws, inputs := rest }))

/-- R82, R250: a command whose OUT or SCR region overlaps an active region of a command running on another engine, or the other way round, is
refused, whatever it would end with: also one that would fail a configuration check. -/
def Obligations.OverlappingEnginesRefused : Prop :=
  ∀ (i : Instr) (s : State) (e : Engine) (r t : Region),
    e ∈ s.others → e.phase = .run → r ∈ regions i.form s.operands → t ∈ e.regions →
    (r.written = true ∨ t.written = true) → r.overlaps t = true →
    exec i s = .refused .enginesConflict

/-- R75, R61: a command that passes phase 3 and conflicts with no other engine's, and whose active region covers a byte where the platform places
a device, an engine's register block included, is refused. -/
def Obligations.RegionOverDeviceRefused : Prop :=
  ∀ (i : Instr) (s : State) (r : Region) (d : Range) (a : Nat), NoCheckHolds i.form s.operands → NoConflict i.form s →
    r ∈ regions i.form s.operands → (d ∈ s.platform.devices ∨ ∃ e ∈ s.eng :: s.others, d = ⟨e.base, 256⟩) →
    r.base ≤ a → a < r.base + r.len → d.base ≤ a → a < d.base + d.len →
    exec i s = .refused .regionOverDevice

/-! ## Memory and the invariants -/

/-- R75: a byte reads as last written, and a write leaves every other byte alone. -/
def Obligations.ByteReadsAsLastWritten : Prop :=
  ∀ (m : Memory) (a a' : Nat) (b : Byte), Memory.get (Memory.put m a b) a' = if a' = a then b else Memory.get m a'

/-- R62: a multi-byte read is the sum of its bytes, the one at the lowest address least significant; a write stores bits 8i+7:8i at address
`a + i`, so that the value reads back, and changes no other byte. -/
def Obligations.LittleEndianReadBack : Prop :=
  ∀ (m : Memory) (a n : Nat) (v : BitVec (8 * n)),
    (memRead m a n).toNat = ∑ i ∈ Finset.range n, (Memory.get m (a + i)).toNat * 2 ^ (8 * i) ∧
    memRead (memWrite m a n v) a n = v ∧
    (∀ i < n, Memory.get (memWrite m a n v) (a + i) = v.extractLsb' (8 * i) 8) ∧
    (∀ a', ¬ (a ≤ a' ∧ a' < a + n) → Memory.get (memWrite m a n v) a' = Memory.get m a')

/-- Every step keeps the engines' invariant: a running engine has DONE, ERR and ERR_CODE clear; ERR is 1 exactly when ERR_CODE is not 0; after
a success ERR_INFO and ERR_ADDR are 0 (R26, R110, R112, R212). A running engine's active regions are lent: that clause is about the model's
own field `lent`, its reading of the window of R248 (log entry 13). -/
def Obligations.StepKeepsEnginesInv : Prop :=
  ∀ s t : State, s.EnginesInv → step s = .next t → t.EnginesInv

/-- Every step keeps data memory in canonical form and inside the address space (R60, R70). -/
def Obligations.StepKeepsMemoryCanonical : Prop :=
  ∀ s t : State, Memory.wf s.mem → step s = .next t → Memory.wf t.mem

/-- The state after reset meets both invariants. -/
def Obligations.ResetMeetsInvariants : Prop :=
  State.reset.EnginesInv ∧ Memory.wf State.reset.mem
end

