-- ==== Sys2Proof/Laws/Memory.lean ====
section
/-! SUPPORT. Laws of data memory: a read after a write, writes of many bytes, little-endian reads, and the canonical form. None needs the
canonical form as a hypothesis except the ones that state it. -/

namespace Sys2Proof.Machine

@[simp] theorem Memory.get_nil (a : Nat) : Memory.get [] a = unlisted := rfl

theorem Memory.get_cons (c : Host.Cell) (m : Memory) (a : Nat) :
    Memory.get (c :: m) a = if c.1 = a then c.2 else Memory.get m a := rfl

theorem Memory.get_filter (m : Memory) (a b : Nat) :
    Memory.get (m.filter (fun c => c.1 != a)) b = if b = a then unlisted else Memory.get m b := by
  induction m with
  | nil => simp
  | cons c m ih =>
    by_cases hc : c.1 = a
    · simp only [List.filter_cons, hc, bne_self_eq_false, Bool.false_eq_true, if_false, ih]
      by_cases hb : b = a
      · simp [hb]
      · simp [hb, Memory.get_cons, hc, Ne.symm hb]
    · have : (c.1 != a) = true := by simpa using hc
      simp only [List.filter_cons, this, if_true, Memory.get_cons, ih]
      by_cases hb : b = a
      · simp [hb, hc]
      · simp [hb]

theorem Memory.get_insert (m : Memory) (x : Host.Cell) (a : Nat) (h : ∀ c ∈ m, c.1 ≠ x.1) :
    Memory.get (Memory.insert m x) a = if x.1 = a then x.2 else Memory.get m a := by
  induction m with
  | nil => rfl
  | cons c m ih =>
    simp only [Memory.insert]
    split
    · rfl
    · rw [Memory.get_cons, ih fun d hd => h d (List.mem_cons_of_mem _ hd), Memory.get_cons]
      by_cases hc : c.1 = a
      · have := h c (List.mem_cons_self ..)
        simp [hc, show x.1 ≠ a by rw [← hc]; exact Ne.symm this]
      · simp [hc]

/-- A read after a write of one byte: the byte written there, every other byte as before. -/
theorem Memory.get_put (m : Memory) (a : Nat) (b : Byte) (a' : Nat) :
    Memory.get (Memory.put m a b) a' = if a' = a then b else Memory.get m a' := by
  unfold Memory.put
  by_cases hb : b = unlisted
  · simp only [hb, if_true, Memory.get_filter]
  · simp only [hb, if_false]
    rw [Memory.get_insert _ _ _ (by simp), Memory.get_filter]
    by_cases h : a' = a
    · simp [h]
    · simp [h, Ne.symm h]

@[simp] theorem Memory.get_put_same (m : Memory) (a : Nat) (b : Byte) :
    Memory.get (Memory.put m a b) a = b := by simp [Memory.get_put]

theorem Memory.get_put_ne (m : Memory) {a a' : Nat} (b : Byte) (h : a' ≠ a) :
    Memory.get (Memory.put m a b) a' = Memory.get m a' := by simp [Memory.get_put, h]

@[simp] theorem Memory.store_nil (m : Memory) : Memory.store m [] = m := rfl

theorem Memory.store_cons (m : Memory) (c : Host.Cell) (l : List Host.Cell) :
    Memory.store m (c :: l) = Memory.store (Memory.put m c.1 c.2) l := rfl

/-- A byte no write of `l` goes to is as before. -/
theorem Memory.get_store_of_notMem (m : Memory) (l : List Host.Cell) (a : Nat) (h : ∀ c ∈ l, c.1 ≠ a) :
    Memory.get (Memory.store m l) a = Memory.get m a := by
  induction l generalizing m with
  | nil => rfl
  | cons c l ih =>
    rw [Memory.store_cons, ih _ fun d hd => h d (List.mem_cons_of_mem _ hd)]
    exact Memory.get_put_ne _ _ (Ne.symm (h c (List.mem_cons_self ..)))

/-- A byte to which some write of `l` goes, all of them with the value `b`, holds `b` after. -/
theorem Memory.get_store_of_mem (m : Memory) (l : List Host.Cell) (a : Nat) (b : Byte)
    (hex : ∃ c ∈ l, c.1 = a) (hall : ∀ c ∈ l, c.1 = a → c.2 = b) :
    Memory.get (Memory.store m l) a = b := by
  induction l generalizing m with
  | nil => obtain ⟨c, hc, _⟩ := hex; cases hc
  | cons c l ih =>
    rw [Memory.store_cons]
    by_cases hl : ∃ d ∈ l, d.1 = a
    · exact ih _ hl fun d hd => hall d (List.mem_cons_of_mem _ hd)
    · have hn : ∀ d ∈ l, d.1 ≠ a := fun d hd he => hl ⟨d, hd, he⟩
      rw [Memory.get_store_of_notMem _ _ _ hn]
      obtain ⟨d, hd, he⟩ := hex
      rcases List.mem_cons.1 hd with rfl | hd'
      · subst he
        simpa using hall d (List.mem_cons_self ..) rfl
      · exact absurd he (hn d hd')

/-! The canonical form. -/

theorem Memory.wf_nil : Memory.wf [] := ⟨List.Pairwise.nil, by simp⟩

theorem Memory.mem_insert (m : Memory) (x c : Host.Cell) :
    c ∈ Memory.insert m x ↔ c = x ∨ c ∈ m := by
  induction m with
  | nil => simp [Memory.insert]
  | cons d m ih =>
    simp only [Memory.insert]
    split
    · simp
    · simp only [List.mem_cons, ih]
      tauto

theorem Memory.wf_insert (m : Memory) (x : Host.Cell) (hm : Memory.wf m) (hne : ∀ c ∈ m, c.1 ≠ x.1)
    (hx : x.2 ≠ unlisted) (ha : x.1 < addrSpace) : Memory.wf (Memory.insert m x) := by
  refine ⟨?_, fun c hc => ?_⟩
  · obtain ⟨hp, -⟩ := hm
    induction m with
    | nil => simp [Memory.insert]
    | cons c m ih =>
      rw [List.pairwise_cons] at hp
      simp only [Memory.insert]
      split
      · rename_i hlt
        refine List.pairwise_cons.2 ⟨fun d hd => ?_, List.pairwise_cons.2 hp⟩
        rcases List.mem_cons.1 hd with rfl | hd
        · exact hlt
        · exact hlt.trans (hp.1 d hd)
      · rename_i hnlt
        refine List.pairwise_cons.2 ⟨fun d hd => ?_, ih (fun d hd => hne d (List.mem_cons_of_mem _ hd)) hp.2⟩
        rcases (Memory.mem_insert m x d).1 hd with rfl | hd
        · have := hne c (List.mem_cons_self ..)
          omega
        · exact hp.1 d hd
  · rcases (Memory.mem_insert m x c).1 hc with rfl | hc
    · exact ⟨hx, ha⟩
    · exact hm.2 c hc

theorem Memory.wf_filter (m : Memory) (p : Host.Cell → Bool) (hm : Memory.wf m) : Memory.wf (m.filter p) :=
  ⟨hm.1.filter _, fun c hc => hm.2 c (List.mem_filter.1 hc).1⟩

/-- A write keeps the canonical form. -/
theorem Memory.wf_put (m : Memory) (a : Nat) (b : Byte) (hm : Memory.wf m) (ha : a < addrSpace) :
    Memory.wf (Memory.put m a b) := by
  unfold Memory.put
  by_cases hb : b = unlisted
  · simpa [hb] using Memory.wf_filter m _ hm
  · simpa [hb] using Memory.wf_insert _ (a, b) (Memory.wf_filter m _ hm) (by simp) hb ha

/-- Writes inside the address space keep the canonical form. -/
theorem Memory.wf_store (m : Memory) (l : List Host.Cell) (hm : Memory.wf m) (hl : ∀ c ∈ l, c.1 < addrSpace) :
    Memory.wf (Memory.store m l) := by
  induction l generalizing m with
  | nil => exact hm
  | cons c l ih =>
    exact ih _ (Memory.wf_put _ _ _ hm (hl c (List.mem_cons_self ..))) fun d hd => hl d (List.mem_cons_of_mem _ hd)

/-! Little-endian accesses. -/

theorem Memory.number_congr {m m' : Memory} {a a' n : Nat}
    (h : ∀ i < n, Memory.get m (a + i) = Memory.get m' (a' + i)) :
    Memory.number m a n = Memory.number m' a' n := by
  induction n with
  | zero => rfl
  | succ n ih =>
    simp only [Memory.number]
    rw [ih fun i hi => h i (by omega), h n (by omega)]

/-- A read depends on its own bytes only. -/
theorem memRead_congr {m m' : Memory} {a a' n : Nat}
    (h : ∀ i < n, Memory.get m (a + i) = Memory.get m' (a' + i)) : memRead m a n = memRead m' a' n := by
  unfold memRead; rw [Memory.number_congr h]

theorem readSigned_congr_bytes {m m' : Memory} {a n : Nat}
    (h : ∀ i < n, Memory.get m (a + i) = Memory.get m' (a + i)) : (memRead m a n).toInt = (memRead m' a n).toInt := by
  rw [memRead_congr h]

theorem Memory.number_eq_mod (m : Memory) (a n x : Nat)
    (h : ∀ i < n, (Memory.get m (a + i)).toNat = x / 2 ^ (8 * i) % 2 ^ 8) :
    Memory.number m a n = x % 2 ^ (8 * n) := by
  induction n with
  | zero => simp [Memory.number, Nat.mod_one]
  | succ n ih =>
    rw [Memory.number, ih fun i hi => h i (by omega), h n (by omega), show 8 * (n + 1) = 8 * n + 8 by ring,
      pow_add, Nat.mod_mul]
    ring

/-- If the bytes from `a` are those of `v`, lowest first, reading them gives `v` (R62). -/
theorem memRead_eq_of_bytes (m : Memory) (a n : Nat) (v : BitVec (8 * n))
    (h : ∀ i < n, Memory.get m (a + i) = v.extractLsb' (8 * i) 8) : memRead m a n = v := by
  apply BitVec.eq_of_toNat_eq
  unfold memRead
  rw [BitVec.toNat_ofNat, Memory.number_eq_mod m a n v.toNat]
  · simp [Nat.mod_eq_of_lt v.isLt]
  · intro i hi
    rw [h i hi, BitVec.extractLsb'_toNat, Nat.shiftRight_eq_div_pow]

theorem Memory.number_lt (m : Memory) (a n : Nat) : Memory.number m a n < 2 ^ (8 * n) := by
  induction n with
  | zero => simp [Memory.number]
  | succ n ih =>
    have hb : (Memory.get m (a + n)).toNat < 2 ^ 8 := (Memory.get m (a + n)).isLt
    rw [Memory.number, show 8 * (n + 1) = 8 * n + 8 by ring, pow_add]
    nlinarith [Nat.two_pow_pos (8 * n)]

theorem memRead_toNat (m : Memory) (a n : Nat) : (memRead m a n).toNat = Memory.number m a n := by
  simp [memRead, Nat.mod_eq_of_lt (Memory.number_lt m a n)]

@[simp] theorem memRead_one (m : Memory) (a : Nat) : memRead m a 1 = Memory.get m a := by
  apply BitVec.eq_of_toNat_eq
  rw [memRead_toNat]
  simp [Memory.number]

theorem mem_cellsLE (a n : Nat) (v : BitVec (8 * n)) (c : Host.Cell) :
    c ∈ cellsLE a n v ↔ ∃ i < n, c = (a + i, v.extractLsb' (8 * i) 8) := by
  simp only [cellsLE, List.mem_map, List.mem_range]
  constructor <;> rintro ⟨i, hi, h⟩ <;> exact ⟨i, hi, h.symm⟩

end Sys2Proof.Machine
end

