-- ==== Sys2Proof/Laws/Outputs.lean ====
section
/-! SUPPORT. Where output elements lie (R68, R150): an element's flat index is below the element count, two elements never share an index, and
so each output element reads back after the writes as it was computed. -/

namespace Sys2Proof.Machine

/-- The flat index of an output element (R68). -/
def flatOut (o : Operands) (e : Elem) : Nat := ((e.n * o.OH + e.oy) * o.OW + e.ox) * o.OC + e.oc

theorem addrOut_eq (f : Form) (o : Operands) (e : Elem) :
    addrOut f o e.n e.oy e.ox e.oc = o.outAddr + flatOut o e * tagSize f.outType := rfl

theorem mem_outputElems (o : Operands) (e : Elem) :
    e ∈ outputElems o ↔ e.n < o.N ∧ e.oy < o.OH ∧ e.ox < o.OW ∧ e.oc < o.OC := by
  simp only [outputElems, List.mem_flatMap, List.mem_range, List.mem_map]
  constructor
  · rintro ⟨n, hn, y, hy, x, hx, c, hc, rfl⟩; exact ⟨hn, hy, hx, hc⟩
  · rintro ⟨hn, hy, hx, hc⟩; exact ⟨e.n, hn, e.oy, hy, e.ox, hx, e.oc, hc, rfl⟩

theorem digit_lt {a A b B : Nat} (ha : a < A) (hb : b < B) : a * B + b < A * B := by
  have : (a + 1) * B ≤ A * B := Nat.mul_le_mul_right _ ha
  nlinarith

theorem digit_inj {a a' b b' B : Nat} (hb : b < B) (hb' : b' < B) (h : a * B + b = a' * B + b') : a = a' ∧ b = b' := by
  have hB : 0 < B := by omega
  have h1 : (a * B + b) / B = a := by rw [Nat.add_comm, Nat.add_mul_div_right _ _ hB, Nat.div_eq_of_lt hb]; omega
  have h2 : (a' * B + b') / B = a' := by rw [Nat.add_comm, Nat.add_mul_div_right _ _ hB, Nat.div_eq_of_lt hb']; omega
  have : a = a' := by rw [← h1, ← h2, h]
  subst this
  exact ⟨rfl, by omega⟩

theorem flatOut_lt (o : Operands) (e : Elem) (he : e ∈ outputElems o) : flatOut o e < eOut o := by
  obtain ⟨hn, hy, hx, hc⟩ := (mem_outputElems o e).1 he
  exact digit_lt (digit_lt (digit_lt hn hy) hx) hc

theorem flatOut_inj (o : Operands) (e e' : Elem) (he : e ∈ outputElems o) (he' : e' ∈ outputElems o)
    (h : flatOut o e = flatOut o e') : e = e' := by
  obtain ⟨hn, hy, hx, hc⟩ := (mem_outputElems o e).1 he
  obtain ⟨hn', hy', hx', hc'⟩ := (mem_outputElems o e').1 he'
  obtain ⟨h1, h4⟩ := digit_inj hc hc' h
  obtain ⟨h2, h3⟩ := digit_inj hx hx' h1
  obtain ⟨h5, h6⟩ := digit_inj hy hy' h2
  cases e; cases e'; simp_all

/-- The bytes of every output element, `size` bytes each, `v e` the pattern of element `e`. -/
def outCells (o : Operands) (size : Nat) (v : Elem → BitVec (8 * size)) : List Host.Cell :=
  (outputElems o).flatMap fun e => cellsLE (o.outAddr + flatOut o e * size) size (v e)

theorem integerCells_eq (f : Form) (o : Operands) (qt m : Memory) :
    integerCells f o qt m = outCells o (tagSize f.outType) fun e => BitVec.ofInt _ (outputValue f o qt m e) := rfl

theorem floatCells_eq (f : Form) (o : Operands) (m : Memory) (hf : f.outType = .float32) :
    floatCells f o m = outCells o 4 fun e => Config.floatConv (floatTerms f o m e) (floatBias f o m e.oc) := by
  simp [floatCells, outCells, addrOut_eq, hf, tagSize]

/-- Every written output byte lies in the OUT region. -/
theorem outCells_range (o : Operands) (size : Nat) (v : Elem → BitVec (8 * size)) (c : Host.Cell) (hc : c ∈ outCells o size v) :
    o.outAddr ≤ c.1 ∧ c.1 < o.outAddr + eOut o * size := by
  simp only [outCells, List.mem_flatMap] at hc
  obtain ⟨e, he, hc⟩ := hc
  obtain ⟨i, hi, rfl⟩ := (mem_cellsLE ..).1 hc
  have h1 : flatOut o e * size + i < eOut o * size := digit_lt (flatOut_lt o e he) hi
  constructor <;> simp only <;> omega

/-- Byte `i` of output element `e` after the writes. -/
theorem get_store_outCells (m : Memory) (o : Operands) (size : Nat) (v : Elem → BitVec (8 * size)) (e : Elem)
    (he : e ∈ outputElems o) (i : Nat) (hi : i < size) :
    Memory.get (Memory.store m (outCells o size v)) (o.outAddr + flatOut o e * size + i) = (v e).extractLsb' (8 * i) 8 := by
  apply Memory.get_store_of_mem
  · refine ⟨(_, (v e).extractLsb' (8 * i) 8), ?_, rfl⟩
    exact List.mem_flatMap.2 ⟨e, he, (mem_cellsLE ..).2 ⟨i, hi, rfl⟩⟩
  · intro c hc hca
    obtain ⟨e', he', hc⟩ := List.mem_flatMap.1 hc
    obtain ⟨i', hi', rfl⟩ := (mem_cellsLE ..).1 hc
    simp only at hca
    have h : flatOut o e' * size + i' = flatOut o e * size + i := by omega
    obtain ⟨h1, h2⟩ := digit_inj hi' hi h
    rw [flatOut_inj o e' e he' he h1, h2]

/-- Output element `e` reads back, after the writes, as the pattern computed for it. -/
theorem memRead_store_outCells (m : Memory) (o : Operands) (size : Nat) (v : Elem → BitVec (8 * size)) (e : Elem)
    (he : e ∈ outputElems o) :
    memRead (Memory.store m (outCells o size v)) (o.outAddr + flatOut o e * size) size = v e :=
  memRead_eq_of_bytes _ _ _ _ fun i hi => get_store_outCells m o size v e he i hi

/-- A byte outside the OUT region is as before the writes. -/
theorem get_store_outCells_outside (m : Memory) (o : Operands) (size : Nat) (v : Elem → BitVec (8 * size)) (a : Nat)
    (ha : ¬ (o.outAddr ≤ a ∧ a < o.outAddr + eOut o * size)) :
    Memory.get (Memory.store m (outCells o size v)) a = Memory.get m a :=
  Memory.get_store_of_notMem _ _ _ fun c hc h => ha (h ▸ outCells_range o size v c hc)

/-- Scratch byte `i` after the unpack pass (R141). -/
theorem get_unpackPass (f : Form) (o : Operands) (m : Memory) (i : Nat) (hi : i < eFlt f.op o) :
    Memory.get (unpackPass f o m) (o.scratchAddr + i) = BitVec.ofInt 8 (unpackElem m o.fltAddr i) := by
  apply Memory.get_store_of_mem
  · exact ⟨(_, _), List.mem_map.2 ⟨i, List.mem_range.2 hi, rfl⟩, rfl⟩
  · intro c hc hca
    obtain ⟨j, hj, rfl⟩ := List.mem_map.1 hc
    simp only [Nat.add_left_cancel_iff] at hca
    rw [hca]

/-- A byte outside the SCR region is as before the unpack pass. -/
theorem get_unpackPass_outside (f : Form) (o : Operands) (m : Memory) (a : Nat)
    (ha : ¬ (o.scratchAddr ≤ a ∧ a < o.scratchAddr + eFlt f.op o)) :
    Memory.get (unpackPass f o m) a = Memory.get m a := by
  apply Memory.get_store_of_notMem
  intro c hc hca
  obtain ⟨j, hj, rfl⟩ := List.mem_map.1 hc
  rw [List.mem_range] at hj
  simp only at hca
  exact ha (by omega)

end Sys2Proof.Machine
end

