-- ==== Sys2Proof/Laws/State.lean ====
section
/-! SUPPORT. One lemma per field per update of the state, each true by definition, so that no proof unfolds a record update. -/

namespace Sys2Proof.Machine

/-! The base address of a block (R23, D51). -/

theorem Engine.base_eq (e : Engine) : e.base = 256 * e.page := rfl
theorem Engine.base_aligned (e : Engine) : e.base % 256 = 0 := Nat.mul_mod_right 256 e.page
theorem Engine.base_inj (e e' : Engine) : e.base = e'.base ↔ e.page = e'.page := by simp [Engine.base_eq]

theorem inRange_iff (r : Range) (a : Nat) : inRange r a = true ↔ r.base ≤ a ∧ a < r.base + r.len := by simp [inRange]

/-- Blocks at different base addresses do not meet (R61). -/
theorem Engine.blocks_disjoint (e e' : Engine) (h : e.page ≠ e'.page) (a : Nat) :
    ¬ (inRange e.block a = true ∧ inRange e'.block a = true) := by
  simp only [inRange_iff, Engine.block, Engine.base_eq]
  omega

/-! The registers of a success completion (R112). -/

@[simp] theorem Engine.finish_page (e : Engine) : (e.finish).page = e.page := rfl
@[simp] theorem Engine.finish_base (e : Engine) : (e.finish).base = e.base := rfl
@[simp] theorem Engine.finish_phase (e : Engine) : (e.finish).phase = .idle := rfl
@[simp] theorem Engine.finish_irqEn (e : Engine) : (e.finish).irqEn = e.irqEn := rfl
@[simp] theorem Engine.finish_done (e : Engine) : (e.finish).done = true := rfl
@[simp] theorem Engine.finish_err (e : Engine) : (e.finish).err = false := rfl
@[simp] theorem Engine.finish_errCode (e : Engine) : (e.finish).errCode = .none := rfl
@[simp] theorem Engine.finish_errInfo (e : Engine) : (e.finish).errInfo = e.errInfo := rfl
@[simp] theorem Engine.finish_errAddr (e : Engine) : (e.finish).errAddr = e.errAddr := rfl
@[simp] theorem Engine.finish_cmd (e : Engine) : (e.finish).cmd = e.cmd := rfl
@[simp] theorem Engine.finish_desc (e : Engine) : (e.finish).desc = e.desc := rfl
@[simp] theorem Engine.finish_lent (e : Engine) : (e.finish).lent = e.lent := rfl

/-! The registers of an error completion (R113). -/

@[simp] theorem Engine.raise_page (e : Engine) (r : ErrRecord) : (e.raise r).page = e.page := rfl
@[simp] theorem Engine.raise_base (e : Engine) (r : ErrRecord) : (e.raise r).base = e.base := rfl
@[simp] theorem Engine.raise_phase (e : Engine) (r : ErrRecord) : (e.raise r).phase = .idle := rfl
@[simp] theorem Engine.raise_irqEn (e : Engine) (r : ErrRecord) : (e.raise r).irqEn = e.irqEn := rfl
@[simp] theorem Engine.raise_done (e : Engine) (r : ErrRecord) : (e.raise r).done = true := rfl
@[simp] theorem Engine.raise_err (e : Engine) (r : ErrRecord) : (e.raise r).err = true := rfl
@[simp] theorem Engine.raise_errCode (e : Engine) (r : ErrRecord) : (e.raise r).errCode = r.code := rfl
@[simp] theorem Engine.raise_errInfo (e : Engine) (r : ErrRecord) : (e.raise r).errInfo = r.info := rfl
@[simp] theorem Engine.raise_errAddr (e : Engine) (r : ErrRecord) : (e.raise r).errAddr = BitVec.ofNat 32 r.addr := rfl
@[simp] theorem Engine.raise_cmd (e : Engine) (r : ErrRecord) : (e.raise r).cmd = e.cmd := rfl
@[simp] theorem Engine.raise_desc (e : Engine) (r : ErrRecord) : (e.raise r).desc = e.desc := rfl
@[simp] theorem Engine.raise_lent (e : Engine) (r : ErrRecord) : (e.raise r).lent = e.lent := rfl

/-! The registers of an accepted START (R110). -/

@[simp] theorem Engine.start_page (e : Engine) : (e.start).page = e.page := rfl
@[simp] theorem Engine.start_base (e : Engine) : (e.start).base = e.base := rfl
@[simp] theorem Engine.start_phase (e : Engine) : (e.start).phase = .run := rfl
@[simp] theorem Engine.start_irqEn (e : Engine) : (e.start).irqEn = e.irqEn := rfl
@[simp] theorem Engine.start_done (e : Engine) : (e.start).done = false := rfl
@[simp] theorem Engine.start_err (e : Engine) : (e.start).err = false := rfl
@[simp] theorem Engine.start_errCode (e : Engine) : (e.start).errCode = .none := rfl
@[simp] theorem Engine.start_errInfo (e : Engine) : (e.start).errInfo = 0#32 := rfl
@[simp] theorem Engine.start_errAddr (e : Engine) : (e.start).errAddr = 0#32 := rfl
@[simp] theorem Engine.start_cmd (e : Engine) : (e.start).cmd = e.cmd := rfl
@[simp] theorem Engine.start_desc (e : Engine) : (e.start).desc = e.desc := rfl
@[simp] theorem Engine.start_lent (e : Engine) : (e.start).lent = e.regions ++ e.lent := rfl

/-! The registers after reset (R240). -/

@[simp] theorem Engine.reset_page (b : Nat) : (Engine.reset b).page = b := rfl
@[simp] theorem Engine.reset_base (b : Nat) : (Engine.reset b).base = 256 * b := rfl
@[simp] theorem Engine.reset_phase (b : Nat) : (Engine.reset b).phase = .idle := rfl
@[simp] theorem Engine.reset_irqEn (b : Nat) : (Engine.reset b).irqEn = false := rfl
@[simp] theorem Engine.reset_done (b : Nat) : (Engine.reset b).done = false := rfl
@[simp] theorem Engine.reset_err (b : Nat) : (Engine.reset b).err = false := rfl
@[simp] theorem Engine.reset_errCode (b : Nat) : (Engine.reset b).errCode = .none := rfl
@[simp] theorem Engine.reset_errInfo (b : Nat) : (Engine.reset b).errInfo = 0#32 := rfl
@[simp] theorem Engine.reset_errAddr (b : Nat) : (Engine.reset b).errAddr = 0#32 := rfl
@[simp] theorem Engine.reset_cmd (b : Nat) : (Engine.reset b).cmd = 0#32 := rfl
@[simp] theorem Engine.reset_desc (b : Nat) : (Engine.reset b).desc = Descriptors.reset := rfl
@[simp] theorem Engine.reset_lent (b : Nat) : (Engine.reset b).lent = [] := rfl

/-! The completions on the whole state (R112, R113, R130). -/

@[simp] theorem finish_eng (m : Memory) (s : State) : (finish m s).eng = s.eng.finish := rfl
@[simp] theorem finish_others (m : Memory) (s : State) : (finish m s).others = s.others := rfl
@[simp] theorem finish_mem (m : Memory) (s : State) : (finish m s).mem = m := rfl
@[simp] theorem finish_platform (m : Memory) (s : State) : (finish m s).platform = s.platform := rfl
@[simp] theorem finish_inputs (m : Memory) (s : State) : (finish m s).inputs = s.inputs := rfl
@[simp] theorem finish_replies (m : Memory) (s : State) : (finish m s).replies = s.replies := rfl
@[simp] theorem finish_draws (m : Memory) (s : State) : (finish m s).draws = s.draws := rfl
@[simp] theorem raiseErr_eng (r : ErrRecord) (s : State) : (raiseErr r s).eng = s.eng.raise r := rfl
@[simp] theorem raiseErr_others (r : ErrRecord) (s : State) : (raiseErr r s).others = s.others := rfl
@[simp] theorem raiseErr_mem (r : ErrRecord) (s : State) : (raiseErr r s).mem = s.mem := rfl
@[simp] theorem raiseErr_platform (r : ErrRecord) (s : State) : (raiseErr r s).platform = s.platform := rfl
@[simp] theorem raiseErr_inputs (r : ErrRecord) (s : State) : (raiseErr r s).inputs = s.inputs := rfl
@[simp] theorem raiseErr_replies (r : ErrRecord) (s : State) : (raiseErr r s).replies = s.replies := rfl
@[simp] theorem raiseErr_draws (r : ErrRecord) (s : State) : (raiseErr r s).draws = s.draws := rfl
@[simp] theorem busFault_eng (rs : List Region) (x : Nat × AccessKind) (xs : List (Nat × AccessKind)) (s : State) : (busFault rs x xs s).eng = s.eng.raise (ErrRecord.execBus (busPickOf s.draws x xs)) := rfl
@[simp] theorem busFault_others (rs : List Region) (x : Nat × AccessKind) (xs : List (Nat × AccessKind)) (s : State) : (busFault rs x xs s).others = s.others := rfl
@[simp] theorem busFault_mem (rs : List Region) (x : Nat × AccessKind) (xs : List (Nat × AccessKind)) (s : State) : (busFault rs x xs s).mem = unspecify s.draws rs s.mem := rfl
@[simp] theorem busFault_platform (rs : List Region) (x : Nat × AccessKind) (xs : List (Nat × AccessKind)) (s : State) : (busFault rs x xs s).platform = s.platform := rfl
@[simp] theorem busFault_inputs (rs : List Region) (x : Nat × AccessKind) (xs : List (Nat × AccessKind)) (s : State) : (busFault rs x xs s).inputs = s.inputs := rfl
@[simp] theorem busFault_replies (rs : List Region) (x : Nat × AccessKind) (xs : List (Nat × AccessKind)) (s : State) : (busFault rs x xs s).replies = s.replies := rfl
@[simp] theorem busFault_draws (rs : List Region) (x : Nat × AccessKind) (xs : List (Nat × AccessKind)) (s : State) : (busFault rs x xs s).draws = s.draws + 1 := rfl
@[simp] theorem State.withEng_eng (e : Engine) (s : State) : (s.withEng e).eng = e := rfl
@[simp] theorem State.withEng_others (e : Engine) (s : State) : (s.withEng e).others = s.others := rfl
@[simp] theorem State.withEng_mem (e : Engine) (s : State) : (s.withEng e).mem = s.mem := rfl
@[simp] theorem State.withEng_platform (e : Engine) (s : State) : (s.withEng e).platform = s.platform := rfl
@[simp] theorem State.withEng_inputs (e : Engine) (s : State) : (s.withEng e).inputs = s.inputs := rfl
@[simp] theorem State.withEng_replies (e : Engine) (s : State) : (s.withEng e).replies = s.replies := rfl
@[simp] theorem State.withEng_draws (e : Engine) (s : State) : (s.withEng e).draws = s.draws := rfl

/-! What depends only on CMD and the descriptor registers. -/

@[simp] theorem Engine.finish_regions (e : Engine) : e.finish.regions = e.regions := rfl
@[simp] theorem Engine.raise_regions (e : Engine) (r : ErrRecord) : (e.raise r).regions = e.regions := rfl
@[simp] theorem Engine.start_regions (e : Engine) : e.start.regions = e.regions := rfl

/-! STATUS and the interrupt after a completion (R43). -/

@[simp] theorem Engine.finish_busy (e : Engine) : e.finish.busy = false := rfl
@[simp] theorem Engine.raise_busy (e : Engine) (r : ErrRecord) : (e.raise r).busy = false := rfl
@[simp] theorem Engine.start_busy (e : Engine) : e.start.busy = true := rfl
@[simp] theorem Engine.finish_irq (e : Engine) : e.finish.irq = e.irqEn := by simp [Engine.irq]
@[simp] theorem Engine.raise_irq (e : Engine) (r : ErrRecord) : (e.raise r).irq = e.irqEn := by simp [Engine.irq]

theorem Engine.busy_iff (e : Engine) : e.busy = true ↔ e.phase = .run := by simp [Engine.busy]

end Sys2Proof.Machine
end

