-- ==== Sys2Proof/Laws/Command.lean ====
section
/-! SUPPORT. What a command can do, said once: every meaning is `runCommand` on the form of its encoding, and `runCommand` ends in one of six
ways. The checks of phases 3 to 5 in terms of the conditions of Safety.lean. -/

namespace Sys2Proof.Machine

/-- The computation of each command (R132). -/
def workOf : Instr → Operands → Memory → Memory
  | .convF32      => floatPath Instr.convF32.form
  | .convF32Nb    => floatPath Instr.convF32Nb.form
  | .convI8       => integerPath Instr.convI8.form
  | .convI8Nb     => integerPath Instr.convI8Nb.form
  | .convI8w4     => packedPath Instr.convI8w4.form
  | .convI8w4Nb   => packedPath Instr.convI8w4Nb.form
  | .convI16      => integerPath Instr.convI16.form
  | .convI16Nb    => integerPath Instr.convI16Nb.form
  | .convI16b64   => integerPath Instr.convI16b64.form
  | .dwconvF32    => floatPath Instr.dwconvF32.form
  | .dwconvF32Nb  => floatPath Instr.dwconvF32Nb.form
  | .dwconvI8     => integerPath Instr.dwconvI8.form
  | .dwconvI8Nb   => integerPath Instr.dwconvI8Nb.form
  | .dwconvI8w4   => packedPath Instr.dwconvI8w4.form
  | .dwconvI8w4Nb => packedPath Instr.dwconvI8w4Nb.form
  | .dwconvI16    => integerPath Instr.dwconvI16.form
  | .dwconvI16Nb  => integerPath Instr.dwconvI16Nb.form
  | .dwconvI16b64 => integerPath Instr.dwconvI16b64.form
  | .unpack4      => unpackPass Instr.unpack4.form

/-- Every command is the shared phases on its own form and computation. -/
theorem exec_eq_runCommand (i : Instr) (s : State) : exec i s = runCommand i.form (workOf i) s := by
  cases i <;> rfl

/-! Phase 3. -/

theorem isInt_iff (f : Form) : isInt f = true ↔ IntegerForm f := by
  simp [isInt, isConv, IntegerForm]

theorem isConv_iff (f : Form) : isConv f = true ↔ f.op ≠ .unpack4 := by simp [isConv]

theorem isPacked_iff (f : Form) : isPacked f = true ↔ f.fltType = .int4p := by simp [isPacked]

/-- Each row of the check table tells exactly when its check holds. -/
theorem configChecks_sound (f : Form) (o : Operands) (x : ConfigCause × Bool) (hx : x ∈ configChecks f o) :
    x.2 = true ↔ CheckHolds f o x.1 := by
  simp only [configChecks, List.mem_cons, List.not_mem_nil, or_false] at hx
  rcases hx with rfl | rfl | rfl | rfl | rfl | rfl | rfl | rfl | rfl
  · simp [CheckHolds, isConv_iff, paramRangeBad, or_assoc]
  · simp only [CheckHolds, Bool.and_eq_true, isConv_iff, depthBad, beq_iff_eq, bne_iff_ne]
    exact ⟨fun h => h.2, fun h => ⟨by rw [h.1]; decide, h⟩⟩
  · simp [CheckHolds, isInt_iff, qtabLenBad]
  · simp [CheckHolds, isPacked_iff, scratchMissing]
  · simp [CheckHolds, isPacked_iff, scratchSmall]
  · simp only [CheckHolds, Bool.and_eq_true, isInt_iff, zpRangeBad, inTagRange, Bool.not_eq_true', Bool.and_eq_false_iff,
      decide_eq_false_iff_not]
    tauto
  · simp [CheckHolds, isInt_iff, actRangeBad]
  · simp only [CheckHolds, regionRangeBad, List.any_eq_true, decide_eq_true_eq]
    exact Iff.rfl
  · simp only [CheckHolds, regionOverlapBad, List.any_eq_true, Bool.and_eq_true, Region.written, Bool.or_eq_true, beq_iff_eq,
      bne_iff_ne, Region.overlaps, overlap, decide_eq_true_eq]
    constructor
    · rintro ⟨a, ha, hw, b, hb, hne, ⟨⟨h1, h2⟩, h3⟩, h4⟩
      exact ⟨a, ha, b, hb, hw, Ne.symm hne, h1, h2, h3, h4⟩
    · rintro ⟨a, ha, b, hb, hw, hne, h1, h2, h3, h4⟩
      exact ⟨a, ha, hw, b, hb, Ne.symm hne, ⟨⟨h1, h2⟩, h3⟩, h4⟩

theorem configChecks_order (f : Form) (o : Operands) : (configChecks f o).map (·.1) = checkOrder := rfl

theorem configError_eq_none_iff (f : Form) (o : Operands) : configError f o = none ↔ NoCheckHolds f o := by
  simp only [configError, Option.map_eq_none_iff, List.find?_eq_none, NoCheckHolds, ← configChecks_order f o, List.mem_map]
  constructor
  · rintro h c ⟨x, hx, rfl⟩
    exact fun hc => h x hx ((configChecks_sound f o x hx).2 hc)
  · exact fun h x hx hx2 => h x.1 ⟨x, hx, rfl⟩ ((configChecks_sound f o x hx).1 hx2)

/-- The first check that holds is the one raised. -/
theorem configError_eq_some (f : Form) (o : Operands) (before after : List ConfigCause) (c : ConfigCause)
    (hl : checkOrder = before ++ c :: after) (hc : CheckHolds f o c) (hb : ∀ b ∈ before, ¬ CheckHolds f o b) :
    configError f o = some c := by
  rw [← configChecks_order f o, List.map_eq_append_iff] at hl
  obtain ⟨l1, l2, hl, rfl, h2⟩ := hl
  rw [List.map_eq_cons_iff] at h2
  obtain ⟨x, l3, rfl, rfl, -⟩ := h2
  have hmem : ∀ y, y ∈ l1 ++ x :: l3 → y ∈ configChecks f o := fun y hy => hl ▸ hy
  simp only [configError, hl, Option.map_eq_some_iff]
  refine ⟨x, ?_, rfl⟩
  rw [List.find?_append, List.find?_eq_none.2, Option.none_or, List.find?_cons_of_pos]
  · exact (configChecks_sound f o x (hmem x (by simp))).2 hc
  · exact fun y hy hy2 => hb y.1 (List.mem_map.2 ⟨y, hy, rfl⟩) ((configChecks_sound f o y (hmem y (by simp [hy]))).1 hy2)

/-! The duties, phase 4 and phase 5. -/

theorem coversDevice_eq_false_iff (f : Form) (s : State) : coversDevice s (regions f s.operands) = false ↔ NoDevice f s := by
  simp [coversDevice]

theorem conflictsRunning_eq_false_iff (f : Form) (s : State) :
    conflictsRunning s (regions f s.operands) = false ↔ NoConflict f s := by
  simp only [conflictsRunning, conflict, List.any_eq_false, Bool.and_eq_true, not_and, ← Bool.eq_false_iff, Engine.busy_iff,
    Bool.or_eq_true]

theorem conflictsRunning_eq_true_iff (s : State) (rs : List Region) :
    conflictsRunning s rs = true ↔
      ∃ e ∈ s.others, e.phase = .run ∧ ∃ r ∈ rs, ∃ t ∈ e.regions,
        (r.written = true ∨ t.written = true) ∧ r.overlaps t = true := by
  simp only [conflictsRunning, conflict, List.any_eq_true, Bool.and_eq_true, Engine.busy_iff, Bool.or_eq_true]

theorem entryError_eq_none_iff (s : State) (c : Nat) :
    entryError s.platform s.mem s.operands c = none ↔ EntryGood s c := by
  unfold entryError EntryGood
  split
  · rename_i a ha
    have h1 := List.find?_some ha
    have h2 := List.mem_of_find?_eq_some ha
    simp only [List.mem_map, List.mem_range] at h2
    obtain ⟨i, hi, rfl⟩ := h2
    simp only [reduceCtorEq, false_iff, not_and]
    intro h
    simp [h i hi] at h1
  · rename_i hn
    have hall : ∀ i < 8, admits s.platform (addrQtab s.operands c + i) .read = true := by
      intro i hi
      have := List.find?_eq_none.1 hn (addrQtab s.operands c + i) (List.mem_map.2 ⟨i, List.mem_range.2 hi, rfl⟩)
      simpa using this
    split
    · rename_i h
      simp only [reduceCtorEq, false_iff, not_and]
      intro _ h1; omega
    · rename_i h
      simp only [true_iff]
      exact ⟨hall, by omega, by omega⟩

theorem tableError_eq_none_iff (f : Form) (s : State) :
    tableError f s.platform s.mem s.operands = none ↔ TableGood f s := by
  unfold tableError TableGood
  split
  · rename_i h
    simp [(isInt_iff f).1 h, List.findSome?_eq_none_iff, entryError_eq_none_iff]
  · rename_i h
    simp only [true_iff]
    exact fun h' => absurd ((isInt_iff f).2 h') h

theorem mem_accesses (r : Region) (x : Nat × AccessKind) :
    x ∈ r.accesses ↔ ∃ i < r.len, x.1 = r.base + i ∧ x.2 ∈ r.access := by
  simp only [Region.accesses, List.mem_flatMap, List.mem_range, List.mem_map]
  constructor
  · rintro ⟨i, hi, k, hk, rfl⟩; exact ⟨i, hi, rfl, hk⟩
  · rintro ⟨i, hi, h1, h2⟩; exact ⟨i, hi, x.2, h2, by rw [← h1]⟩

/-- The fault set: the accesses of the active regions other than the table that are not admitted (R130). -/
theorem mem_faultSet (f : Form) (p : Platform) (o : Operands) (x : Nat × AccessKind) :
    x ∈ faultSet f p o ↔
      (∃ r ∈ regions f o, r.name ≠ .qtab ∧ ∃ i < r.len, x.1 = r.base + i ∧ x.2 ∈ r.access) ∧ admits p x.1 x.2 = false := by
  simp only [faultSet, List.mem_filter, List.mem_flatMap, mem_accesses, bne_iff_ne, Bool.not_eq_true']
  constructor
  · rintro ⟨⟨r, ⟨h1, h2⟩, h3⟩, h4⟩; exact ⟨⟨r, h1, h2, h3⟩, h4⟩
  · rintro ⟨⟨r, h1, h2, h3⟩, h4⟩; exact ⟨⟨r, ⟨h1, h2⟩, h3⟩, h4⟩

theorem faultSet_eq_nil_iff (f : Form) (s : State) : faultSet f s.platform s.operands = [] ↔ AllAdmitted f s := by
  rw [List.eq_nil_iff_forall_not_mem]
  constructor
  · intro h r hr hn i hi k hk
    by_contra hc
    exact h (r.base + i, k) ((mem_faultSet ..).2 ⟨⟨r, hr, hn, i, hi, rfl, hk⟩, by simpa using hc⟩)
  · intro h x hx
    obtain ⟨⟨r, hr, hn, i, hi, h1, h2⟩, h3⟩ := (mem_faultSet ..).1 hx
    rw [h1, h r hr hn i hi _ h2] at h3
    exact absurd h3 (by simp)

/-- `BUSPICK` selects an element of the fault set. -/
theorem busPickOf_mem (draw : Nat) (x : Nat × AccessKind) (xs : List (Nat × AccessKind)) : busPickOf draw x xs ∈ x :: xs := by
  unfold busPickOf
  have h : Config.busPick draw % (xs.length + 1) < (x :: xs).length := by simpa using Nat.mod_lt _ (Nat.succ_pos _)
  rw [List.getD_eq_getElem _ _ h]
  exact List.getElem_mem h

/-- The two duties are kept when neither test finds a breach. -/
theorem dutiesKept_of_checks (f : Form) (s : State) (h1 : coversDevice s (regions f s.operands) = false)
    (h2 : conflictsRunning s (regions f s.operands) = false) : DutiesKept f s :=
  ⟨(coversDevice_eq_false_iff ..).1 h1, (conflictsRunning_eq_false_iff ..).1 h2⟩

/-- A command executes normally when the five checks find nothing. -/
theorem accepted_of_checks (f : Form) (s : State) (h1 : configError f s.operands = none)
    (h2 : coversDevice s (regions f s.operands) = false) (h3 : conflictsRunning s (regions f s.operands) = false)
    (h4 : tableError f s.platform s.mem s.operands = none) (h5 : faultSet f s.platform s.operands = []) : Accepted f s :=
  ⟨(configError_eq_none_iff ..).1 h1, dutiesKept_of_checks f s h2 h3, (tableError_eq_none_iff ..).1 h4,
    (faultSet_eq_nil_iff ..).1 h5⟩

/-! The six ends of a command. -/

/-- A conflict is refused whatever the command would end with (R82, R250). -/
theorem runCommand_of_conflict (f : Form) (work : Operands → Memory → Memory) (s : State)
    (h : conflictsRunning s (regions f s.operands) = true) : runCommand f work s = .refused .enginesConflict := by
  simp only [runCommand, h, if_true]

/-- With no conflict, the first configuration check that holds ends the command (R119). -/
theorem runCommand_of_config (f : Form) (work : Operands → Memory → Memory) (s : State) (c : ConfigCause) (h : NoConflict f s)
    (hc : configError f s.operands = some c) : runCommand f work s = .next (raiseErr (ErrRecord.ofConfig c) s) := by
  simp only [runCommand, (conflictsRunning_eq_false_iff ..).2 h, Bool.false_eq_true, if_false, hc]

/-- With no conflict and no configuration error, a region over a device is refused (R75). -/
theorem runCommand_of_device (f : Form) (work : Operands → Memory → Memory) (s : State) (h : NoConflict f s)
    (hc : NoCheckHolds f s.operands) (hd : coversDevice s (regions f s.operands) = true) :
    runCommand f work s = .refused .regionOverDevice := by
  simp only [runCommand, (conflictsRunning_eq_false_iff ..).2 h, Bool.false_eq_true, if_false, (configError_eq_none_iff ..).2 hc, hd,
    if_true]

/-- A command that passes phase 3 and breaks no duty goes on to phases 4 and 5. -/
theorem runCommand_of_duties (f : Form) (work : Operands → Memory → Memory) (s : State) (hc : NoCheckHolds f s.operands)
    (hd : DutiesKept f s) : runCommand f work s = runMemoryPhases f work s := by
  simp only [runCommand, (conflictsRunning_eq_false_iff ..).2 hd.2, Bool.false_eq_true, if_false, (configError_eq_none_iff ..).2 hc,
    (coversDevice_eq_false_iff ..).2 hd.1]

/-- A command that executes normally performs its computation and completes with success (R111, R132). -/
theorem runCommand_of_accepted (f : Form) (work : Operands → Memory → Memory) (s : State) (h : Accepted f s) :
    runCommand f work s = .next (finish (work s.operands s.mem) s) := by
  obtain ⟨h1, h2, h3, h4⟩ := h
  rw [runCommand_of_duties f work s h1 h2]
  simp only [runMemoryPhases, (tableError_eq_none_iff ..).2 h3, (faultSet_eq_nil_iff ..).2 h4]

/-- A command ends in the refusal of a conflict, a configuration error, the refusal of a device, a table error, an execution bus error, or
success. -/
theorem runCommand_cases (f : Form) (work : Operands → Memory → Memory) (s : State) :
    (¬ NoConflict f s ∧ runCommand f work s = .refused .enginesConflict) ∨
    (NoConflict f s ∧ ∃ c, configError f s.operands = some c ∧ runCommand f work s = .next (raiseErr (ErrRecord.ofConfig c) s)) ∨
    (NoConflict f s ∧ NoCheckHolds f s.operands ∧ ¬ NoDevice f s ∧ runCommand f work s = .refused .regionOverDevice) ∨
    (NoCheckHolds f s.operands ∧ DutiesKept f s ∧
      ∃ e, tableError f s.platform s.mem s.operands = some e ∧ runCommand f work s = .next (raiseErr e s)) ∨
    (NoCheckHolds f s.operands ∧ DutiesKept f s ∧ TableGood f s ∧
      ∃ x xs, faultSet f s.platform s.operands = x :: xs ∧
        runCommand f work s = .next (busFault (regions f s.operands) x xs s)) ∨
    (Accepted f s ∧ runCommand f work s = .next (finish (work s.operands s.mem) s)) := by
  rcases hn : conflictsRunning s (regions f s.operands) with _ | _
  swap
  · exact .inl ⟨fun h => absurd ((conflictsRunning_eq_false_iff ..).2 h) (by simp [hn]), runCommand_of_conflict f work s hn⟩
  have h0 := (conflictsRunning_eq_false_iff ..).1 hn
  rcases hc : configError f s.operands with _ | c
  swap
  · exact .inr (.inl ⟨h0, c, rfl, runCommand_of_config f work s c h0 hc⟩)
  have h1 := (configError_eq_none_iff ..).1 hc
  rcases hd : coversDevice s (regions f s.operands) with _ | _
  swap
  · exact .inr (.inr (.inl ⟨h0, h1, fun h => absurd ((coversDevice_eq_false_iff ..).2 h) (by simp [hd]),
      runCommand_of_device f work s h0 h1 hd⟩))
  have h2 := dutiesKept_of_checks f s hd hn
  rw [runCommand_of_duties f work s h1 h2]
  rcases ht : tableError f s.platform s.mem s.operands with _ | e
  swap
  · exact .inr (.inr (.inr (.inl ⟨h1, h2, e, rfl, by simp only [runMemoryPhases, ht]⟩)))
  have h3 := (tableError_eq_none_iff ..).1 ht
  rcases hf : faultSet f s.platform s.operands with _ | ⟨x, xs⟩
  · exact .inr (.inr (.inr (.inr (.inr ⟨⟨h1, h2, h3, (faultSet_eq_nil_iff ..).1 hf⟩, by simp only [runMemoryPhases, ht, hf]⟩))))
  · exact .inr (.inr (.inr (.inr (.inl ⟨h1, h2, h3, x, xs, rfl, by simp only [runMemoryPhases, ht, hf]⟩))))

/-! Unspecified bytes. -/

theorem get_unspecify_outside (draw : Nat) (rs : List Region) (m : Memory) (a : Nat)
    (ha : ∀ r ∈ rs, r.written = true → ¬ (r.base ≤ a ∧ a < r.base + r.len)) :
    Memory.get (unspecify draw rs m) a = Memory.get m a := by
  apply Memory.get_store_of_notMem
  intro c hc hca
  simp only [List.mem_map, List.mem_flatMap, List.mem_filter, Region.bytes, List.mem_range] at hc
  obtain ⟨b, ⟨r, ⟨hr, hw⟩, ⟨i, hi, rfl⟩, _⟩, rfl⟩ := hc
  simp only at hca
  exact ha r hr hw (by omega)

theorem wf_unspecify (draw : Nat) (rs : List Region) (m : Memory) (hm : Memory.wf m) : Memory.wf (unspecify draw rs m) := by
  apply Memory.wf_store _ _ hm
  intro c hc
  simp only [List.mem_map, List.mem_flatMap, List.mem_filter, Region.bytes, decide_eq_true_eq] at hc
  obtain ⟨b, ⟨r, _, _, hb⟩, rfl⟩ := hc
  exact hb

end Sys2Proof.Machine
end

