-- ==== Sys2Proof/Laws/Encode.lean ====
section
/-! SUPPORT. The CMD word and its fields determine each other (R91). -/

namespace Sys2Proof

/-- Putting the fields of a word together gives the word back. -/
theorem CmdFields.toWord_ofWord (w : Word) : (CmdFields.ofWord w).toWord = w := by
  apply BitVec.eq_of_getLsbD_eq
  intro i hi
  simp only [CmdFields.ofWord, CmdFields.toWord, BitVec.getLsbD_append, BitVec.getLsbD_extractLsb']
  interval_cases i <;> simp

/-- Dispatch of CONV or DWCONV succeeds only on the tags of the command it selects (R95, R116). -/
theorem dispatchConv_ok (it ft bt ot : BitVec 4) (p : Path) (h : dispatchConv it ft bt ot = .ok p) :
    (convInstr p (bt != 0#4)).form.fields = ⟨1#4, 0#4, it, ft, bt, ot, 0#8⟩ ∧
    (dwconvInstr p (bt != 0#4)).form.fields = ⟨2#4, 0#4, it, ft, bt, ot, 0#8⟩ := by
  unfold dispatchConv at h
  split at h; · cases h
  split at h; · cases h
  split at h; · cases h
  split at h; · cases h
  rename_i h1 h2 h3 h4
  simp only [Bool.not_eq_true', Bool.not_eq_false, Bool.or_eq_true, beq_iff_eq, bne_iff_ne, ne_eq, not_not] at h1 h2 h3 h4
  subst h2
  rcases h1 with (rfl | rfl) | rfl <;> simp [allowedFilters, allowedBiases] at h3 h4 h
  · subst h3; subst h; rcases h4 with rfl | rfl <;> exact ⟨rfl, rfl⟩
  · rcases h3 with rfl | rfl <;> rcases h4 with rfl | rfl <;> simp at h <;> subst h <;> exact ⟨rfl, rfl⟩
  · subst h3; rcases h4 with rfl | rfl | rfl <;> simp at h <;> subst h <;> exact ⟨rfl, rfl⟩

/-- Fields that decode to a command are that command's fields (R94). -/
theorem decodeFields_ok (f : CmdFields) (i : Instr) (h : decodeFields f = .ok i) : i.form.fields = f := by
  obtain ⟨op, r0, it, ft, bt, ot, r1⟩ := f
  unfold decodeFields at h
  split at h; · cases h
  rename_i o ho
  split at h; · cases h
  rename_i hr
  simp only [CmdFields.reservedClear, Bool.not_eq_true', Bool.not_eq_false, Bool.and_eq_true, beq_iff_eq] at hr
  obtain ⟨rfl, rfl⟩ := hr
  simp only [Op.ofBits, beq_iff_eq] at ho
  split at ho
  · cases ho; rename_i e; subst e
    simp only [dispatch] at h
    rcases hd : dispatchConv it ft bt ot with e | p
    · rw [hd] at h; cases h
    · rw [hd] at h; cases h; exact (dispatchConv_ok _ _ _ _ _ hd).1
  split at ho
  · cases ho; rename_i e; subst e
    simp only [dispatch] at h
    rcases hd : dispatchConv it ft bt ot with e | p
    · rw [hd] at h; cases h
    · rw [hd] at h; cases h; exact (dispatchConv_ok _ _ _ _ _ hd).2
  split at ho
  · cases ho; rename_i e; subst e
    simp only [dispatch, dispatchUnpack] at h
    split at h; · cases h
    split at h; · cases h
    split at h; · cases h
    split at h; · cases h
    cases h
    simp_all [Form.fields, Instr.form, Tag.bits, Op.bits]
  · cases ho

end Sys2Proof
end

