-- ==== Sys2Proof/Laws/PerInstr.lean ====
section
/-! SUPPORT. Per command: it is well formed, and the fields read back from its CMD word are the ones its tags name (R91, R102). -/

namespace Sys2Proof.Laws.EncodesOwnWord

/-- The command is well formed, and its word holds its operation and tags, the reserved fields 0. -/
def Statement (i : Instr) : Prop := i.wellFormed = true ∧ CmdFields.ofWord (encode i) = i.form.fields

theorem convF32 : Statement .convF32 := ⟨rfl, rfl⟩
theorem convF32Nb : Statement .convF32Nb := ⟨rfl, rfl⟩
theorem convI8 : Statement .convI8 := ⟨rfl, rfl⟩
theorem convI8Nb : Statement .convI8Nb := ⟨rfl, rfl⟩
theorem convI8w4 : Statement .convI8w4 := ⟨rfl, rfl⟩
theorem convI8w4Nb : Statement .convI8w4Nb := ⟨rfl, rfl⟩
theorem convI16 : Statement .convI16 := ⟨rfl, rfl⟩
theorem convI16Nb : Statement .convI16Nb := ⟨rfl, rfl⟩
theorem convI16b64 : Statement .convI16b64 := ⟨rfl, rfl⟩
theorem dwconvF32 : Statement .dwconvF32 := ⟨rfl, rfl⟩
theorem dwconvF32Nb : Statement .dwconvF32Nb := ⟨rfl, rfl⟩
theorem dwconvI8 : Statement .dwconvI8 := ⟨rfl, rfl⟩
theorem dwconvI8Nb : Statement .dwconvI8Nb := ⟨rfl, rfl⟩
theorem dwconvI8w4 : Statement .dwconvI8w4 := ⟨rfl, rfl⟩
theorem dwconvI8w4Nb : Statement .dwconvI8w4Nb := ⟨rfl, rfl⟩
theorem dwconvI16 : Statement .dwconvI16 := ⟨rfl, rfl⟩
theorem dwconvI16Nb : Statement .dwconvI16Nb := ⟨rfl, rfl⟩
theorem dwconvI16b64 : Statement .dwconvI16b64 := ⟨rfl, rfl⟩
theorem unpack4 : Statement .unpack4 := ⟨rfl, rfl⟩

end Sys2Proof.Laws.EncodesOwnWord
end

