-- ==== Sys2Proof/Laws/Regions.lean ====
section
/-! SUPPORT. The active regions of a command and what its computation touches: it writes only OUT and SCR, reads only inside IN and the filter,
and keeps the canonical form of memory. -/

namespace Sys2Proof.Machine

/-- An active region is one of the six, each active for the commands R69 names. -/
theorem mem_regions_cases (f : Form) (o : Operands) (r : Region) (h : r ∈ regions f o) :
    (r = inRegion f o ∧ f.op ≠ .unpack4) ∨ r = fltRegion f o ∨ (r = biasRegion f o ∧ f.biasType ≠ .absent) ∨
    (r = qtabRegion o ∧ IntegerForm f) ∨ (r = outRegion f o ∧ f.op ≠ .unpack4) ∨ (r = scrRegion f o ∧ (f.op = .unpack4 ∨ f.fltType = .int4p)) := by
  unfold regions at h
  split at h
  · rename_i hc
    rw [isConv_iff] at hc
    simp only [List.mem_append, List.mem_cons, List.not_mem_nil, or_false] at h
    rcases h with (((h | h) | h) | h) | h
    · tauto
    · split at h <;> simp_all
    · split at h
      · rename_i hi; rw [isInt_iff] at hi; simp at h; tauto
      · simp at h
    · tauto
    · split at h
      · rename_i hp; rw [isPacked_iff] at hp; simp at h; tauto
      · simp at h
  · rename_i hc; have hc' : f.op = .unpack4 := by by_contra hh; exact hc ((isConv_iff f).2 hh)
    simp at h; tauto

theorem outRegion_mem (f : Form) (o : Operands) (h : f.op ≠ .unpack4) : outRegion f o ∈ regions f o := by
  simp [regions, (isConv_iff f).2 h]

theorem scrRegion_mem (f : Form) (o : Operands) (h : f.fltType = .int4p) : scrRegion f o ∈ regions f o := by
  unfold regions
  split
  · simp [(isPacked_iff f).2 h]
  · simp

theorem inRegion_mem (f : Form) (o : Operands) (h : f.op ≠ .unpack4) : inRegion f o ∈ regions f o := by
  simp [regions, (isConv_iff f).2 h]

theorem fltRegion_mem (f : Form) (o : Operands) : fltRegion f o ∈ regions f o := by
  unfold regions; split <;> simp

theorem biasRegion_mem (f : Form) (o : Operands) (h : f.op ≠ .unpack4) (hb : f.biasType ≠ .absent) : biasRegion f o ∈ regions f o := by
  simp [regions, (isConv_iff f).2 h, hb]

theorem qtabRegion_mem (f : Form) (o : Operands) (h : IntegerForm f) : qtabRegion o ∈ regions f o := by
  simp [regions, (isConv_iff f).2 h.1, (isInt_iff f).2 h]

theorem tensorBytes_eq (t : Tag) (E : Nat) (h : t ≠ .int4p) : tensorBytes t E = E * tagSize t := by
  cases t <;> first | rfl | exact absurd rfl h

/-- The tags of the nineteen commands. -/
theorem form_facts (i : Instr) :
    i.form.inType ≠ .int4p ∧ i.form.biasType ≠ .int4p ∧ i.form.outType ≠ .int4p ∧
    (IntegerForm i.form → i.form.fltType ≠ .int4p → i.form.fltType = .int8) ∧
    (¬ IntegerForm i.form → i.form.op ≠ .unpack4 →
      i.form.fltType = .float32 ∧ i.form.inType = .float32 ∧ i.form.outType = .float32 ∧
        (i.form.biasType = .absent ∨ i.form.biasType = .float32)) := by
  cases i <;> decide

/-- The computation of a command is one of four: the float path, an integer path, the packed path, or the unpack pass. -/
theorem workOf_kind (i : Instr) :
    (workOf i = floatPath i.form ∧ ¬ IntegerForm i.form ∧ i.form.op ≠ .unpack4) ∨
    (workOf i = integerPath i.form ∧ IntegerForm i.form ∧ i.form.fltType ≠ .int4p) ∨
    (workOf i = packedPath i.form ∧ IntegerForm i.form ∧ i.form.fltType = .int4p) ∨
    (workOf i = unpackPass i.form ∧ i.form.op = .unpack4 ∧ i.form.fltType = .int4p) := by
  cases i <;> first
    | exact .inl ⟨rfl, by decide, by decide⟩
    | exact .inr (.inl ⟨rfl, by decide, by decide⟩)
    | exact .inr (.inr (.inl ⟨rfl, by decide, by decide⟩))
    | exact .inr (.inr (.inr ⟨rfl, by decide, by decide⟩))

/-- The integer paths write the OUT region only. -/
theorem integerPath_outside (f : Form) (o : Operands) (m : Memory) (a : Nat)
    (h : ¬ (o.outAddr ≤ a ∧ a < o.outAddr + eOut o * tagSize f.outType)) :
    Memory.get (integerPath f o m) a = Memory.get m a := by
  rw [integerPath, integerCells_eq]; exact get_store_outCells_outside _ _ _ _ _ h

/-- The float path writes the OUT region only. -/
theorem floatPath_outside (f : Form) (o : Operands) (m : Memory) (a : Nat) (hf : f.outType = .float32)
    (h : ¬ (o.outAddr ≤ a ∧ a < o.outAddr + eOut o * 4)) :
    Memory.get (floatPath f o m) a = Memory.get m a := by
  rw [floatPath, floatCells_eq _ _ _ hf]; exact get_store_outCells_outside _ _ _ _ _ h

/-- The packed path writes the OUT and SCR regions only. -/
theorem packedPath_outside (f : Form) (o : Operands) (m : Memory) (a : Nat)
    (h : ¬ (o.outAddr ≤ a ∧ a < o.outAddr + eOut o * tagSize f.outType))
    (h2 : ¬ (o.scratchAddr ≤ a ∧ a < o.scratchAddr + eFlt f.op o)) :
    Memory.get (packedPath f o m) a = Memory.get m a := by
  rw [packedPath, integerCells_eq, get_store_outCells_outside _ _ _ _ _ h, get_unpackPass_outside _ _ _ _ h2]

/-- A command computes into its OUT and SCR regions only (R69, R257). -/
theorem workOf_outside (i : Instr) (o : Operands) (m : Memory) (a : Nat) (h : OutsideWritten i.form o a) :
    Memory.get (workOf i o m) a = Memory.get m a := by
  have hout : i.form.op ≠ .unpack4 → i.form.outType ≠ .int4p →
      ¬ (o.outAddr ≤ a ∧ a < o.outAddr + eOut o * tagSize i.form.outType) := by
    intro h1 h2
    have := h _ (outRegion_mem _ o h1) rfl
    rwa [outRegion, tensorBytes_eq _ _ h2] at this
  have hscr : i.form.fltType = .int4p → ¬ (o.scratchAddr ≤ a ∧ a < o.scratchAddr + eFlt i.form.op o) :=
    fun h1 => h _ (scrRegion_mem _ o h1) rfl
  cases i
  all_goals first
    | exact get_unpackPass_outside _ _ _ _ (hscr rfl)
    | exact packedPath_outside _ _ _ _ (hout (by decide) (by decide)) (hscr rfl)
    | exact floatPath_outside _ _ _ _ rfl (hout (by decide) (by decide))
    | exact integerPath_outside _ _ _ _ (hout (by decide) (by decide))

theorem inBounds_iff (o : Operands) (y x : Int) : inBounds o y x = true ↔ 0 ≤ y ∧ y < o.IH ∧ 0 ≤ x ∧ x < o.IW := by
  simp [inBounds, and_assoc]

/-- An in-bounds tap lies in the kernel and in the input. -/
theorem mem_windowTaps (o : Operands) (oy ox : Nat) (t : Tap) (h : t ∈ windowTaps o oy ox) :
    t.ky < o.KH ∧ t.kx < o.KW ∧ t.iy < o.IH ∧ t.ix < o.IW := by
  simp only [windowTaps, List.mem_flatMap, List.mem_range, List.mem_filterMap] at h
  obtain ⟨ky, hky, kx, hkx, h⟩ := h
  split at h
  · rename_i hb
    rw [inBounds_iff] at hb
    cases h
    refine ⟨hky, hkx, ?_, ?_⟩ <;> simp only <;> omega
  · cases h

/-- The terms of an output element lie in the IN region and the filter. -/
theorem terms_bound (f : Form) (o : Operands) (e : Elem) (he : e ∈ outputElems o)
    (hd : f.op = .dwconv → o.OC = o.IC * o.DM) (hop : f.op ≠ .unpack4) (t : Nat × Nat) (ht : t ∈ terms f o e) :
    o.inAddr ≤ t.1 ∧ t.1 + tagSize f.inType ≤ o.inAddr + eIn o * tagSize f.inType ∧ t.2 < eFlt f.op o := by
  obtain ⟨hn, hy, hx, hc⟩ := (mem_outputElems o e).1 he
  have addr : ∀ y x c, y < o.IH → x < o.IW → c < o.IC → o.inAddr ≤ addrIn f o e.n y x c ∧
      addrIn f o e.n y x c + tagSize f.inType ≤ o.inAddr + eIn o * tagSize f.inType := by
    intro y x c h1 h2 h3
    have := digit_lt (digit_lt (digit_lt hn h1) h2) h3
    have h : (((e.n * o.IH + y) * o.IW + x) * o.IC + c + 1) * tagSize f.inType ≤ eIn o * tagSize f.inType :=
      Nat.mul_le_mul_right _ this
    unfold addrIn
    rw [Nat.add_mul _ 1] at h
    omega
  cases hop' : f.op
  · have : terms f o e = termsStd f o e := by unfold terms; rw [hop']
    rw [this] at ht
    simp only [termsStd, List.mem_flatMap, List.mem_map, List.mem_range] at ht
    obtain ⟨w, hw, ic, hic, rfl⟩ := ht
    obtain ⟨a, b, c, d⟩ := mem_windowTaps _ _ _ _ hw
    have := addr w.iy w.ix ic c d hic
    exact ⟨this.1, this.2, digit_lt (digit_lt (digit_lt hc a) b) hic⟩
  · have : terms f o e = termsDw f o e := by unfold terms; rw [hop']
    rw [this] at ht
    simp only [termsDw, List.mem_map] at ht
    obtain ⟨w, hw, rfl⟩ := ht
    obtain ⟨a, b, c, d⟩ := mem_windowTaps _ _ _ _ hw
    have hcd : e.oc / o.DM < o.IC := by
      rw [hd hop'] at hc
      exact Nat.div_lt_of_lt_mul (by rwa [Nat.mul_comm])
    have := addr w.iy w.ix _ c d hcd
    refine ⟨this.1, this.2, digit_lt (digit_lt a b) hc⟩
  · exact absurd hop' hop

/-- Every flat index of the output is an output element. -/
theorem flatOut_surj (o : Operands) (x : Nat) (h : x < eOut o) : ∃ e ∈ outputElems o, flatOut o e = x := by
  unfold eOut at h
  have hOC : 0 < o.OC := Nat.pos_of_ne_zero (by rintro h0; simp [h0] at h)
  have hOW : 0 < o.OW := Nat.pos_of_ne_zero (by rintro h0; simp [h0] at h)
  have hOH : 0 < o.OH := Nat.pos_of_ne_zero (by rintro h0; simp [h0] at h)
  refine ⟨⟨x / o.OC / o.OW / o.OH, x / o.OC / o.OW % o.OH, x / o.OC % o.OW, x % o.OC⟩, ?_, ?_⟩
  · rw [mem_outputElems]
    refine ⟨?_, Nat.mod_lt _ hOH, Nat.mod_lt _ hOW, Nat.mod_lt _ hOC⟩
    simp only
    rw [Nat.div_lt_iff_lt_mul hOH, Nat.div_lt_iff_lt_mul hOW, Nat.div_lt_iff_lt_mul hOC]
    exact h
  · unfold flatOut
    simp only
    rw [Nat.mul_comm (x / o.OC / o.OW / o.OH), Nat.div_add_mod, Nat.mul_comm (x / o.OC / o.OW), Nat.div_add_mod,
      Nat.mul_comm (x / o.OC), Nat.div_add_mod]

/-- A command that passes phase 3 keeps the canonical form of memory. -/
theorem workOf_wf (i : Instr) (o : Operands) (m : Memory) (hN : NoCheckHolds i.form o) (hm : Memory.wf m) :
    Memory.wf (workOf i o m) := by
  have hreg : ∀ r ∈ regions i.form o, r.base + r.len ≤ addrSpace := by
    intro r hr; by_contra hc
    exact hN .regionRange (by decide) ⟨r, hr, by unfold addrSpace at hc; omega⟩
  have hout : ∀ {v}, i.form.op ≠ .unpack4 → ∀ c ∈ outCells o (tagSize i.form.outType) v, c.1 < addrSpace := by
    intro v hop c hc
    have h1 := hreg _ (outRegion_mem _ o hop)
    have h2 := outCells_range _ _ _ _ hc
    simp only [outRegion] at h1
    rw [tensorBytes_eq _ _ (form_facts i).2.2.1] at h1
    omega
  have hscr : i.form.fltType = .int4p → Memory.wf (unpackPass i.form o m) := by
    intro hp
    apply Memory.wf_store _ _ hm
    intro c hc
    obtain ⟨j, hj, rfl⟩ := List.mem_map.1 hc
    have h1 := hreg _ (scrRegion_mem _ o hp)
    have := List.mem_range.1 hj
    simp only [scrRegion] at h1
    simp only; omega
  have hkind := workOf_kind i
  rcases hkind with ⟨hk, h1, h2⟩ | ⟨hk, h1, h2⟩ | ⟨hk, h1, h2⟩ | ⟨hk, h1, h2⟩ <;> rw [hk]
  · have hf := ((form_facts i).2.2.2.2 h1 h2).2.2.1
    have hs : tagSize i.form.outType = 4 := by rw [hf]; rfl
    rw [floatPath, floatCells_eq _ _ _ hf]
    rw [hs] at hout
    exact Memory.wf_store _ _ hm (hout h2)
  · rw [integerPath, integerCells_eq]
    exact Memory.wf_store _ _ hm (hout h1.1)
  · rw [packedPath, integerCells_eq]
    exact Memory.wf_store _ _ (hscr h2) (hout h1.1)
  · exact hscr h2

end Sys2Proof.Machine
end

