-- ==== Sys2Proof/Laws/Step.lean ====
section
/-! SUPPORT. What the parts of a step can do: the choice of the engine that moves, a register access, a host access to data memory, and a
running command. -/

namespace Sys2Proof.Machine

/-! The engine that moves (R230). -/

/-- The engine that moves now is chosen first. -/
theorem focus_self (p : Engine → Bool) (s : State) (h : p s.eng = true) : focus p s = some s := by
  simp [focus, h]

theorem takeEngine_eq_none (p : Engine → Bool) (cur : Engine) (l : List Engine) (h : ∀ e ∈ l, p e = false) :
    takeEngine p cur l = none := by
  induction l with
  | nil => rfl
  | cons e l ih => simp [takeEngine, h e (by simp), ih fun x hx => h x (by simp [hx])]

theorem takeEngine_isSome (p : Engine → Bool) (cur : Engine) (l : List Engine) (h : ∃ e ∈ l, p e = true) :
    ∃ x, takeEngine p cur l = some x := by
  induction l with
  | nil => simp at h
  | cons e l ih =>
    by_cases hp : p e = true
    · simp [takeEngine, hp]
    · obtain ⟨x, hx, hpx⟩ := h
      rcases List.mem_cons.1 hx with rfl | hx
      · exact absurd hpx hp
      · obtain ⟨y, hy⟩ := ih ⟨x, hx, hpx⟩
        simp [takeEngine, hp, hy]

/-- The engine taken qualifies, and no engine is lost. -/
theorem takeEngine_eq_some (p : Engine → Bool) (cur : Engine) (l : List Engine) (x : Engine × List Engine)
    (h : takeEngine p cur l = some x) : p x.1 = true ∧ (x.1 :: x.2).Perm (cur :: l) := by
  induction l generalizing x with
  | nil => cases h
  | cons e l ih =>
    simp only [takeEngine] at h
    split at h
    · rename_i hp; cases h; exact ⟨hp, List.Perm.swap ..⟩
    · rcases hy : takeEngine p cur l with _ | y
      · simp [hy] at h
      · simp only [hy, Option.map_some, Option.some.injEq] at h
        subst h
        obtain ⟨h1, h2⟩ := ih _ hy
        exact ⟨h1, (List.Perm.swap ..).trans ((h2.cons e).trans (List.Perm.swap ..))⟩

/-! Register accesses (R21). -/

theorem focus_block (s : State) (addr : Nat) (h1 : s.eng.base ≤ addr) (h2 : addr < s.eng.base + 256) :
    focus (fun e => inRange e.block addr) s = some s :=
  focus_self _ _ ((inRange_iff ..).2 ⟨h1, h2⟩)

/-- An aligned word access to the block of the engine that moves. -/
theorem withBlock_self (s : State) (off : Nat) (h : off < 256) (h4 : off % 4 = 0) (k : Nat → State → State) :
    withBlock (s.eng.base + off) 4 s k = .next (k off s) := by
  have ha := s.eng.base_aligned
  rw [withBlock, focus_block s _ (by omega) (by omega)]
  simp [show (s.eng.base + off) % 4 = 0 by omega]

/-- A register access that is served is served on the engine whose block holds the address. -/
theorem withBlock_next (addr width : Nat) (s t : State) (k : Nat → State → State) (h : withBlock addr width s k = .next t) :
    ∃ s1 off, focus (fun e => inRange e.block addr) s = some s1 ∧ t = k off s1 := by
  unfold withBlock at h
  split at h
  · cases h
  · simp only at h
    split at h
    · cases h; exact ⟨_, _, ‹_›, rfl⟩
    · cases h

theorem regAt_offset (r : Reg) : regAt r.offset = some r := by cases r <;> rfl

theorem regAt_reserved (off : Nat) (h : off = 0x1C ∨ (0x90 ≤ off ∧ off ≤ 0xFC)) : regAt off = none := by
  rw [regAt, List.find?_eq_none]
  intro r _
  cases r <;> simp [Reg.offset] <;> omega

/-- A write to CTRL while the engine runs sets IRQ_EN and nothing else (R22). -/
theorem Engine.writeCtrl_busy (e : Engine) (v : Word) (h : e.busy = true) :
    e.writeCtrl v = { e with irqEn := v.getLsbD 1 } := by
  show (if v.getLsbD 0 && !e.busy then _ else _) = _
  rw [h]; simp only [Bool.not_true, Bool.and_false]; rfl

/-- A write to CTRL with bit 0 clear sets IRQ_EN and nothing else (R25). -/
theorem Engine.writeCtrl_noStart (e : Engine) (v : Word) (h : v.getLsbD 0 = false) :
    e.writeCtrl v = { e with irqEn := v.getLsbD 1 } := by
  show (if v.getLsbD 0 && !e.busy then _ else _) = _
  rw [h]; simp only [Bool.false_and]; rfl

/-! Polls (R100, R254). -/

/-- An unsuccessful poll lets the polled engine's running command complete before it reads again. -/
theorem complete_mem_pollProgress_self (s : State) (h : s.eng.busy = true) : .complete s.eng.base ∈ pollProgress s := by
  simp [pollProgress, h]

/-- An unsuccessful poll of an idle engine lets every command running on another engine complete before it reads again. -/
theorem complete_mem_pollProgress_other (s : State) (h : s.eng.busy = false) (e : Engine) (he : e ∈ s.others) (hb : e.busy = true) :
    .complete e.base ∈ pollProgress s := by
  simp only [pollProgress, h, Bool.false_eq_true, if_false, List.mem_map, List.mem_filter]
  exact ⟨e, ⟨he, hb⟩, rfl⟩

/-- What a poll does: one host read, and while it fails the progress and the poll itself come first among the inputs. -/
theorem hostPoll_eq (addr : Nat) (mask value : Word) (off : Nat) (s : State) :
    hostPoll addr mask value off s = { hostRead off s with
      inputs := if s.eng.readAt off &&& mask = value then s.inputs else pollProgress s ++ .poll addr mask value :: s.inputs } := by
  unfold hostPoll
  split <;> rfl

/-! Host accesses to data memory (R60, R61, R72). -/

theorem hostAccess_next {a : Nat} {k : AccessKind} {s u : State} {t : Host.Outcome State Fault Refusal}
    (h : hostAccess a k s t = .next u) : a < addrSpace ∧ t = .next u := by
  unfold hostAccess at h
  split at h; · cases h
  split at h; · cases h
  split at h; · cases h
  exact ⟨by omega, h⟩

/-! A running command. -/

/-- With no input pending, a running CMD word that is no command ends in its error (R94, R113). -/
theorem step_error (s : State) (e : CmdError) (h1 : s.inputs = []) (h2 : s.eng.phase = .run)
    (hd : decode s.eng.cmd = .error e) : step s = .next (raiseErr (ErrRecord.ofCmdError e) s) := by
  simp only [step, advance, h1, runPending, focus_self _ _ ((Engine.busy_iff _).2 h2), runEngine, hd]

end Sys2Proof.Machine
end

