-- ==== Sys2Proof/Tests/Slice0.lean ====
section
/-! SUPPORT. Tests with expected values from spec/ (95_test_vectors.md and the examples of the rules), the well-formedness smoke test, and a
witness for the hypotheses of each obligation. -/

namespace Sys2Proof.Tests

open Sys2Proof Sys2Proof.Machine

-- Checking every test on a thread of its own asks for more threads than the memory limit allows.
set_option Elab.async false

/-! ## Helpers -/

/-- Bytes placed from an address upward. -/
def bytes (a : Nat) (l : List Byte) : List Host.Cell := l.zipIdx.map fun x => (a + x.2, x.1)

/-- Base configuration B of 95_test_vectors.md L2.2, with a scratch buffer of 4 bytes at 0x1500 and DEPTH_MULT 1. -/
def descB : Descriptors :=
  { Descriptors.reset with
    dimN := 1, dimIH := 1, dimIW := 1, dimIC := 2, dimOH := 1, dimOW := 1, dimOC := 2, dimKH := 1, dimKW := 1
    depthMult := 1, strideH := 1, strideW := 1, dilH := 1, dilW := 1
    actMin := 0xFFFFFF80, actMax := 127
    inAddr := 0x1000, fltAddr := 0x1100, biasAddr := 0x1200, qtabAddr := 0x1300, outAddr := 0x1400
    qtabLen := 2, scratchAddr := 0x1500, scratchLen := 4 }

/-- One output channel from two input channels (the examples of 44_conv.md). -/
def descOne : Descriptors := { descB with dimOC := 1, qtabLen := 1 }

/-- As `descOne` with the activation bounds of int16. -/
def descOne16 : Descriptors := { descOne with actMin := 0xFFFF8000, actMax := 32767 }

/-- The table entry (0x40000000, S) with S in [0, 255]. -/
def entry (S : Byte) : List Byte := [0, 0, 0, 0x40, S, 0, 0, 0]

/-- The table of B: two entries Half. -/
def tableB : List Host.Cell := bytes 0x1300 (entry 0 ++ entry 0)

/-- An engine that has accepted START on CMD word `w` with descriptors `d`, memory holding `cells`. -/
def running (d : Descriptors) (w : Word) (cells : List Host.Cell) : State :=
  startWord { State.reset with eng := { Engine.reset 0x400000 with desc := d }, mem := Memory.store [] cells } w

/-- B running CMD word `w`. -/
def runB (w : Word) : State := running descB w tableB

/-- A second engine running `conv.i8` on B but for its output address. -/
def otherEngine (out : Word) : Engine :=
  Engine.start { Engine.reset 0x400001 with cmd := 0x00252201, desc := { descB with outAddr := out } }

/-- STATUS and the `n` bytes at `a` after a step that answers a next state. -/
def result (a n : Nat) : Host.Outcome State Fault Refusal → Option (Word × List Byte)
  | .next t => some (t.eng.statusWord, (List.range n).map fun i => Memory.get t.mem (a + i))
  | _ => none

/-- STATUS, ERR_INFO and ERR_ADDR after a step that answers a next state. -/
def errorRegs : Host.Outcome State Fault Refusal → Option (Word × Word × Word)
  | .next t => some (t.eng.statusWord, t.eng.errInfo, t.eng.errAddr)
  | _ => none

/-- STATUS, ERR_INFO and ERR_ADDR at the end of a command, with whether memory is unchanged. -/
def endOf (s : State) : Option (Word × Word × Word × Bool) :=
  match step s with
  | .next t => some (t.eng.statusWord, t.eng.errInfo, t.eng.errAddr, t.mem == s.mem)
  | _ => none

/-! ## Well-formedness: each check refuses a term (R91, R93, R95, R96) -/

theorem test_wellFormed_accepts : (CmdFields.ofWord 0x00252201#32).wellFormed = true := by decide

theorem test_wellFormed_refuses_op : (CmdFields.ofWord 0x00252204#32).opDefined = false := by decide

theorem test_wellFormed_refuses_reserved :
    (CmdFields.ofWord 0x00252211#32).reservedClear = false ∧ (CmdFields.ofWord 0x01252201#32).reservedClear = false := by decide

theorem test_wellFormed_refuses_tags :
    (CmdFields.ofWord 0x00253201#32).tagsSupported = false ∧ (CmdFields.ofWord 0x00002203#32).tagsSupported = false := by decide

theorem test_wellFormed_refuses_whole :
    (CmdFields.ofWord 0#32).wellFormed = false ∧ (CmdFields.ofWord 0x00252211#32).wellFormed = false ∧
      (CmdFields.ofWord 0x00253201#32).wellFormed = false := by decide

/-! ## Decoding: the words of R102, and three words field by field as R91 to R93 lay them out -/

theorem test_decode_conv :
    decode 0x00111101#32 = .ok .convF32 ∧ decode 0x00101101#32 = .ok .convF32Nb ∧ decode 0x00252201#32 = .ok .convI8 ∧
    decode 0x00202201#32 = .ok .convI8Nb ∧ decode 0x00254201#32 = .ok .convI8w4 ∧ decode 0x00204201#32 = .ok .convI8w4Nb ∧
    decode 0x00352301#32 = .ok .convI16 ∧ decode 0x00302301#32 = .ok .convI16Nb ∧ decode 0x00362301#32 = .ok .convI16b64 :=
  ⟨rfl, rfl, rfl, rfl, rfl, rfl, rfl, rfl, rfl⟩

theorem test_decode_dwconv :
    decode 0x00111102#32 = .ok .dwconvF32 ∧ decode 0x00101102#32 = .ok .dwconvF32Nb ∧ decode 0x00252202#32 = .ok .dwconvI8 ∧
    decode 0x00202202#32 = .ok .dwconvI8Nb ∧ decode 0x00254202#32 = .ok .dwconvI8w4 ∧ decode 0x00204202#32 = .ok .dwconvI8w4Nb ∧
    decode 0x00352302#32 = .ok .dwconvI16 ∧ decode 0x00302302#32 = .ok .dwconvI16Nb ∧ decode 0x00362302#32 = .ok .dwconvI16b64 :=
  ⟨rfl, rfl, rfl, rfl, rfl, rfl, rfl, rfl, rfl⟩

theorem test_decode_unpack4 : decode 0x00004003#32 = .ok .unpack4 := rfl

/-- Bits 31:24 zero, OUT_TYPE INT8, BIAS_TYPE INT32, FLT_TYPE INT4P, IN_TYPE INT8, bits 7:4 zero, OP CONV. -/
theorem test_decode_bits_conv :
    decode (0b00000000#8 ++ (0b0010#4 ++ (0b0101#4 ++ (0b0100#4 ++ (0b0010#4 ++ (0b0000#4 ++ 0b0001#4)))))) = .ok .convI8w4 := rfl

/-- OUT_TYPE INT16, BIAS_TYPE INT64, FLT_TYPE INT8, IN_TYPE INT16, OP DWCONV. -/
theorem test_decode_bits_dwconv :
    decode (0b00000000#8 ++ (0b0011#4 ++ (0b0110#4 ++ (0b0010#4 ++ (0b0011#4 ++ (0b0000#4 ++ 0b0010#4)))))) = .ok .dwconvI16b64 := rfl

/-- FLT_TYPE INT4P alone, OP UNPACK4. -/
theorem test_decode_bits_unpack4 :
    decode (0b00000000#8 ++ (0b0000#4 ++ (0b0000#4 ++ (0b0100#4 ++ (0b0000#4 ++ (0b0000#4 ++ 0b0011#4)))))) = .ok .unpack4 := rfl

/-- S2 and D1 to D20: the end of a command whose CMD word is none of the 19, and memory unchanged. -/
theorem test_decode_errors :
    [endOf (runB 0x00000000#32),
      endOf (runB 0x0025220F#32),
      endOf (runB 0x80FFFF10#32),
      endOf (runB 0x00252211#32),
      endOf (runB 0x01252201#32)]
      = [some (0x106#32, 0x1#32, 0, true), some (0x106#32, 0x1#32, 0, true), some (0x106#32, 0x1#32, 0, true),
        some (0x106#32, 0x2#32, 0, true), some (0x106#32, 0x2#32, 0, true)] := by decide +kernel

theorem test_unsupported_tags :
    [endOf (runB 0x00253201#32),
      endOf (runB 0x00202701#32),
      endOf (runB 0x00111201#32),
      endOf (runB 0x00264201#32),
      endOf (runB 0x00354301#32),
      endOf (runB 0x00554203#32)]
      = [some (0x206#32, 0x3200#32, 0, true), some (0x206#32, 0x7100#32, 0, true), some (0x206#32, 0x1400#32, 0, true),
        some (0x206#32, 0x6300#32, 0, true), some (0x206#32, 0x4200#32, 0, true), some (0x206#32, 0x2100#32, 0, true)] := by decide +kernel

/-! ## The commands: the examples of R142, R190 to R194 and R200 to R204, and vectors of 95_test_vectors.md -/

/-- R190's example: the terms and the bias. -/
theorem test_convF32 :
    floatTerms Instr.convF32.form (operandsOf descOne)
      (Memory.store [] (bytes 0x1000 [0, 0, 0x80, 0x3F, 0, 0, 0, 0x40] ++ bytes 0x1100 [0, 0, 0x40, 0x40, 0, 0, 0, 0x3F])) ⟨0, 0, 0, 0⟩
      = [(0x3F800000#32, 0x40400000#32), (0x40000000#32, 0x3F000000#32)] ∧
    floatBias Instr.convF32.form (operandsOf descOne) (Memory.store [] (bytes 0x1200 [0, 0, 0x80, 0x3F])) 0 = some 0x3F800000#32 := by
  decide +kernel

/-- K26 without its bounds: an integer path's checks do not apply to a float path. -/
theorem test_convF32Nb_ignores_table :
    errorRegs (exec .convF32Nb (running { descB with qtabLen := 7, inZp := 1000, actMin := 1, actMax := 0 } 0x00101101#32 []))
      = some (2#32, 0, 0) := by decide +kernel

theorem test_convI8 :
    result 0x1400 1 (step (running { descOne with inZp := 1, outZp := 0xFFFFFFFB } 0x00252201#32
      (bytes 0x1000 [10, 0xEC] ++ bytes 0x1100 [3, 0xFE] ++ bytes 0x1200 [7] ++ bytes 0x1300 (entry 0)))) = some (2#32, [0x21]) := by
  decide +kernel

/-- A5: the accumulator wraps at 32 bits. -/
theorem test_convI8_wraps :
    result 0x1400 1 (step (running { descOne with dimIC := 1 } 0x00252201#32
      (bytes 0x1000 [1] ++ bytes 0x1100 [1] ++ bytes 0x1200 [0xFF, 0xFF, 0xFF, 0x7F] ++ bytes 0x1300 (entry 1))))
      = some (2#32, [0x80]) := by decide +kernel

/-- A1: a padded tap adds nothing. -/
theorem test_convI8Nb_padding :
    result 0x1400 1 (step (running
      { descOne with dimIC := 1, dimKH := 3, dimKW := 3, padH := 1, padW := 1, inZp := 0xFFFFFFFE } 0x00202201#32
      (bytes 0x1000 [3] ++ bytes 0x1100 [1, 1, 1, 1, 1, 1, 1, 1, 1] ++ bytes 0x1300 (entry 1)))) = some (2#32, [5]) := by
  decide +kernel

/-- A3: dilation. -/
theorem test_convI8Nb_dilation :
    result 0x1400 3 (step (running { descOne with dimIC := 1, dimIW := 5, dimOW := 3, dimKW := 2, dilW := 2 } 0x00202201#32
      (bytes 0x1000 [1, 2, 3, 4, 5] ++ bytes 0x1100 [1, 10] ++ bytes 0x1300 (entry 1)))) = some (2#32, [0x1F, 0x2A, 0x35]) := by
  decide +kernel

/-- R192's example with a bias of 0: the output byte. -/
theorem test_convI8w4 :
    result 0x1400 1 (step (running { descOne with scratchLen := 2 } 0x00254201#32
      (bytes 0x1000 [10, 0xEC] ++ bytes 0x1100 [0xE3] ++ bytes 0x1300 (entry 1)))) = some (2#32, [0x46]) := by decide +kernel

theorem test_convI8w4Nb :
    result 0x1500 2 (step (running descOne 0x00204201#32
      (bytes 0x1000 [10, 0xEC] ++ bytes 0x1100 [0xE3] ++ bytes 0x1300 (entry 1)))) = some (2#32, [3, 0xFE]) := by decide +kernel

theorem test_convI16 :
    result 0x1400 2 (step (running descOne16 0x00352301#32
      (bytes 0x1000 [0xE8, 3, 0x30, 0xF8] ++ bytes 0x1100 [100, 50] ++ bytes 0x1200 [0xF0, 0xD8, 0xFF, 0xFF] ++
        bytes 0x1300 (entry 0)))) = some (2#32, [0x78, 0xEC]) := by decide +kernel

/-- A6: a 64-bit accumulator does not wrap where A5's does. -/
theorem test_convI16_wide :
    result 0x1400 2 (step (running { descOne16 with dimIC := 1 } 0x00352301#32
      (bytes 0x1000 [1, 0] ++ bytes 0x1100 [1] ++ bytes 0x1200 [0xFF, 0xFF, 0xFF, 0x7F] ++ bytes 0x1300 (entry 1))))
      = some (2#32, [0xFF, 0x7F]) := by decide +kernel

/-- A4: stride and padding. -/
theorem test_convI16Nb :
    result 0x1400 4 (step (running
      { descOne16 with dimIC := 1, dimIW := 4, dimOW := 2, dimKW := 3, strideW := 2, padW := 1 } 0x00302301#32
      (bytes 0x1000 [1, 0, 2, 0, 3, 0, 4, 0] ++ bytes 0x1100 [1, 10, 100] ++ bytes 0x1300 (entry 1))))
      = some (2#32, [0xD2, 0, 0xB0, 1]) := by decide +kernel

theorem test_convI16b64 :
    result 0x1400 2 (step (running descOne16 0x00362301#32
      (bytes 0x1000 [0xFF, 0x7F, 0xFF, 0x7F] ++ bytes 0x1100 [127, 127] ++ bytes 0x1200 [0, 0, 0, 0, 0, 1, 0, 0] ++
        bytes 0x1300 (entry 0)))) = some (2#32, [0xFF, 0x7F]) := by decide +kernel

/-- R200's example: the terms of the two channels. -/
theorem test_dwconvF32Nb :
    [0, 1].map (fun oc => floatTerms Instr.dwconvF32Nb.form (operandsOf { descB with dimIC := 1, depthMult := 2 })
      (Memory.store [] (bytes 0x1000 [0, 0, 0, 0x40] ++ bytes 0x1100 [0, 0, 0x80, 0x3F, 0, 0, 0x80, 0xBF])) ⟨0, 0, 0, oc⟩)
      = [[(0x40000000#32, 0x3F800000#32)], [(0x40000000#32, 0xBF800000#32)]] := by decide +kernel

/-- R44: DWCONV checks the depth on the float path too. -/
theorem test_dwconvF32_depth :
    errorRegs (exec .dwconvF32 (running { descB with depthMult := 2 } 0x00111102#32 [])) = some (0x306#32, 2#32, 0) := by
  decide +kernel

/-- S1, on 16 channels. -/
theorem test_dwconvI8 :
    result 0x1400 16 (step (running { descB with dimIC := 16, dimOC := 16, qtabLen := 16 } 0x00252202#32
      (bytes 0x1000 (List.replicate 16 5) ++ bytes 0x1100 (List.replicate 16 1) ++
        bytes 0x1300 (List.replicate 16 (entry 0)).flatten))) = some (2#32, List.replicate 16 3) := by decide +kernel

/-- S5: per-channel scaling. -/
theorem test_dwconvI8_pointwise :
    result 0x1400 4 (step (running { descB with dimIW := 2, dimOW := 2, inZp := 2 } 0x00252202#32
      (bytes 0x1000 [10, 0xFC, 0, 127] ++ bytes 0x1100 [3, 0xFF] ++ bytes 0x1200 [5, 0, 0, 0, 0xFA, 0xFF, 0xFF, 0xFF] ++
        bytes 0x1300 (entry 1 ++ entry 0)))) = some (2#32, [0x1D, 0, 0xFF, 0xBE]) := by decide +kernel

/-- A7: the depth multiplier. -/
theorem test_dwconvI8Nb :
    result 0x1400 4 (step (running { descB with dimOC := 4, depthMult := 2, qtabLen := 4 } 0x00202202#32
      (bytes 0x1000 [10, 20] ++ bytes 0x1100 [1, 2, 3, 4] ++ bytes 0x1300 (List.replicate 4 (entry 1)).flatten)))
      = some (2#32, [0x0A, 0x14, 0x3C, 0x50]) := by decide +kernel

theorem test_dwconvI8w4 :
    result 0x1400 2 (step (running { descB with dimIC := 1, depthMult := 2 } 0x00254202#32
      (bytes 0x1000 [7] ++ bytes 0x1100 [0x9F] ++ bytes 0x1200 [1, 0, 0, 0, 2] ++ tableB))) = some (2#32, [0xFD, 0xE8]) := by
  decide +kernel

/-- R202's example: the scratch bytes, and that two of the four scratch bytes stay. -/
theorem test_dwconvI8w4Nb_scratch :
    result 0x1500 4 (step (running { descB with dimIC := 1, depthMult := 2 } 0x00204202#32
      (bytes 0x1000 [7] ++ bytes 0x1100 [0x9F] ++ tableB ++ bytes 0x1500 [0xAA, 0xAA, 0xAA, 0xAA])))
      = some (2#32, [0xFF, 0xF9, 0xAA, 0xAA]) := by decide +kernel

/-- P6's command B. -/
theorem test_dwconvI16Nb :
    result 0x1400 4 (step (running
      { descOne16 with dimOC := 2, qtabLen := 2, dimIW := 2, dimKW := 2, inZp := 100 } 0x00302302#32
      (bytes 0x1000 [0xFF, 0x7F, 0xF2, 0xFD, 0xFF, 0x7F, 0xD4, 2] ++ bytes 0x1100 [2, 1, 0xFF, 4] ++
        bytes 0x1300 (entry 1 ++ entry 1)))) = some (2#32, [0x9B, 0x7F, 0x4E, 7]) := by decide +kernel

/-- R203's example with a bias of 0. -/
theorem test_dwconvI16 :
    result 0x1400 2 (step (running { descOne16 with dimIC := 1 } 0x00352302#32
      (bytes 0x1000 [0xD4, 0xFE] ++ bytes 0x1100 [0x9C] ++ bytes 0x1300 (entry 1)))) = some (2#32, [0x30, 0x75]) := by
  decide +kernel

theorem test_dwconvI16b64 :
    result 0x1400 4 (step (running { descOne16 with dimOC := 2, qtabLen := 2 } 0x00362302#32
      (bytes 0x1000 [100, 0, 0x9C, 0xFF] ++ bytes 0x1100 [2, 3] ++
        bytes 0x1200 [0, 0, 0, 0, 0xFE, 0xFF, 0xFF, 0xFF, 5] ++ tableB))) = some (2#32, [0, 0x80, 0x6C, 0xFF]) := by decide +kernel

/-- U2. -/
theorem test_unpack4 :
    result 0x1500 4 (step (runB 0x00004003#32 |> fun s => { s with mem := Memory.store [] (bytes 0x1100 [0x7F, 0x80]) }))
      = some (2#32, [0xFF, 7, 0, 0xF8]) := by decide +kernel

/-- U3: an odd count ignores the last high nibble and leaves the rest of the scratch buffer. -/
theorem test_unpack4_odd :
    result 0x1500 6 (step (running { Descriptors.reset with
        dimOC := 5, dimKH := 1, dimKW := 1, dimIC := 1, fltAddr := 0x1100, scratchAddr := 0x1500, scratchLen := 6 } 0x00004003#32
      (bytes 0x1100 [0x98, 0x7F, 0xA5] ++ bytes 0x1500 (List.replicate 6 0xAA)))) = some (2#32, [0xF8, 0xF9, 0xFF, 7, 5, 0xAA]) := by
  decide +kernel

/-! ## Requantization (L2.6) and the nibbles of S4 -/

theorem test_scaled :
    [scaled 5 0x40000000 0, scaled (-5) 0x40000000 0, scaled 3 0x40000000 (-1), scaled 2 0x40000000 (-1), scaled (-2) 0x40000000 (-1),
      scaled 100 0x5A000000 (-3), scaled 5 0x60000000 (-2), scaled 7 0x40000000 31, scaled 2147483647 0x7FFFFFFF (-31),
      scaled (2 ^ 63 - 1) 0x7FFFFFFF 0, scaled (-2 ^ 63) (-2 ^ 31) 31, scaled 10 (-2 ^ 30) 0]
      = [3, -3, 1, 1, -1, 9, 1, 7516192768, 1, 9223372032559808511, 2 ^ 94, -5] := by decide +kernel

theorem test_requant :
    [requant 1000 0x7FFFFFFF 0 0 (-128) 127 .int8, requant 1000 0x7FFFFFFF 0 0 (-32768) 32767 .int16,
      requant (-2 ^ 63) 0x7FFFFFFF 0 0 (-32768) 32767 .int16, requant 76 0x40000000 0 (-5) (-128) 127 .int8,
      requant (-300) 0x40000000 0 10 0 6 .int8] = [127, 1000, -32768, 33, 0] := by decide +kernel

theorem test_nibbles :
    (List.range 16).map (fun n => unpackElem (Memory.put [] 0x1100 (BitVec.ofNat 8 n)) 0x1100 0)
      = [0, 1, 2, 3, 4, 5, 6, 7, -8, -7, -6, -5, -4, -3, -2, -1] := by decide +kernel

/-! ## Configuration checks and bus errors (L2.2, L2.3) -/

theorem test_checks_conv :
    [endOf (running { descB with strideW := 0 } 0x00252201#32 tableB),
      endOf (running { descB with qtabLen := 3 } 0x00252201#32 tableB),
      endOf (running { descB with inZp := 128 } 0x00252201#32 tableB),
      endOf (running { descB with outZp := 0xFFFFFF7F } 0x00252201#32 tableB),
      endOf (running { descB with actMin := 5, actMax := 4 } 0x00252201#32 tableB),
      endOf (running { descB with outAddr := 0xFFFFFFFF } 0x00252201#32 tableB),
      endOf (running { descB with outAddr := 0x1001 } 0x00252201#32 tableB),
      endOf (running { descB with strideH := 0, qtabLen := 3 } 0x00252201#32 tableB)]
      = [some (0x306#32, 1#32, 0, true), some (0x306#32, 3#32, 0, true), some (0x306#32, 6#32, 0, true),
        some (0x306#32, 6#32, 0, true), some (0x306#32, 7#32, 0, true), some (0x306#32, 8#32, 0, true),
        some (0x306#32, 9#32, 0, true), some (0x306#32, 1#32, 0, true)] := by
  decide +kernel

theorem test_checks_other :
    [endOf (running { descB with depthMult := 0 } 0x00252202#32 tableB),
      endOf (running { descB with depthMult := 2 } 0x00252202#32 tableB),
      endOf (running { descB with scratchLen := 0 } 0x00254201#32 tableB),
      endOf (running { descB with scratchLen := 3 } 0x00254201#32 tableB),
      endOf (running { descB with scratchAddr := 0x1400 } 0x00254201#32 tableB),
      endOf (running { descB with scratchLen := 0 } 0x00004003#32 tableB)]
      = [some (0x306#32, 1#32, 0, true), some (0x306#32, 2#32, 0, true), some (0x306#32, 4#32, 0, true),
        some (0x306#32, 5#32, 0, true), some (0x306#32, 9#32, 0, true), some (0x306#32, 4#32, 0, true)] := by decide +kernel

/-- K13, K17, K19 and K27 succeed. -/
theorem test_checks_pass :
    errorRegs (step (running { descB with inZp := 128 } 0x00352301#32 tableB)) = some (2#32, 0, 0) ∧
    errorRegs (step (running { descB with outAddr := 0xFFFFFFFE } 0x00252201#32 tableB)) = some (2#32, 0, 0) ∧
    errorRegs (step (running { descB with fltAddr := 0x1000 } 0x00252201#32 tableB)) = some (2#32, 0, 0) ∧
    endOf (running { descB with dimKH := 0, scratchLen := 1 } 0x00004003#32 tableB) = some (2#32, 0, 0, true) := by decide +kernel

/-- K21, K22. -/
theorem test_shift_range :
    endOf (running descB 0x00252201#32 (bytes 0x1300 (entry 0 ++ entry 32))) = some (0x306#32, 0x1000A#32, 0x130C#32, true) ∧
    endOf (running descB 0x00252201#32 (bytes 0x1300 ([0, 0, 0, 0x40, 0xE0, 0xFF, 0xFF, 0xFF] ++ entry 40)))
      = some (0x306#32, 0xA#32, 0x1304#32, true) := by decide +kernel

/-- B with reads at 0x1309 unadmitted. -/
def noTableByte (S : Byte) : State :=
  { running descB 0x00252201#32 (bytes 0x1300 (entry S ++ entry 0)) with platform := ⟨[⟨0x1309, 1⟩], [], []⟩ }

/-- E1, E2. -/
theorem test_table_bus_error :
    endOf (noTableByte 0) = some (0x406#32, 0x10001#32, 0x1309#32, true) ∧
    endOf (noTableByte 99) = some (0x306#32, 0xA#32, 0x1304#32, true) := by decide +kernel

/-- E3's state: reads at 0x1001 unadmitted. -/
def noInputByte : State := { runB 0x00252201#32 with platform := ⟨[⟨0x1001, 1⟩], [], []⟩ }

/-- E4's state: writes at 0x1401 unadmitted. -/
def noOutputByte : State := { runB 0x00252201#32 with platform := ⟨[], [⟨0x1401, 1⟩], []⟩ }

theorem test_fault_sets :
    faultSet Instr.convI8.form noInputByte.platform noInputByte.operands = [(0x1001, .read)] ∧
    faultSet Instr.convI8.form noOutputByte.platform noOutputByte.operands = [(0x1401, .write)] := by decide +kernel

/-- E3 and E4: one unadmitted access is the one reported. -/
theorem test_execution_bus_error :
    (∃ t, exec .convI8 noInputByte = .next t ∧ t.eng.statusWord = 0x406#32 ∧ t.eng.errInfo = 1#32 ∧ t.eng.errAddr = 0x1001#32) ∧
    (∃ t, exec .convI8 noOutputByte = .next t ∧ t.eng.statusWord = 0x406#32 ∧ t.eng.errInfo = 2#32 ∧ t.eng.errAddr = 0x1401#32) := by
  have pick : ∀ draw x, busPickOf draw x [] = x := fun draw x => by simp [busPickOf, Nat.mod_one]
  constructor
  · refine ⟨busFault (regions Instr.convI8.form noInputByte.operands) (0x1001, .read) [] noInputByte, ?_, ?_⟩
    · rw [exec_eq_runCommand, runCommand_of_duties _ _ _ ((configError_eq_none_iff ..).1 (by decide +kernel))
        (dutiesKept_of_checks _ _ (by decide +kernel) (by decide +kernel))]
      simp only [runMemoryPhases, test_fault_sets.1,
        (by decide +kernel : tableError Instr.convI8.form noInputByte.platform noInputByte.mem noInputByte.operands = none)]
    · simp only [busFault, pick]
      decide +kernel
  · refine ⟨busFault (regions Instr.convI8.form noOutputByte.operands) (0x1401, .write) [] noOutputByte, ?_, ?_⟩
    · rw [exec_eq_runCommand, runCommand_of_duties _ _ _ ((configError_eq_none_iff ..).1 (by decide +kernel))
        (dutiesKept_of_checks _ _ (by decide +kernel) (by decide +kernel))]
      simp only [runMemoryPhases, test_fault_sets.2,
        (by decide +kernel : tableError Instr.convI8.form noOutputByte.platform noOutputByte.mem noOutputByte.operands = none)]
    · simp only [busFault, pick]
      decide +kernel

/-- U8: of two conflicting commands, one that fails a configuration check is refused as well. -/
theorem test_conflict_before_checks :
    exec .convI8 { running { descB with qtabLen := 3 } 0x00252201#32 tableB with others := [otherEngine 0x1401] }
      = .refused .enginesConflict :=
  (exec_eq_runCommand _ _).trans (runCommand_of_conflict _ _ _ (by decide +kernel))

/-- E6: without a bias the bias bytes are accessed by nothing. -/
theorem test_absent_bias_not_accessed :
    errorRegs (exec .convI8Nb { runB 0x00202201#32 with platform := ⟨[⟨0x1204, 1⟩], [], []⟩ }) = some (2#32, 0, 0) := by decide +kernel

/-! ## Register block, interrupt, reset (L2.7) -/

/-- The word a one-step host read returns. -/
def readWord (e : Engine) (off : Nat) : Option Word :=
  match step { State.reset with eng := e, inputs := [.regRead (e.base + off) 4] } with
  | .next t => match t.replies with
    | [.word v] => some v
    | _ => none
  | _ => none

/-- G1, G12. -/
theorem test_reset_reads :
    [0x00, 0x04, 0x0C, 0x1C, 0x90].map (readWord State.reset.eng) = [some 0x51434E56#32, some 1#32, some 0, some 0, some 0] := by
  decide +kernel

/-- G9, G10, G11: a word written, then read back. -/
theorem test_read_back :
    readWord (State.reset.eng.writeAt 0xFFFFFFFF#32 0x18) 0x18 = some 0xFFFFFFFF#32 ∧
    readWord (State.reset.eng.writeAt 0x00030002#32 0x48) 0x48 = some 2#32 ∧
    readWord (State.reset.eng.writeAt 0xFFFFFFFF#32 0x68) 0x68 = some 0xFFFFFFFF#32 := by decide +kernel

/-- G2: START right after reset ends in ILLEGAL_COMMAND. -/
theorem test_start_after_reset :
    errorRegs (step (startWord State.reset 0#32)) = some (0x106#32, 1#32, 0) := by decide +kernel

/-- G3, G4, G5: writes while BUSY. -/
theorem test_busy_writes :
    (runB 0x00252201#32).eng.writeAt 1#32 0x08 = (runB 0x00252201#32).eng ∧
    (runB 0x00252201#32).eng.writeAt 5#32 0x38 = (runB 0x00252201#32).eng ∧
    (runB 0x00252201#32).eng.writeAt 2#32 0x08 = { (runB 0x00252201#32).eng with irqEn := true } := by decide +kernel

/-- R254: an unsuccessful poll of an idle engine lets the command running on another engine complete before it reads again; one of a running
engine lets its own complete. -/
theorem test_poll_progress :
    (hostPoll 0x4000000C 2#32 2#32 12 { State.reset with others := [otherEngine 0x2400] }).inputs
      = [.complete 0x40000100, .poll 0x4000000C 2#32 2#32] ∧
    (hostPoll 0x4000000C 2#32 2#32 12 (runB 0x00252201#32)).inputs = [.complete 0x40000000, .poll 0x4000000C 2#32 2#32] := by
  decide +kernel

/-- An engine after an error completion with IRQ_EN = 1. -/
def afterError : Engine := Engine.raise { Engine.reset 0x400000 with irqEn := true } (ErrRecord.ofConfig .qtabLen)

/-- G6, G7, G8: the acknowledge keeps ERR and ERR_CODE; the next START clears them. -/
theorem test_acknowledge :
    afterError.irq = true ∧ (afterError.writeAt 2#32 0x0C).irq = false ∧
    (afterError.writeAt 2#32 0x0C).statusWord = 0x304#32 ∧ (afterError.writeAt 2#32 0x0C).errInfo = 3#32 ∧
    (afterError.writeAt 1#32 0x08).statusWord = 1#32 ∧ (afterError.writeAt 1#32 0x08).errInfo = 0#32 := by decide +kernel

/-- The host assembly of `invoke unpack4` and of `mem.h`, as R100 and R101 expand them. -/
theorem test_assembly :
    assemble 0x40000000 (.invoke .unpack4)
      = [.regWrite 0x40000018 4 0x00004003#32, .regWrite 0x40000008 4 1#32, .poll 0x4000000C 2#32 2#32] ∧
    assemble 0x40000000 (.memH 0x6000 [1000, -1000])
      = [.memWrite 0x6000 0xE8, .memWrite 0x6001 3, .memWrite 0x6002 0x18, .memWrite 0x6003 0xFC] := by decide +kernel

/-! ## Witnesses: for each obligation with hypotheses, states and operands that meet them together, clause by clause -/

/-- A command runs and answers a next state wherever it is accepted. -/
theorem exists_next (i : Instr) (s : State) (h : Accepted i.form s) : ∃ t, exec i s = .next t :=
  ⟨_, (exec_eq_runCommand i s).trans (runCommand_of_accepted _ _ _ h)⟩

/-- What `errorRegs` reads exists. -/
theorem exists_of_errorRegs (r : Host.Outcome State Fault Refusal) (h : (errorRegs r).isSome = true) : ∃ t, r = .next t := by
  cases r with
  | next t => exact ⟨t, rfl⟩
  | fault _ => exact absurd h Bool.false_ne_true
  | refused _ => exact absurd h Bool.false_ne_true

/-- Configuration B executes normally for each of the 19 commands. -/
theorem witness_every_command_accepted (i : Instr) : Accepted i.form (running descB (encode i) tableB) := by
  cases i <;> exact accepted_of_checks _ _ (by decide +kernel) (by decide +kernel) (by decide +kernel) (by decide +kernel)
    (by decide +kernel)

/-- ReservedEncodingsIllegal: OP 0, 4 and 15; OP 1, 2 and 3 with the lowest and the highest reserved bit of each field. -/
theorem witness_ReservedEncodingsIllegal :
    (∀ w, (runB w).inputs = [] ∧ (runB w).eng.phase = .run ∧ (runB w).eng.cmd = w) ∧
    (∀ w ∈ [0x00000000#32, 0x00252204#32, 0x0025220F#32], w.extractLsb' 0 4 = 0#4 ∨ 4 ≤ (w.extractLsb' 0 4).toNat) ∧
    (∀ w ∈ [0x00000011#32, 0x00000082#32, 0x01000003#32, 0x80252201#32],
      (w.extractLsb' 0 4 = 1#4 ∨ w.extractLsb' 0 4 = 2#4 ∨ w.extractLsb' 0 4 = 3#4) ∧
      (w.extractLsb' 4 4 ≠ 0#4 ∨ w.extractLsb' 24 8 ≠ 0#8)) :=
  ⟨fun _ => ⟨rfl, rfl, rfl⟩,
    by simp only [List.forall_mem_cons, List.not_mem_nil, false_implies, implies_true, and_true]; decide,
    by simp only [List.forall_mem_cons, List.not_mem_nil, false_implies, implies_true, and_true]; decide⟩

/-- The tag fields of a CMD word, reserved fields clear, its engine running with no input pending. -/
abbrev TagsOf (w : Word) (op it ft bt ot : BitVec 4) : Prop :=
  (runB w).inputs = [] ∧ (runB w).eng.phase = .run ∧ (runB w).eng.cmd.extractLsb' 4 4 = 0#4 ∧
  (runB w).eng.cmd.extractLsb' 24 8 = 0#8 ∧ (runB w).eng.cmd.extractLsb' 0 4 = op ∧ it = (runB w).eng.cmd.extractLsb' 8 4 ∧
  ft = (runB w).eng.cmd.extractLsb' 12 4 ∧ bt = (runB w).eng.cmd.extractLsb' 16 4 ∧ ot = (runB w).eng.cmd.extractLsb' 20 4

/-- UnsupportedNamesFirstFailingTensor: one word for each of the eight clauses (D7, D9, D10, D11, D17, D19, D18, and a bias on UNPACK4). -/
theorem witness_UnsupportedNamesFirstFailingTensor :
    (TagsOf 0x00000001#32 1 0 0 0 0 ∧ ¬ ((0#4) = 1#4 ∨ (0#4) = 2#4 ∨ (0#4) = 3#4)) ∧
    (TagsOf 0x00302202#32 2 2 2 0 3 ∧ ((2#4) = 1#4 ∨ (2#4) = 2#4 ∨ (2#4) = 3#4) ∧ 3#4 ≠ 2#4) ∧
    (TagsOf 0x00102101#32 1 1 2 0 1 ∧
      ¬ (((1#4) = 1#4 ∧ (2#4) = 1#4) ∨ ((1#4) = 2#4 ∧ ((2#4) = 2#4 ∨ (2#4) = 4#4)) ∨ ((1#4) = 3#4 ∧ (2#4) = 2#4))) ∧
    (TagsOf 0x00212201#32 1 2 2 1 2 ∧
      ¬ ((1#4) = 0#4 ∨ ((2#4) = 1#4 ∧ (1#4) = 1#4) ∨ ((2#4) = 2#4 ∧ (1#4) = 5#4) ∨
        ((2#4) = 3#4 ∧ ((1#4) = 5#4 ∨ (1#4) = 6#4)))) ∧
    (TagsOf 0x00002203#32 3 2 2 0 0 ∧ 2#4 ≠ 0#4) ∧
    (TagsOf 0x00204003#32 3 0 4 0 2 ∧ 2#4 ≠ 0#4) ∧
    (TagsOf 0x00001003#32 3 0 1 0 0 ∧ 1#4 ≠ 4#4) ∧
    (TagsOf 0x00014003#32 3 0 4 1 0 ∧ 1#4 ≠ 0#4) := by
  refine ⟨?_, ?_, ?_, ?_, ?_, ?_, ?_, ?_⟩ <;> decide +kernel

/-- StepRunsDecodedCommand and PlacedCommandRunsNext: both forms of the pending inputs. -/
theorem witness_StepRunsDecodedCommand :
    (runB 0x00252201#32).eng.phase = .run ∧ decode (runB 0x00252201#32).eng.cmd = .ok .convI8 ∧ (runB 0x00252201#32).inputs = [] ∧
    ({ runB 0x00252201#32 with inputs := [.complete 0x40000000] } : State).inputs = .complete (runB 0x00252201#32).eng.base :: [] :=
  ⟨rfl, rfl, rfl, rfl⟩

/-- IdleMachineWaits: two idle engines. -/
theorem witness_IdleMachineWaits :
    let s : State := { State.reset with others := [Engine.reset 0x400001] }
    s.inputs = [] ∧ s.eng.phase = .idle ∧ ∀ e ∈ s.others, e.phase = .idle := by decide

/-- FocusOnlyExchangesEngines: the second of two engines is chosen. -/
theorem witness_FocusOnlyExchangesEngines :
    let s : State := { State.reset with others := [Engine.reset 0x400001] }
    let p : Engine → Bool := fun e => e.base == 0x40000100
    (∃ e ∈ s.eng :: s.others, p e = true) ∧
      focus p s = some { s with eng := Engine.reset 0x400001, others := [Engine.reset 0x400000] } := by decide

/-- ResetInputResetsEngine: an idle engine; a running one beside another running engine that does not conflict; one that does. -/
theorem witness_ResetInputResetsEngine :
    (∃ s : State, s.inputs = [.reset s.eng.base] ∧ s.eng.phase = .idle) ∧
    (∃ s : State, s.inputs = [.reset s.eng.base] ∧ s.eng.phase = .run ∧ s.others ≠ [] ∧
      ∀ e ∈ s.others, e.phase = .run → ∀ r ∈ s.eng.regions, ∀ t ∈ e.regions,
        (r.written = true ∨ t.written = true) → r.overlaps t = false) ∧
    (∃ s : State, s.inputs = [.reset s.eng.base] ∧ s.eng.phase = .run ∧ ∃ e ∈ s.others, e.phase = .run ∧
      ∃ r ∈ s.eng.regions, ∃ t ∈ e.regions, (r.written = true ∨ t.written = true) ∧ r.overlaps t = true) :=
  ⟨⟨{ State.reset with inputs := [.reset 0x40000000] }, by decide⟩,
    ⟨{ runB 0x00252201#32 with others := [otherEngine 0x2400], inputs := [.reset 0x40000000] }, by decide +kernel⟩,
    ⟨{ runB 0x00252201#32 with others := [otherEngine 0x1401], inputs := [.reset 0x40000000] }, by decide +kernel⟩⟩

/-- StartAfterResetIsIllegal. -/
theorem witness_StartAfterResetIsIllegal :
    let s : State := { State.reset with inputs := [.regWrite 0x40000008 4 3#32] }
    s.eng = Engine.reset s.eng.page ∧ (3#32).getLsbD 0 = true ∧ s.inputs = [.regWrite (s.eng.base + 0x08) 4 3#32] := by decide

/-- RegisterReadBack: writes at the first and the last offset; the reserved offsets at the ends of their ranges; the read-only registers; CMD,
the first and the last 16-bit register, the first and the last 32-bit descriptor. -/
theorem witness_RegisterReadBack :
    (∀ off ∈ [0, 252], off < 256 ∧ off % 4 = 0 ∧
      ({ State.reset with inputs := [.regWrite (0x40000000 + off) 4 1#32] } : State).inputs =
        .regWrite (State.reset.eng.base + off) 4 1#32 :: []) ∧
    [Reg.id, .version, .errInfo, .errAddr].map Reg.offset = [0x00, 0x04, 0x10, 0x14] ∧
    (∀ off ∈ [0x1C, 0x90, 0xFC], off = 0x1C ∨ (0x90 ≤ off ∧ off ≤ 0xFC)) ∧
    State.reset.eng.phase = .idle ∧ [Reg.cmd, .dimN, .padW, .inZp, .scratchLen].map Reg.offset = [0x18, 0x20, 0x5C, 0x60, 0x8C] ∧
    (∀ r ∈ [Reg.cmd, .dimN, .padW, .inZp, .scratchLen], 0x18 ≤ r.offset) ∧ Reg.dimN ≠ Reg.cmd := by decide

/-- BusyWritesIgnored: a write at the first offset, at CTRL and at the last offset; a read of a running and of an idle engine. -/
theorem witness_BusyWritesIgnored :
    (runB 0x00252201#32).eng.phase = .run ∧ (∀ off ∈ [0, 8, 252], off < 256 ∧ off % 4 = 0) ∧
    (∀ off ∈ [0, 8, 252],
      ({ runB 0x00252201#32 with inputs := [.regWrite (0x40000000 + off) 4 1#32] } : State).inputs =
        .regWrite ((runB 0x00252201#32).eng.base + off) 4 1#32 :: []) ∧
    ({ runB 0x00252201#32 with inputs := [.regRead 0x400000FC 4] } : State).inputs =
      .regRead ((runB 0x00252201#32).eng.base + 252) 4 :: [] ∧
    State.reset.eng.phase = .idle ∧
    ({ State.reset with inputs := [.regRead 0x4000000C 4] } : State).inputs = .regRead (State.reset.eng.base + 12) 4 :: [] := by
  decide +kernel

/-- StartAccepted: a START of an idle engine, a CTRL write without START, a START of a running engine. -/
theorem witness_StartAccepted :
    (State.reset.eng.phase = .idle ∧ (1#32).getLsbD 0 = true ∧
      ({ State.reset with inputs := [.regWrite 0x40000008 4 1#32] } : State).inputs =
        .regWrite (State.reset.eng.base + 0x08) 4 1#32 :: []) ∧
    (2#32).getLsbD 0 = false ∧ (runB 0x00252201#32).eng.phase = .run ∧
    ({ runB 0x00252201#32 with inputs := [.regWrite 0x40000008 4 3#32] } : State).inputs =
      .regWrite ((runB 0x00252201#32).eng.base + 0x08) 4 3#32 :: [] := by decide +kernel

/-- AcknowledgeClearsOnlyDone: after an error completion. -/
theorem witness_AcknowledgeClearsOnlyDone :
    let s : State := { State.reset with eng := afterError, inputs := [.regWrite 0x4000000C 4 2#32] }
    s.eng.phase = .idle ∧ s.inputs = .regWrite (s.eng.base + 0x0C) 4 2#32 :: [] ∧ s.eng.done = true := by decide

/-- CompletionDrivesInterrupt: a completion; the step that ends a CMD word that is no command, with no input and with a completion as the
input; IRQ_EN set while DONE = 1; an acknowledge; a CTRL write that clears IRQ_EN. -/
theorem witness_CompletionDrivesInterrupt :
    (∃ t, exec .convI8 (runB 0x00252201#32) = .next t) ∧
    ((runB 0#32).eng.phase = .run ∧ (runB 0#32).inputs = [] ∧ (∃ t, step (runB 0#32) = .next t)) ∧
    (∃ s : State, s.eng.phase = .run ∧ s.inputs = .complete s.eng.base :: [] ∧ ∃ t, step s = .next t) ∧
    (afterError.done = true ∧ (2#32).getLsbD 1 = true ∧ (2#32).getLsbD 0 = false) ∧
    (afterError.phase = .idle ∧ (2#32).getLsbD 1 = true) ∧ (0#32).getLsbD 1 = false :=
  ⟨exists_next _ _ (witness_every_command_accepted .convI8), ⟨rfl, rfl, exists_of_errorRegs _ (by decide +kernel)⟩,
    ⟨{ runB 0#32 with inputs := [.complete 0x40000000] }, rfl, rfl, exists_of_errorRegs _ (by decide +kernel)⟩,
    by decide, by decide, by decide⟩

/-- BadRegisterAccessRefused: a narrow access at the first byte of the block, a word access at its last byte. -/
theorem witness_BadRegisterAccessRefused :
    (∃ s : State, s.eng.base ≤ 0x40000000 ∧ 0x40000000 < s.eng.base + 256 ∧ (2 ≠ 4 ∨ 0x40000000 % 4 ≠ 0) ∧
      s.inputs = .regWrite 0x40000000 2 0#32 :: []) ∧
    (∃ s : State, s.eng.base ≤ 0x400000FF ∧ 0x400000FF < s.eng.base + 256 ∧ (4 ≠ 4 ∨ 0x400000FF % 4 ≠ 0) ∧
      s.inputs = .regRead 0x400000FF 4 :: []) :=
  ⟨⟨{ State.reset with inputs := [.regWrite 0x40000000 2 0#32] }, by decide⟩,
    ⟨{ State.reset with inputs := [.regRead 0x400000FF 4] }, by decide⟩⟩

/-- CommandWritesOnlyResults: the bytes just below and just above the OUT region of B. -/
theorem witness_CommandWritesOnlyResults :
    (∃ t, exec .convI8 (runB 0x00252201#32) = .next t) ∧
    OutsideWritten Instr.convI8.form (runB 0x00252201#32).operands 0x13FF ∧
    OutsideWritten Instr.convI8.form (runB 0x00252201#32).operands 0x1402 :=
  ⟨exists_next _ _ (witness_every_command_accepted .convI8), by decide +kernel, by decide +kernel⟩

/-- CommandAlwaysCompletes: duties kept, with a command running on another engine. -/
theorem witness_CommandAlwaysCompletes :
    DutiesKept Instr.convI8.form { runB 0x00252201#32 with others := [otherEngine 0x2400] } :=
  dutiesKept_of_checks _ _ (by decide +kernel) (by decide +kernel)

/-- What ConfigurationChecksInOrder assumes, of command `i` running on descriptors `d`. -/
abbrev FirstCheck (i : Instr) (d : Descriptors) (before after : List ConfigCause) (c : ConfigCause) : Prop :=
  [.paramRange, .depthMismatch, .qtabLen, .scratchMissing, .scratchSmall, .zpRange, .actRange, .regionRange, .regionOverlap]
    = before ++ c :: after ∧
  NoConflict i.form (running d (encode i) []) ∧ CheckHolds i.form (running d (encode i) []).operands c ∧
  ∀ b ∈ before, ¬ CheckHolds i.form (running d (encode i) []).operands b

/-- ConfigurationChecksInOrder: each of the nine causes first (K1, K5, K7, K8, K9, K11, K14, K16, K18). -/
theorem witness_ConfigurationChecksInOrder :
    FirstCheck .convI8 { descB with strideW := 0 } []
      [.depthMismatch, .qtabLen, .scratchMissing, .scratchSmall, .zpRange, .actRange, .regionRange, .regionOverlap] .paramRange ∧
    FirstCheck .dwconvI8 { descB with depthMult := 2 } [.paramRange]
      [.qtabLen, .scratchMissing, .scratchSmall, .zpRange, .actRange, .regionRange, .regionOverlap] .depthMismatch ∧
    FirstCheck .convI8 { descB with qtabLen := 3 } [.paramRange, .depthMismatch]
      [.scratchMissing, .scratchSmall, .zpRange, .actRange, .regionRange, .regionOverlap] .qtabLen ∧
    FirstCheck .convI8w4 { descB with scratchLen := 0 } [.paramRange, .depthMismatch, .qtabLen]
      [.scratchSmall, .zpRange, .actRange, .regionRange, .regionOverlap] .scratchMissing ∧
    FirstCheck .convI8w4 { descB with scratchLen := 3 } [.paramRange, .depthMismatch, .qtabLen, .scratchMissing]
      [.zpRange, .actRange, .regionRange, .regionOverlap] .scratchSmall ∧
    FirstCheck .convI8 { descB with inZp := 128 } [.paramRange, .depthMismatch, .qtabLen, .scratchMissing, .scratchSmall]
      [.actRange, .regionRange, .regionOverlap] .zpRange ∧
    FirstCheck .convI8 { descB with actMin := 5, actMax := 4 }
      [.paramRange, .depthMismatch, .qtabLen, .scratchMissing, .scratchSmall, .zpRange] [.regionRange, .regionOverlap] .actRange ∧
    FirstCheck .convI8 { descB with outAddr := 0xFFFFFFFF }
      [.paramRange, .depthMismatch, .qtabLen, .scratchMissing, .scratchSmall, .zpRange, .actRange] [.regionOverlap] .regionRange ∧
    FirstCheck .convI8 { descB with outAddr := 0x1001 }
      [.paramRange, .depthMismatch, .qtabLen, .scratchMissing, .scratchSmall, .zpRange, .actRange, .regionRange] []
      .regionOverlap := by
  simp only [FirstCheck, List.forall_mem_cons, List.not_mem_nil, false_implies, implies_true, and_true]
  refine ⟨?_, ?_, ?_, ?_, ?_, ?_, ?_, ?_, ?_⟩ <;> decide +kernel

/-- ConfigurationChecksInOrder: no conflict with a command running on a second engine. -/
theorem witness_ConfigurationChecksInOrder_secondEngine :
    let s : State := { running { descB with qtabLen := 3 } 0x00252201#32 tableB with others := [otherEngine 0x2400] }
    NoConflict Instr.convI8.form s ∧ CheckHolds Instr.convI8.form s.operands .qtabLen ∧
      ¬ CheckHolds Instr.convI8.form s.operands .paramRange ∧ ¬ CheckHolds Instr.convI8.form s.operands .depthMismatch :=
  ⟨(conflictsRunning_eq_false_iff ..).1 (by decide +kernel), by decide +kernel, by decide +kernel, by decide +kernel⟩

/-- TableCheckInChannelOrder: entry 1's second byte unadmitted (E1); entry 1's shift 32 (K21). -/
theorem witness_TableCheckInChannelOrder :
    (∃ s : State, IntegerForm Instr.convI8.form ∧ NoCheckHolds Instr.convI8.form s.operands ∧ DutiesKept Instr.convI8.form s ∧
      1 < s.operands.OC ∧ (∀ c' < 1, EntryGood s c') ∧ admits s.platform (s.operands.qtabAddr + 8 * 1 + 1) .read = false ∧
      ∀ j' < 1, admits s.platform (s.operands.qtabAddr + 8 * 1 + j') .read = true) ∧
    (∃ s : State, IntegerForm Instr.convI8.form ∧ NoCheckHolds Instr.convI8.form s.operands ∧ DutiesKept Instr.convI8.form s ∧
      1 < s.operands.OC ∧ (∀ c' < 1, EntryGood s c') ∧
      (∀ j < 8, admits s.platform (s.operands.qtabAddr + 8 * 1 + j) .read = true) ∧
      (shift s.mem s.operands 1 < -31 ∨ 31 < shift s.mem s.operands 1)) :=
  ⟨⟨noTableByte 0, by decide, (configError_eq_none_iff ..).1 (by decide +kernel), dutiesKept_of_checks _ _ (by decide +kernel) (by decide +kernel),
      by decide +kernel, by decide +kernel, by decide +kernel, by decide +kernel⟩,
    ⟨running descB 0x00252201#32 (bytes 0x1300 (entry 0 ++ entry 32)), by decide, (configError_eq_none_iff ..).1 (by decide +kernel),
      dutiesKept_of_checks _ _ (by decide +kernel) (by decide +kernel), by decide +kernel, by decide +kernel, by decide +kernel, by decide +kernel⟩⟩

/-- ExecutionBusError: E3 and E4. -/
theorem witness_ExecutionBusError (s : State) (h : s = noInputByte ∨ s = noOutputByte) :
    NoCheckHolds Instr.convI8.form s.operands ∧ DutiesKept Instr.convI8.form s ∧ TableGood Instr.convI8.form s ∧
      ¬ AllAdmitted Instr.convI8.form s := by
  rcases h with rfl | rfl <;>
    exact ⟨(configError_eq_none_iff ..).1 (by decide +kernel), dutiesKept_of_checks _ _ (by decide +kernel) (by decide +kernel),
      (tableError_eq_none_iff ..).1 (by decide +kernel), fun h => absurd ((faultSet_eq_nil_iff ..).2 h) (by decide +kernel)⟩

/-- The end in phase 1 to 4 that EarlyEndsLeaveMemory assumes, from what the checks find. -/
theorem earlyEnd (s : State) (i : Instr) (hd : decode s.eng.cmd = .ok i)
    (h : configError i.form s.operands ≠ none ∨ tableError i.form s.platform s.mem s.operands ≠ none) :
    ∃ i, decode s.eng.cmd = .ok i ∧ (¬ NoCheckHolds i.form s.operands ∨ ¬ TableGood i.form s) :=
  ⟨i, hd, h.imp (fun h hn => h ((configError_eq_none_iff ..).2 hn)) (fun h hn => h ((tableError_eq_none_iff ..).2 hn))⟩

/-- EarlyEndsLeaveMemory: a word that is no command; a configuration error; a table error. Each step answers a next state. -/
theorem witness_EarlyEndsLeaveMemory :
    (∃ s : State, s.inputs = [] ∧ s.eng.phase = .run ∧ (∃ t, step s = .next t) ∧ ∃ e, decode s.eng.cmd = .error e) ∧
    (∃ s : State, s.inputs = [] ∧ s.eng.phase = .run ∧ (∃ t, step s = .next t) ∧
      ∃ i, decode s.eng.cmd = .ok i ∧ (¬ NoCheckHolds i.form s.operands ∨ ¬ TableGood i.form s)) ∧
    (∃ s : State, s.inputs = [] ∧ s.eng.phase = .run ∧ (∃ t, step s = .next t) ∧ NoCheckHolds Instr.convI8.form s.operands ∧
      ∃ i, decode s.eng.cmd = .ok i ∧ (¬ NoCheckHolds i.form s.operands ∨ ¬ TableGood i.form s)) :=
  ⟨⟨runB 0#32, rfl, rfl, exists_of_errorRegs _ (by decide +kernel), .illegalOp, rfl⟩,
    ⟨running { descB with qtabLen := 3 } 0x00252201#32 tableB, rfl, rfl, exists_of_errorRegs _ (by decide +kernel),
      earlyEnd _ .convI8 rfl (.inl (by decide +kernel))⟩,
    ⟨running descB 0x00252201#32 (bytes 0x1300 (entry 0 ++ entry 32)), rfl, rfl, exists_of_errorRegs _ (by decide +kernel),
      (configError_eq_none_iff ..).1 (by decide +kernel), earlyEnd _ .convI8 rfl (.inr (by decide +kernel))⟩⟩

/-- OddHighNibbleIgnored: three elements; the memories differ in the high nibble of the last byte. -/
theorem witness_OddHighNibbleIgnored :
    let o := operandsOf { descB with dimOC := 3, dimIC := 1 }
    let m := Memory.store [] (bytes 0x1100 [0x98, 0x1F])
    let m' := Memory.store [] (bytes 0x1100 [0x98, 0xAF])
    Instr.unpack4.form.fltType = .int4p ∧ eFlt Instr.unpack4.form.op o = 2 * 1 + 1 ∧ (∀ j < 1, Memory.get m (o.fltAddr + j) = Memory.get m' (o.fltAddr + j)) ∧
    (Memory.get m (o.fltAddr + 1)).toNat % 16 = (Memory.get m' (o.fltAddr + 1)).toNat % 16 ∧ m ≠ m' := by decide +kernel

/-- UnpackedElementValue: an even element with nibble 15, an odd one with nibble 7 (U2). -/
theorem witness_UnpackedElementValue :
    let m := Memory.store [] (bytes 0x1100 [0x7F])
    15 = (if 0 % 2 = 0 then (Memory.get m (0x1100 + 0 / 2)).toNat % 16 else (Memory.get m (0x1100 + 0 / 2)).toNat / 16) ∧
    7 = (if 1 % 2 = 0 then (Memory.get m (0x1100 + 1 / 2)).toNat % 16 else (Memory.get m (0x1100 + 1 / 2)).toNat / 16) := by
  decide +kernel

/-- StandardSum and DepthwiseSum: the two operations. -/
theorem witness_StandardSum_DepthwiseSum : Instr.convI8.form.op = .conv ∧ Instr.dwconvI8w4.form.op = .dwconv := by decide

/-- OnlyPaddingLeavesBias: no input channel (A8); the only tap padded (A9); with a bias and without. -/
theorem witness_OnlyPaddingLeavesBias :
    (IntegerForm Instr.convI8.form ∧ Instr.convI8.form.op = .conv ∧ (operandsOf { descB with dimIC := 0 }).IC = 0) ∧
    (let o := operandsOf { descB with padH := 1 };
      IntegerForm Instr.dwconvI8.form ∧ Instr.dwconvI8.form.biasType ≠ .absent ∧ Instr.dwconvI8Nb.form.biasType = .absent ∧
      ∀ ky < o.KH, ∀ kx < o.KW, inBounds o (tapRow o 0 ky) (tapCol o 0 kx) = false) := by
  decide +kernel

/-- ProductBounds: IN_ZP at both ends of the int8 and the int16 range. -/
theorem witness_ProductBounds :
    IntegerForm Instr.convI8.form ∧ IntegerForm Instr.convI16.form ∧
    (∀ z ∈ [-128, 127], tagMin Instr.convI8.form.inType ≤ z ∧ z ≤ tagMax Instr.convI8.form.inType) ∧
    (∀ z ∈ [-32768, 32767], tagMin Instr.convI16.form.inType ≤ z ∧ z ≤ tagMax Instr.convI16.form.inType) ∧
    [0xFFFFFF80#32, 127#32].map (fun v => (operandsOf { descB with inZp := v }).inZp) = [-128, 127] ∧
    [0xFFFF8000#32, 32767#32].map (fun v => (operandsOf { descB with inZp := v }).inZp) = [-32768, 32767] := by decide

/-- The memory of R191's example. -/
def exampleMem : Memory :=
  Memory.store [] (bytes 0x1000 [10, 0xEC] ++ bytes 0x1100 [3, 0xFE] ++ bytes 0x1200 [7] ++ bytes 0x1300 (entry 0))

/-- TapOrderIndependent: the two products 27 and 42 of R191's example in the other order. -/
theorem witness_TapOrderIndependent :
    [42, 27].Perm ((terms Instr.convI8.form (operandsOf { descOne with inZp := 1 }) ⟨0, 0, 0, 0⟩).map
      (product Instr.convI8.form (operandsOf { descOne with inZp := 1 }) exampleMem)) := by
  have h : (terms Instr.convI8.form (operandsOf { descOne with inZp := 1 }) ⟨0, 0, 0, 0⟩).map
      (product Instr.convI8.form (operandsOf { descOne with inZp := 1 }) exampleMem) = [27, 42] := by decide +kernel
  rw [h]
  exact List.Perm.swap 27 42 []

/-- AccumulatorLocality, depthwise channel 0: the memories differ in input channel 1, filter channel 1, bias channel 1 and table entry 1. -/
theorem witness_AccumulatorLocality :
    let f := Instr.dwconvI8.form
    let o := operandsOf descB
    let m := Memory.store [] (bytes 0x1000 [5, 6] ++ bytes 0x1100 [1, 2] ++ bytes 0x1200 [3] ++ tableB)
    let m' := Memory.store [] (bytes 0x1000 [5, 7] ++ bytes 0x1100 [1, 9] ++ bytes 0x1200 [3, 0, 0, 0, 8] ++
      bytes 0x1300 (entry 0 ++ entry 2))
    m ≠ m' ∧ biasValue f o m 0 = biasValue f o m' 0 ∧ multiplier m o 0 = multiplier m' o 0 ∧ shift m o 0 = shift m' o 0 ∧
    inBounds o (tapRow o 0 0) (tapCol o 0 0) = true ∧
    (∀ ky < o.KH, ∀ kx < o.KW, inBounds o (tapRow o 0 ky) (tapCol o 0 kx) = true →
      ∀ c, (if f.op = .dwconv then c = 0 / o.DM else c < o.IC) →
      readSigned m (addrIn f o 0 (tapRow o 0 ky).toNat (tapCol o 0 kx).toNat c) (tagSize f.inType) =
        readSigned m' (addrIn f o 0 (tapRow o 0 ky).toNat (tapCol o 0 kx).toNat c) (tagSize f.inType)) ∧
    (∀ ky < o.KH, ∀ kx < o.KW, ∀ ic, (if f.op = .dwconv then ic = 0 else ic < o.IC) →
      filterElem f o m (if f.op = .dwconv then filterDw o ky kx 0 else filterStd o 0 ky kx ic) =
        filterElem f o m' (if f.op = .dwconv then filterDw o ky kx 0 else filterStd o 0 ky kx ic)) := by
  refine ⟨by decide +kernel, by decide +kernel, by decide +kernel, by decide +kernel, by decide +kernel, ?_, ?_⟩
  · intro ky hy kx hx _ c hc
    obtain rfl : ky = 0 := Nat.lt_one_iff.1 hy
    obtain rfl : kx = 0 := Nat.lt_one_iff.1 hx
    obtain rfl : c = 0 := hc
    decide +kernel
  · intro ky hy kx hx ic hc
    obtain rfl : ky = 0 := Nat.lt_one_iff.1 hy
    obtain rfl : kx = 0 := Nat.lt_one_iff.1 hx
    obtain rfl : ic = 0 := hc
    decide +kernel

/-- FloatTermsInLoopOrder, FloatConvolutionCompletes, IntegerConvolutionCompletes, IntegerDepthwiseCompletes, PackedConvolutionCompletes
and UnpackFourCompletes: every listed command is accepted in configuration B. -/
theorem witness_completions :
    (∀ i ∈ [Instr.convF32, .convF32Nb, .dwconvF32, .dwconvF32Nb], ∃ s, Accepted i.form s) ∧
    (∀ i ∈ [Instr.convI8, .convI8Nb, .convI16, .convI16Nb, .convI16b64], ∃ s, Accepted i.form s) ∧
    (∀ i ∈ [Instr.dwconvI8, .dwconvI8Nb, .dwconvI16, .dwconvI16Nb, .dwconvI16b64], ∃ s, Accepted i.form s) ∧
    (∀ i ∈ [Instr.convI8w4, .convI8w4Nb, .dwconvI8w4, .dwconvI8w4Nb], ∃ s, Accepted i.form s) ∧
    (∃ s, Accepted Instr.unpack4.form s) ∧
    (∀ i, 0 < (running descB (encode i) tableB).operands.N ∧ 0 < (running descB (encode i) tableB).operands.OH ∧
      0 < (running descB (encode i) tableB).operands.OW ∧ 1 < (running descB (encode i) tableB).operands.OC) :=
  ⟨fun i _ => ⟨_, witness_every_command_accepted i⟩, fun i _ => ⟨_, witness_every_command_accepted i⟩,
    fun i _ => ⟨_, witness_every_command_accepted i⟩, fun i _ => ⟨_, witness_every_command_accepted i⟩,
    ⟨_, witness_every_command_accepted .unpack4⟩, fun i => by cases i <;> decide⟩

/-- RoundsHalfAwayFromZero and ScalingLandmarks: the shift counts of the shifts 31 and -31; ScalingLandmarks and MultiplierSign: the signs,
at 0 and just beside it. -/
theorem witness_shifts_signs : ((0 : Nat) : Int) = 31 - 31 ∧ ((62 : Nat) : Int) = 31 - (-31) ∧ (0 : Int) ≤ 0 ∧ (-1 : Int) < 0 ∧ (0 : Int) = 0 ∧ (-1 : Int) ≤ 0 ∧ (0 : Int) ≤ 1 := by decide

/-- DegenerateOutput: a zero filter (S3 a), and an input equal to IN_ZP (S3 b). -/
theorem witness_DegenerateOutput :
    (let o := operandsOf descB;
      IntegerForm Instr.convI8.form ∧ terms Instr.convI8.form o ⟨0, 0, 0, 1⟩ ≠ [] ∧ biasValue Instr.convI8.form o [] 1 = 0 ∧
      ∀ t ∈ terms Instr.convI8.form o ⟨0, 0, 0, 1⟩, filterElem Instr.convI8.form o [] t.2 = 0) ∧
    (let o := operandsOf { descB with inZp := 12 };
      let m := Memory.store [] (bytes 0x1000 [12, 12] ++ bytes 0x1100 [1, 2, 3, 4]);
      biasValue Instr.convI8.form o m 1 = 0 ∧
      ∀ t ∈ terms Instr.convI8.form o ⟨0, 0, 0, 1⟩, readSigned m t.1 (tagSize Instr.convI8.form.inType) = o.inZp) := by
  decide +kernel

/-- PointwiseDepthwiseScales: the last pixel of S5. -/
theorem witness_PointwiseDepthwiseScales :
    let o := operandsOf { descB with dimIW := 2, dimOW := 2 }
    IntegerForm Instr.dwconvI8.form ∧ Instr.dwconvI8.form.op = .dwconv ∧ o.DM = 1 ∧ o.KH = 1 ∧ o.KW = 1 ∧ o.PH = 0 ∧ o.PW = 0 ∧
      o.SH = 1 ∧ o.SW = 1 ∧ 0 < o.IH ∧ 1 < o.IW := by decide

/-- SuccessfulCommandIdempotent is about every accepted command; EmptyWorkSucceeds: no output column, plain and packed, and an UNPACK4
without filter elements (K27). -/
theorem witness_EmptyWorkSucceeds :
    (∃ s, Accepted Instr.convI8.form s ∧ eOut s.operands = 0) ∧ (∃ s, Accepted Instr.convI8w4.form s ∧ eOut s.operands = 0) ∧
    (∃ s, Accepted Instr.unpack4.form s ∧ eFlt .unpack4 s.operands = 0) :=
  ⟨⟨running { descB with dimOW := 0 } 0x00252201#32 tableB, accepted_of_checks _ _ (by decide +kernel) (by decide +kernel)
      (by decide +kernel) (by decide +kernel) (by decide +kernel), by decide +kernel⟩,
    ⟨running { descB with dimOW := 0 } 0x00254201#32 tableB, accepted_of_checks _ _ (by decide +kernel) (by decide +kernel)
      (by decide +kernel) (by decide +kernel) (by decide +kernel), by decide +kernel⟩,
    ⟨running { descB with dimKH := 0, scratchLen := 1 } 0x00004003#32 [], accepted_of_checks _ _ (by decide +kernel)
      (by decide +kernel) (by decide +kernel) (by decide +kernel) (by decide +kernel), by decide +kernel⟩⟩

/-- OutcomeIsDetermined: two runs that differ in IRQ_EN and the draw counter; all admitted, a failed check, a bad table entry. -/
theorem witness_OutcomeIsDetermined (d : Descriptors) (cells : List Host.Cell)
    (h : (d = descB ∧ cells = tableB) ∨ (d = { descB with qtabLen := 3 } ∧ cells = tableB) ∨
      (d = descB ∧ cells = bytes 0x1300 (entry 0 ++ entry 32))) :
    let s := running d 0x00252201#32 cells
    let s' : State := { s with eng := { s.eng with irqEn := true }, draws := 7 }
    (∃ t, exec .convI8 s = .next t) ∧ (∃ t', exec .convI8 s' = .next t') ∧ s.eng.desc = s'.eng.desc ∧ s.mem = s'.mem ∧
    s.platform = s'.platform ∧ s.eng.errInfo = 0#32 ∧ s'.eng.errInfo = 0#32 ∧ s.eng.errAddr = 0#32 ∧ s'.eng.errAddr = 0#32 ∧
    OutsideWritten Instr.convI8.form s.operands 0x1402 ∧
    (AllAdmitted Instr.convI8.form s ∨ ¬ NoCheckHolds Instr.convI8.form s.operands ∨ ¬ TableGood Instr.convI8.form s) := by
  rcases h with ⟨rfl, rfl⟩ | ⟨rfl, rfl⟩ | ⟨rfl, rfl⟩
  · exact ⟨exists_of_errorRegs _ (by decide +kernel), exists_of_errorRegs _ (by decide +kernel), rfl, rfl, rfl, rfl, rfl, rfl, rfl,
      by decide +kernel, .inl ((faultSet_eq_nil_iff ..).1 (by decide +kernel))⟩
  · exact ⟨exists_of_errorRegs _ (by decide +kernel), exists_of_errorRegs _ (by decide +kernel), rfl, rfl, rfl, rfl, rfl, rfl, rfl,
      by decide +kernel, .inr (.inl fun h => absurd ((configError_eq_none_iff ..).2 h) (by decide +kernel))⟩
  · exact ⟨exists_of_errorRegs _ (by decide +kernel), exists_of_errorRegs _ (by decide +kernel), rfl, rfl, rfl, rfl, rfl, rfl, rfl,
      by decide +kernel, .inr (.inr fun h => absurd ((tableError_eq_none_iff ..).2 h) (by decide +kernel))⟩

/-- IgnoredRegistersDoNotMatter: UNPACK4 with every register it ignores changed, and `conv.f32.nb` with those it ignores. -/
theorem witness_IgnoredRegistersDoNotMatter :
    (∃ t, exec .unpack4 (runB 0x00004003#32) = .next t) ∧
    (let d := { Descriptors.reset with
        dimIC := 2, dimOC := 2, dimKH := 1, dimKW := 1, fltAddr := 0x1100, scratchAddr := 0x1500, scratchLen := 4, dimN := 9 };
      d ≠ descB ∧ d.dimIC = descB.dimIC ∧ d.dimOC = descB.dimOC ∧ d.dimKH = descB.dimKH ∧ d.dimKW = descB.dimKW ∧
      d.fltAddr = descB.fltAddr ∧ ¬ IntegerForm Instr.unpack4.form ∧ Instr.unpack4.form.op ≠ .dwconv ∧
      Instr.unpack4.form.biasType = .absent ∧ d.scratchAddr = descB.scratchAddr ∧ d.scratchLen = descB.scratchLen) ∧
    (∃ t, exec .convF32Nb (runB 0x00101101#32) = .next t) ∧
    (let d := { descB with
        depthMult := 5, inZp := 1000, outZp := 1000, actMin := 9, actMax := 1, biasAddr := 7, qtabAddr := 7, qtabLen := 9,
        scratchAddr := 7, scratchLen := 0 };
      ¬ IntegerForm Instr.convF32Nb.form ∧ Instr.convF32Nb.form.op ≠ .dwconv ∧ Instr.convF32Nb.form.biasType = .absent ∧
      Instr.convF32Nb.form.fltType ≠ .int4p ∧ d.dimN = descB.dimN ∧ d.dimIH = descB.dimIH ∧ d.dimIW = descB.dimIW ∧
      d.dimIC = descB.dimIC ∧ d.dimOH = descB.dimOH ∧ d.dimOW = descB.dimOW ∧ d.dimOC = descB.dimOC ∧ d.dimKH = descB.dimKH ∧
      d.dimKW = descB.dimKW ∧ d.strideH = descB.strideH ∧ d.strideW = descB.strideW ∧ d.dilH = descB.dilH ∧ d.dilW = descB.dilW ∧
      d.padH = descB.padH ∧ d.padW = descB.padW ∧ d.inAddr = descB.inAddr ∧ d.fltAddr = descB.fltAddr ∧
      d.outAddr = descB.outAddr) := by
  refine ⟨exists_next _ _ (witness_every_command_accepted .unpack4), ⟨by decide, rfl, rfl, rfl, rfl, rfl, by decide, by decide, rfl, rfl, rfl⟩,
    exists_next _ _ (witness_every_command_accepted .convF32Nb), ⟨by decide, by decide, rfl, by decide, rfl, rfl, rfl, rfl, rfl, rfl, rfl,
      rfl, rfl, rfl, rfl, rfl, rfl, rfl, rfl, rfl, rfl, rfl⟩⟩

/-- PerChannelIndependence: channel 0 of B, the entry of channel 1 given shift 2; an int8 filter and a packed one. -/
theorem witness_PerChannelIndependence (i : Instr) (hi : i = .convI8 ∨ i = .convI8w4) :
    let s := running descB (encode i) tableB
    let s' : State := { s with mem := Memory.put s.mem 0x130C 2 }
    s.mem ≠ s'.mem ∧ IntegerForm i.form ∧ Accepted i.form s ∧ Accepted i.form s' ∧ 0 < s.operands.OC ∧
    (∀ a, ¬ (s.operands.qtabAddr ≤ a ∧ a < s.operands.qtabAddr + 8 * s.operands.OC) → Memory.get s'.mem a = Memory.get s.mem a) ∧
    (∀ j < 8, Memory.get s'.mem (s.operands.qtabAddr + 8 * 0 + j) = Memory.get s.mem (s.operands.qtabAddr + 8 * 0 + j)) ∧
    (∀ r ∈ regions i.form s.operands, r.name = .inp ∨ r.name = .flt ∨ r.name = .bias →
      r.overlaps (qtabRegion s.operands) = false) := by
  rcases hi with rfl | rfl <;>
  · refine ⟨by decide +kernel, by decide, witness_every_command_accepted _,
      accepted_of_checks _ _ (by decide +kernel) (by decide +kernel) (by decide +kernel) (by decide +kernel) (by decide +kernel),
      by decide +kernel,
      fun a ha => ?_, by decide +kernel, by decide +kernel⟩
    have h : ¬ (0x1300 ≤ a ∧ a < 0x1300 + 8 * 2) := ha
    rw [Memory.get_put, if_neg (by omega)]

/-- HostAccessToLentBytes: a write to the last byte of a lent region, a write just past it, a read of a lent input byte, a read of the last
lent output byte. -/
theorem witness_HostAccessToLentBytes :
    let s := runB 0x00252201#32
    (0x1401 < 2 ^ 32 ∧ (deviceRanges s).any (fun r => inRange r 0x1401) = false ∧ admits s.platform 0x1401 .write = true ∧
      ∃ e ∈ s.eng :: s.others, ∃ r ∈ e.lent, r.base ≤ 0x1401 ∧ 0x1401 < r.base + r.len) ∧
    ((deviceRanges s).any (fun r => inRange r 0x1402) = false ∧ admits s.platform 0x1402 .write = true ∧
      ∀ e ∈ s.eng :: s.others, ∀ r ∈ e.lent, ¬ (r.base ≤ 0x1402 ∧ 0x1402 < r.base + r.len)) ∧
    ((deviceRanges s).any (fun r => inRange r 0x1001) = false ∧ admits s.platform 0x1001 .read = true ∧
      ∀ e ∈ s.eng :: s.others, ∀ r ∈ e.lent, r.written = true → ¬ (r.base ≤ 0x1001 ∧ 0x1001 < r.base + r.len)) ∧
    (admits s.platform 0x1401 .read = true ∧
      ∃ e ∈ s.eng :: s.others, ∃ r ∈ e.lent, r.written = true ∧ r.base ≤ 0x1401 ∧ 0x1401 < r.base + r.len) ∧
    ({ s with inputs := [.memWrite 0x1401 1] } : State).inputs = .memWrite 0x1401 1 :: [] ∧
    ({ s with inputs := [.memRead 0x1001] } : State).inputs = .memRead 0x1001 :: [] := by decide +kernel

/-- OverlappingEnginesRefused: two engines whose OUT regions share one byte; the same, the command failing a configuration check. -/
theorem witness_OverlappingEnginesRefused (d : Descriptors) (h : d = descB ∨ d = { descB with qtabLen := 3 }) :
    let s : State := { running d 0x00252201#32 tableB with others := [otherEngine 0x1401] }
    ∃ e ∈ s.others, e.phase = .run ∧ ∃ r ∈ regions Instr.convI8.form s.operands, ∃ t ∈ e.regions,
      (r.written = true ∨ t.written = true) ∧ r.overlaps t = true := by
  rcases h with rfl | rfl <;> decide +kernel

/-- RegionOverDeviceRefused: a device at the last byte of OUT; an output region that starts at the last byte of the register block. -/
theorem witness_RegionOverDeviceRefused :
    (∃ s r d a, NoCheckHolds Instr.convI8.form (State.operands s) ∧ NoConflict Instr.convI8.form s ∧ r ∈ regions Instr.convI8.form s.operands ∧ d ∈ s.platform.devices ∧
      r.base ≤ a ∧ a < r.base + r.len ∧ d.base ≤ a ∧ a < d.base + d.len) ∧
    (∃ s r d a, NoCheckHolds Instr.convI8.form (State.operands s) ∧ NoConflict Instr.convI8.form s ∧ r ∈ regions Instr.convI8.form s.operands ∧
      (∃ e ∈ s.eng :: s.others, d = (⟨e.base, 256⟩ : Range)) ∧ r.base ≤ a ∧ a < r.base + r.len ∧ d.base ≤ a ∧ a < d.base + d.len) :=
  ⟨⟨{ runB 0x00252201#32 with platform := ⟨[], [], [⟨0x1401, 1⟩]⟩ }, ⟨.out, 0x1400, 2, [.write]⟩, ⟨0x1401, 1⟩, 0x1401,
      (configError_eq_none_iff ..).1 (by decide +kernel), (conflictsRunning_eq_false_iff ..).1 (by decide +kernel), by decide +kernel⟩,
    ⟨running { descB with outAddr := 0x400000FF } 0x00252201#32 tableB, ⟨.out, 0x400000FF, 2, [.write]⟩, ⟨0x40000000, 256⟩, 0x400000FF,
      (configError_eq_none_iff ..).1 (by decide +kernel), (conflictsRunning_eq_false_iff ..).1 (by decide +kernel), by decide +kernel⟩⟩

/-- StepKeepsEnginesInv and StepKeepsMemoryCanonical: a running engine, not at reset, whose step answers a next state. -/
theorem witness_StepKeepsInvariants :
    (runB 0x00252201#32).EnginesInv ∧ Memory.wf (runB 0x00252201#32).mem ∧ (∃ t, step (runB 0x00252201#32) = .next t) :=
  ⟨by decide +kernel, by decide +kernel, exists_of_errorRegs _ (by decide +kernel)⟩

/-- AccumulatorWidthAndWrap: both widths. OpcodeMapExact, SpecWordsDecode, DecodeOfEncode, ResetRegisterValues, StatusWordFields,
UnpackRoundTrip, RoundsHalfAwayFromZero, RequantizedInRange, ByteReadsAsLastWritten, LittleEndianReadBack and ResetMeetsInvariants have
no hypothesis. -/
theorem witness_AccumulatorWidthAndWrap :
    64 = (if Instr.convI16.form.inType = .int16 then 64 else 32) ∧ 32 = (if Instr.convI8.form.inType = .int16 then 64 else 32) := by
  decide

end Sys2Proof.Tests
end

section
/-! The step of a running engine (R19, R81, R254; log entry 4). -/

namespace Sys2Proof.Machine

/-! What a step does with its oldest input. -/

theorem step_of_inputs_nil {s : State} (h : s.inputs = []) : step s = runPending s := by
  rw [step, advance, h]

theorem step_of_inputs_cons {s : State} {i : Input} {rest : List Input} (h : s.inputs = i :: rest) :
    step s = serve i { s with inputs := rest } := by
  rw [step, advance, h]

/-! The moving engine, when it runs, is the one that performs its command. -/

/-- An input that names the moving engine's base address is served on that engine. -/
theorem focus_base_self (s : State) : focus (fun e => e.base == s.eng.base) s = some s :=
  focus_self _ _ (beq_self_eq_true _)

theorem runPending_of_run {s : State} (h : s.eng.phase = .run) : runPending s = runEngine s := by
  rw [runPending, focus_self _ _ ((Engine.busy_iff _).2 h)]

theorem complete_self_of_run {s : State} (h : s.eng.phase = .run) : complete s.eng.base s = runEngine s := by
  rw [complete, focus_base_self]
  exact if_pos ((Engine.busy_iff _).2 h)

theorem runEngine_of_decode_ok {s : State} {i : Instr} (h : decode s.eng.cmd = .ok i) : runEngine s = exec i s := by
  rw [runEngine, h]

/-- Settles O6: with no input pending the step is `runPending`, with the engine's completion as the oldest input it is `complete`; on a
running engine both come to `runEngine`, which is `exec` of the decoded command. -/
theorem stepRunsDecodedCommand : Obligations.StepRunsDecodedCommand := by
  intro s i hrun hdec
  constructor
  · intro hnil
    calc step s = runPending s := step_of_inputs_nil hnil
      _ = runEngine s := runPending_of_run hrun
      _ = exec i s := runEngine_of_decode_ok hdec
  · intro rest hcons
    calc step s = complete s.eng.base { s with inputs := rest } := step_of_inputs_cons hcons
      _ = runEngine { s with inputs := rest } := complete_self_of_run (s := { s with inputs := rest }) hrun
      _ = exec i { s with inputs := rest } := runEngine_of_decode_ok hdec

end Sys2Proof.Machine
end

section
/-! The register block: the register at an offset, what a word access does to an engine, and the STATUS and CTRL words field by field
(R21 to R43). -/

namespace Sys2Proof.Machine

/-! Offsets and registers (R23, R42). -/

theorem regAt_eq_some_iff (off : Nat) (r : Reg) : regAt off = some r ↔ r.offset = off := by
  constructor
  · intro h
    simpa using List.find?_some h
  · rintro rfl
    exact regAt_offset r

@[simp] theorem Engine.readAt_offset (e : Engine) (r : Reg) : e.readAt r.offset = e.read r := by
  rw [Engine.readAt, regAt_offset]

@[simp] theorem Engine.writeAt_offset (e : Engine) (v : Word) (r : Reg) : e.writeAt v r.offset = e.write v r := by
  rw [Engine.writeAt, regAt_offset]

theorem Engine.readAt_reserved (e : Engine) {off : Nat} (h : regAt off = none) : e.readAt off = 0#32 := by
  rw [Engine.readAt, h]

theorem Engine.writeAt_reserved (e : Engine) (v : Word) {off : Nat} (h : regAt off = none) : e.writeAt v off = e := by
  rw [Engine.writeAt, h]

/-! What a write does to an engine (R22, R24 to R28). -/

theorem Engine.busy_of_run {e : Engine} (h : e.phase = .run) : e.busy = true := (Engine.busy_iff e).2 h

theorem Engine.busy_of_idle {e : Engine} (h : e.phase = .idle) : e.busy = false := by
  rw [Engine.busy, h]; rfl

theorem Engine.idle_of_not_busy {e : Engine} (h : ¬ e.busy = true) : e.phase = .idle := by
  cases hp : e.phase with
  | idle => rfl
  | run => exact absurd (Engine.busy_of_run hp) h

theorem Engine.write_idle {e : Engine} (h : e.phase = .idle) (v : Word) (r : Reg) : e.write v r = e.writeIdle v r := by
  rw [Engine.write, Engine.busy_of_idle h]; rfl

/-- CTRL is written alike while the engine runs and while it is idle: `writeCtrl` itself tells the two apart. -/
@[simp] theorem Engine.write_ctrl (e : Engine) (v : Word) : e.write v .ctrl = e.writeCtrl v := by
  unfold Engine.write
  split <;> rfl

theorem Engine.write_run {e : Engine} (h : e.phase = .run) (v : Word) {r : Reg} (hr : r ≠ .ctrl) : e.write v r = e := by
  rw [Engine.write, Engine.busy_of_run h, if_pos rfl, if_neg hr]

/-- While BUSY a write at any offset is ignored but for IRQ_EN of a write to CTRL (R22). -/
theorem Engine.writeAt_run {e : Engine} (h : e.phase = .run) (v : Word) (off : Nat) :
    e.writeAt v off = if off = 0x08 then { e with irqEn := v.getLsbD 1 } else e := by
  by_cases hoff : off = 0x08
  · subst hoff
    calc e.writeAt v 0x08 = e.writeCtrl v := Engine.write_ctrl e v
      _ = { e with irqEn := v.getLsbD 1 } := Engine.writeCtrl_busy e v (Engine.busy_of_run h)
  · rw [if_neg hoff]
    cases hreg : regAt off with
    | none => exact Engine.writeAt_reserved e v hreg
    | some r =>
      obtain rfl := (regAt_eq_some_iff off r).1 hreg
      have hr : r ≠ .ctrl := by rintro rfl; exact hoff rfl
      rw [Engine.writeAt_offset, Engine.write_run h v hr]

/-- IRQ_EN takes bit 1 of a word written to CTRL, whether or not the word also starts a command (R25). -/
@[simp] theorem Engine.writeCtrl_irqEn (e : Engine) (v : Word) : (e.writeCtrl v).irqEn = v.getLsbD 1 := by
  simp only [Engine.writeCtrl]
  split <;> rfl

/-- ID, VERSION, ERR_INFO and ERR_ADDR are read-only (R24, R27, R28). -/
theorem Engine.write_readOnly (e : Engine) (v : Word) {r : Reg} (h : r ∈ [Reg.id, .version, .errInfo, .errAddr]) :
    e.write v r = e := by
  simp only [List.mem_cons, List.not_mem_nil, or_false] at h
  unfold Engine.write
  rcases h with rfl | rfl | rfl | rfl <;> split <;> rfl

theorem Engine.ackDone_eq (e : Engine) (v : Word) : e.ackDone v = { e with done := e.done && !v.getLsbD 1 } := by
  unfold Engine.ackDone
  cases v.getLsbD 1 with
  | false => simp
  | true => simp

/-- A host read changes at most the field `lent` (R79). -/
theorem Engine.afterRead_eq (e : Engine) (off : Nat) : e.afterRead off = { e with lent := (e.afterRead off).lent } := by
  unfold Engine.afterRead Engine.observed
  split
  · split <;> rfl
  · rfl

/-! Word accesses to the moving engine's block, as steps (R21). -/

theorem step_regWrite_self {s : State} {off : Nat} {v : Word} {rest : List Input} (h : off < 256) (h4 : off % 4 = 0)
    (hin : s.inputs = .regWrite (s.eng.base + off) 4 v :: rest) :
    step s = .next { s with eng := s.eng.writeAt v off, inputs := rest } := by
  rw [step_of_inputs_cons hin]
  exact withBlock_self { s with inputs := rest } off h h4 (hostWrite v)

theorem step_regRead_self {s : State} {off : Nat} {rest : List Input} (h : off < 256) (h4 : off % 4 = 0)
    (hin : s.inputs = .regRead (s.eng.base + off) 4 :: rest) :
    step s = .next (hostRead off { s with inputs := rest }) := by
  rw [step_of_inputs_cons hin]
  exact withBlock_self { s with inputs := rest } off h h4 hostRead

/-- An access that is no aligned word is refused by the engine whose block holds the address (R21, U9). -/
theorem withBlock_of_badForm (s : State) {addr width : Nat} (h1 : s.eng.base ≤ addr) (h2 : addr < s.eng.base + 256)
    (h : width ≠ 4 ∨ addr % 4 ≠ 0) (k : Nat → State → State) :
    withBlock addr width s k = .refused (.registerAccessForm addr width) := by
  have hform : ¬ (width = 4 ∧ addr % 4 = 0) := by tauto
  rw [withBlock, focus_block s addr h1 h2]
  exact if_neg hform

/-! The STATUS and CTRL words (R25, R26). -/

theorem Engine.statusWord_busy (e : Engine) : e.statusWord.getLsbD 0 = e.busy := by
  rw [Engine.statusWord]
  iterate 5 rw [BitVec.getLsbD_append]
  simp [bit]

theorem Engine.statusWord_done (e : Engine) : e.statusWord.getLsbD 1 = e.done := by
  rw [Engine.statusWord]
  iterate 5 rw [BitVec.getLsbD_append]
  simp [bit]

theorem Engine.statusWord_err (e : Engine) : e.statusWord.getLsbD 2 = e.err := by
  rw [Engine.statusWord]
  iterate 4 rw [BitVec.getLsbD_append]
  simp [bit]

theorem Engine.statusWord_errCode (e : Engine) : e.statusWord.extractLsb' 8 4 = e.errCode.bits := by
  rw [Engine.statusWord, BitVec.extractLsb'_append_eq_ite, dif_pos (by decide), dif_pos (by decide)]
  exact BitVec.extractLsb'_append_eq_left (a := e.errCode.bits)

theorem Engine.statusWord_reservedLow (e : Engine) : e.statusWord.extractLsb' 3 5 = 0#5 := by
  rw [Engine.statusWord]
  iterate 2 rw [BitVec.extractLsb'_append_eq_ite, dif_pos (by decide), dif_pos (by decide)]
  exact BitVec.extractLsb'_append_eq_left (a := 0#5)

theorem Engine.statusWord_reservedHigh (e : Engine) : e.statusWord.extractLsb' 12 20 = 0#20 :=
  BitVec.extractLsb'_append_eq_left (a := 0#20)

/-- The reserved bits of STATUS under one mask: the mask is split as the word is. -/
theorem Engine.statusWord_and_reserved (e : Engine) : e.statusWord &&& 0xFFFFF0F8#32 = 0#32 := by
  have hmask : 0xFFFFF0F8#32 = 0xFFFFF#20 ++ (0#4 ++ (0x1F#5 ++ 0#3)) := rfl
  rw [hmask, Engine.statusWord]
  iterate 3 rw [BitVec.and_append]
  simp

theorem Engine.ctrlWord_irqEn (e : Engine) : e.ctrlWord.getLsbD 1 = e.irqEn := by
  rw [Engine.ctrlWord]
  iterate 2 rw [BitVec.getLsbD_append]
  simp [bit]

theorem Engine.ctrlWord_eq (e : Engine) : e.ctrlWord = if e.irqEn then 0x00000002#32 else 0#32 := by
  unfold Engine.ctrlWord bit
  cases e.irqEn <;> rfl

/-! CMD and the descriptor registers, offsets 0x18 and above (R29 to R42). -/

/-- A 16-bit register keeps bits 15:0 of a written word (R42). -/
theorem word16_low16 (v : Word) : word16 (low16 v) = v &&& 0x0000FFFF#32 := by
  apply BitVec.eq_of_toNat_eq
  have hmask : v.toNat &&& 65535 = v.toNat % 65536 := Nat.and_two_pow_sub_one_eq_mod v.toNat 16
  simp only [word16, low16, BitVec.toNat_setWidth, BitVec.toNat_and, BitVec.toNat_ofNat, Nat.reducePow, Nat.reduceMod, hmask]
  omega

theorem Descriptors.read_write_same (d : Descriptors) (v : Word) {r : Reg} (h : 0x20 ≤ r.offset) :
    (d.write v r).read r = if r.offset ≤ 0x5C then v &&& 0x0000FFFF#32 else v := by
  rw [← word16_low16]
  cases r
  case id | version | ctrl | status | errInfo | errAddr | cmd => exact absurd h (by decide)
  all_goals rfl

theorem Descriptors.read_write_ne (d : Descriptors) (v : Word) {r r' : Reg} (h : r' ≠ r) :
    (d.write v r).read r' = d.read r' := by
  cases r <;> cases r' <;> try contradiction
  all_goals rfl

/-- At offset 0x20 and above the registers are the descriptor registers: an idle engine takes the written word there. -/
theorem Engine.writeIdle_desc (e : Engine) (v : Word) {r : Reg} (h : 0x20 ≤ r.offset) :
    e.writeIdle v r = { e with desc := e.desc.write v r } := by
  cases r
  case id | version | ctrl | status | errInfo | errAddr | cmd => exact absurd h (by decide)
  all_goals rfl

theorem Engine.read_desc (e : Engine) {r : Reg} (h : 0x20 ≤ r.offset) : e.read r = e.desc.read r := by
  cases r
  case id | version | ctrl | status | errInfo | errAddr | cmd => exact absurd h (by decide)
  all_goals rfl

theorem Engine.read_withDesc_of_not_desc (e : Engine) (d : Descriptors) {r : Reg} (h : ¬ 0x20 ≤ r.offset) :
    ({ e with desc := d } : Engine).read r = e.read r := by
  cases r
  case id | version | ctrl | status | errInfo | errAddr | cmd => rfl
  all_goals exact absurd (by decide) h

/-- At offset 0x18 and above a register is CMD or a descriptor register (R23). -/
theorem Reg.eq_cmd_or_desc {r : Reg} (h : 0x18 ≤ r.offset) : r = .cmd ∨ 0x20 ≤ r.offset := by
  cases r
  case cmd => exact .inl rfl
  case id | version | ctrl | status | errInfo | errAddr => exact absurd h (by decide)
  all_goals exact .inr (by decide)

theorem Engine.read_withCmd_ne (e : Engine) (v : Word) {r : Reg} (h : r ≠ .cmd) :
    ({ e with cmd := v } : Engine).read r = e.read r := by
  cases r
  case cmd => exact absurd rfl h
  all_goals rfl

theorem Engine.read_writeIdle_same (e : Engine) (v : Word) {r : Reg} (h : 0x18 ≤ r.offset) :
    (e.writeIdle v r).read r = if 0x20 ≤ r.offset ∧ r.offset ≤ 0x5C then v &&& 0x0000FFFF#32 else v := by
  obtain rfl | hdesc := Reg.eq_cmd_or_desc h
  · rfl
  · rw [Engine.writeIdle_desc e v hdesc, Engine.read_desc _ hdesc]
    simpa [hdesc] using Descriptors.read_write_same e.desc v hdesc

theorem Engine.read_writeIdle_ne (e : Engine) (v : Word) {r r' : Reg} (h : 0x18 ≤ r.offset) (hne : r' ≠ r) :
    (e.writeIdle v r).read r' = e.read r' := by
  obtain rfl | hdesc := Reg.eq_cmd_or_desc h
  · exact Engine.read_withCmd_ne e v hne
  · rw [Engine.writeIdle_desc e v hdesc]
    by_cases hdesc' : 0x20 ≤ r'.offset
    · rw [Engine.read_desc _ hdesc', Engine.read_desc e hdesc']
      exact Descriptors.read_write_ne e.desc v hne
    · exact Engine.read_withDesc_of_not_desc e _ hdesc'

/-! The obligations on the register block. -/

/-- Settles O10: register by register, each is a field of the reset engine or a constant. -/
theorem resetRegisterValues : Obligations.ResetRegisterValues :=
  ⟨fun r => by cases r <;> rfl, rfl, rfl⟩

/-- Settles O16: a word write at 0x0C is `ackDone` on an idle engine. -/
theorem acknowledgeClearsOnlyDone : Obligations.AcknowledgeClearsOnlyDone := by
  intro s v rest hidle hin
  have hwrite : s.eng.writeAt v 0x0C = { s.eng with done := s.eng.done && !v.getLsbD 1 } :=
    calc s.eng.writeAt v 0x0C = s.eng.write v .status := s.eng.writeAt_offset v .status
      _ = s.eng.ackDone v := Engine.write_idle hidle v .status
      _ = _ := s.eng.ackDone_eq v
  rw [step_regWrite_self (by decide) (by decide) hin, hwrite]

/-- Settles O17: the fields of the concatenation that STATUS is. -/
theorem statusWordFields : Obligations.StatusWordFields := by
  intro e
  refine ⟨?_, e.statusWord_done, e.statusWord_err, e.statusWord_reservedLow, e.statusWord_reservedHigh, ?_⟩
  · rw [e.statusWord_busy, e.busy_iff]
  · rw [e.statusWord_errCode]
    cases e.errCode <;> rfl

/-- Settles O19: the block is the moving engine's, and `withBlock` refuses the form before the access is made. -/
theorem badRegisterAccessRefused : Obligations.BadRegisterAccessRefused := by
  intro s addr width v rest h1 h2 hform hin
  rcases hin with hin | hin <;> rw [step_of_inputs_cons hin]
  · exact withBlock_of_badForm { s with inputs := rest } h1 h2 hform (hostWrite v)
  · exact withBlock_of_badForm { s with inputs := rest } h1 h2 hform hostRead

/-- Settles O14: a write to a running engine is `writeAt_run`; a read changes the engine only as `afterRead` does, in `lent`. -/
theorem busyWritesIgnored : Obligations.BusyWritesIgnored := by
  intro s off rest h h4
  constructor
  · intro hrun v hin
    rw [step_regWrite_self h h4 hin, Engine.writeAt_run hrun]
    split <;> rfl
  · intro hin
    refine ⟨_, step_regRead_self h h4 hin, ?_⟩
    show hostRead off { s with inputs := rest } = { s with
      eng := { s.eng with lent := (s.eng.afterRead off).lent }, replies := .word (s.eng.readAt off) :: s.replies, inputs := rest }
    rw [← s.eng.afterRead_eq off]
    rfl

/-- Settles O13: each clause is the lemma of its kind of register: a constant, a read-only one, CTRL, a reserved offset, the reserved bits,
and the writable ones at 0x18 and above. -/
theorem registerReadBack : Obligations.RegisterReadBack := by
  refine ⟨fun s off v rest h h4 hin => step_regWrite_self h h4 hin, fun e => ⟨e.readAt_offset .id, e.readAt_offset .version⟩,
    fun e v r hr => ?_, fun e v => ?_, fun e v off hoff => ?_, fun e => ⟨?_, e.statusWord_and_reserved⟩, fun e v r hidle hr => ?_⟩
  · rw [Engine.writeAt_offset, Engine.write_readOnly e v hr]
  · calc (e.writeAt v 0x08).readAt 0x08 = (e.writeCtrl v).ctrlWord := by
          rw [show 0x08 = Reg.ctrl.offset from rfl, Engine.writeAt_offset, Engine.readAt_offset, Engine.write_ctrl, Engine.read]
      _ = if v.getLsbD 1 then 0x00000002#32 else 0#32 := by rw [Engine.ctrlWord_eq, Engine.writeCtrl_irqEn]
      _ = v &&& 0x00000002#32 := (BitVec.and_twoPow v 1).symm
  · have hres := regAt_reserved off hoff
    exact ⟨e.readAt_reserved hres, e.writeAt_reserved v hres⟩
  · rw [e.ctrlWord_eq]
    cases e.irqEn <;> rfl
  · simp only [Engine.writeAt_offset, Engine.readAt_offset, Engine.write_idle hidle]
    exact ⟨e.read_writeIdle_same v hr, fun r' hne => e.read_writeIdle_ne v hr hne⟩

end Sys2Proof.Machine
end

section
/-! The engines in a step: what a completion leaves of the engine that ran, which engine a step moves, and the invariant of the engines
(R26, R43, R110, R112, R113, R212, R248). -/

namespace Sys2Proof.Machine

/-! A completion (R111 to R113). -/

/-- `e'` is `e` after the completion of its command: `finish()`, or `raise ERR` with an error code (R112, R113). -/
def Engine.Completed (e e' : Engine) : Prop :=
  e' = e.finish ∨ ∃ r : ErrRecord, r.code ≠ .none ∧ e' = e.raise r

theorem ErrRecord.ofCmdError_code (c : CmdError) : (ErrRecord.ofCmdError c).code ≠ .none := by
  cases c <;> exact ErrCode.noConfusion

theorem entryError_code {p : Platform} {m : Memory} {o : Operands} {c : Nat} {r : ErrRecord} (h : entryError p m o c = some r) :
    r.code ≠ .none := by
  unfold entryError at h
  split at h
  · cases h; exact ErrCode.noConfusion
  · split at h
    · cases h; exact ErrCode.noConfusion
    · cases h

theorem tableError_code {f : Form} {p : Platform} {m : Memory} {o : Operands} {r : ErrRecord} (h : tableError f p m o = some r) :
    r.code ≠ .none := by
  unfold tableError at h
  split at h
  · obtain ⟨c, -, hc⟩ := List.exists_of_findSome?_eq_some h
    exact entryError_code hc
  · cases h

/-- A command that ends in a next state has completed on its own engine and left the others as they were. -/
theorem exec_next_engines {i : Instr} {s t : State} (h : exec i s = .next t) : s.eng.Completed t.eng ∧ t.others = s.others := by
  rw [exec_eq_runCommand] at h
  obtain ⟨-, hr⟩ | ⟨-, c, -, hr⟩ | ⟨-, -, -, hr⟩ | ⟨-, -, r, hr', hr⟩ | ⟨-, -, -, x, xs, -, hr⟩ | ⟨-, hr⟩ :=
    runCommand_cases i.form (workOf i) s <;> rw [hr] at h <;> cases h
  · exact ⟨.inr ⟨_, ErrCode.noConfusion, rfl⟩, rfl⟩
  · exact ⟨.inr ⟨_, tableError_code hr', rfl⟩, rfl⟩
  · exact ⟨.inr ⟨_, ErrCode.noConfusion, rfl⟩, rfl⟩
  · exact ⟨.inl rfl, rfl⟩

theorem runEngine_next_engines {s t : State} (h : runEngine s = .next t) : s.eng.Completed t.eng ∧ t.others = s.others := by
  unfold runEngine at h
  split at h
  · exact exec_next_engines h
  · cases h
    exact ⟨.inr ⟨_, ErrRecord.ofCmdError_code _, rfl⟩, rfl⟩

/-- After every completion the interrupt is IRQ_EN, since DONE is set (R43). -/
theorem Engine.Completed.irq {e e' : Engine} (h : e.Completed e') : e'.irq = e.irqEn := by
  obtain rfl | ⟨r, -, rfl⟩ := h
  · exact e.finish_irq
  · exact e.raise_irq r

theorem Engine.irq_eq_status_and_ctrl (e : Engine) : e.irq = (e.statusWord.getLsbD 1 && e.ctrlWord.getLsbD 1) := by
  rw [Engine.statusWord_done, Engine.ctrlWord_irqEn, Engine.irq]

/-- Settles O18: a completion sets DONE and leaves IRQ_EN, whichever step it is; the writes to CTRL and STATUS set or clear one of the
two. -/
theorem completionDrivesInterrupt : Obligations.CompletionDrivesInterrupt := by
  refine ⟨Engine.irq_eq_status_and_ctrl, fun i s t h => (exec_next_engines h).1.irq, fun s t hrun hin h => ?_,
    fun e v hdone h1 h0 => ?_, fun page => rfl, fun e v hidle h1 => ?_, fun e v h1 => ?_⟩
  · rcases hin with hin | ⟨rest, hin⟩
    · rw [step_of_inputs_nil hin, runPending_of_run hrun] at h
      exact (runEngine_next_engines h).1.irq
    · rw [step_of_inputs_cons hin] at h
      have hrunEngine : runEngine { s with inputs := rest } = .next t :=
        (complete_self_of_run (s := { s with inputs := rest }) hrun).symm.trans h
      exact (runEngine_next_engines hrunEngine).1.irq
  · rw [Engine.write_ctrl, Engine.writeCtrl_noStart e v h0]
    simp [Engine.irq, hdone, h1]
  · rw [Engine.write_idle hidle]
    simp [Engine.writeIdle, Engine.ackDone_eq, Engine.irq, h1]
  · simp only [Engine.irq, Engine.write_ctrl, Engine.writeCtrl_irqEn, h1, Bool.and_false]

/-! Which engine moves (R230). -/

/-- What `focus` gives: the engine that moves qualifies, and the engines are those that were there; nothing else has changed. -/
theorem focus_eq_some {p : Engine → Bool} {s t : State} (h : focus p s = some t) :
    p t.eng = true ∧ (t.eng :: t.others).Perm (s.eng :: s.others) ∧ t = { s with eng := t.eng, others := t.others } := by
  unfold focus at h
  split at h
  · cases h
    exact ⟨‹_›, .rfl, rfl⟩
  · obtain ⟨x, hx, rfl⟩ := Option.map_eq_some_iff.1 h
    obtain ⟨hp, hperm⟩ := takeEngine_eq_some p s.eng s.others x hx
    exact ⟨hp, hperm, rfl⟩

/-! The invariant of one engine, update by update. -/

theorem Engine.Inv.start (e : Engine) : e.start.Inv :=
  ⟨fun _ => ⟨rfl, rfl, rfl, fun _ hr => List.mem_append_left _ hr⟩, by simp, fun _ => ⟨rfl, rfl⟩⟩

theorem Engine.Inv.reset (page : Nat) : (Engine.reset page).Inv := by simp [Engine.Inv]

section
variable {e : Engine} (h : e.Inv)
include h

theorem Engine.Inv.completed {e' : Engine} (hrun : e.phase = .run) (hc : e.Completed e') : e'.Inv := by
  obtain ⟨hclear, herr, hinfo⟩ := h
  obtain ⟨-, -, hcode, -⟩ := hclear hrun
  obtain rfl | ⟨r, hr, rfl⟩ := hc
  · exact ⟨by simp, by simp, fun _ => hinfo hcode⟩
  · exact ⟨by simp, by simp [hr], fun hcode' => absurd hcode' hr⟩

/-- DONE is clear while the engine runs, so an engine with DONE set is idle. -/
theorem Engine.Inv.idle_of_done (hdone : e.done = true) : e.phase = .idle := by
  cases hp : e.phase with
  | idle => rfl
  | run => exact absurd hdone (by simp [(h.1 hp).1])

theorem Engine.Inv.observed : e.observed.Inv := by
  unfold Engine.observed
  split
  case isTrue hdone => exact ⟨fun hrun => by simp [h.idle_of_done hdone] at hrun, h.2⟩
  case isFalse => exact h

theorem Engine.Inv.afterRead (off : Nat) : (e.afterRead off).Inv := by
  unfold Engine.afterRead
  split
  · exact h.observed
  · exact h

theorem Engine.Inv.withIrqEn (b : Bool) : ({ e with irqEn := b } : Engine).Inv := h

theorem Engine.Inv.writeCtrl (v : Word) : (e.writeCtrl v).Inv := by
  simp only [Engine.writeCtrl]
  split
  · exact .start _
  · exact h.withIrqEn _

/-- An idle engine's invariant speaks of ERR, ERR_CODE, ERR_INFO and ERR_ADDR alone, and of the writes to an idle engine only a START
touches them (R110). -/
theorem Engine.Inv.writeIdle (hidle : e.phase = .idle) (v : Word) (r : Reg) : (e.writeIdle v r).Inv := by
  have hnotRun : ¬ e.phase = .run := by simp [hidle]
  cases r
  case ctrl => exact h.writeCtrl v
  case status =>
    rw [show e.writeIdle v .status = e.ackDone v from rfl, e.ackDone_eq v]
    exact ⟨fun hrun => absurd hrun hnotRun, h.2⟩
  all_goals exact ⟨fun hrun => absurd hrun hnotRun, h.2⟩

theorem Engine.Inv.write (v : Word) (r : Reg) : (e.write v r).Inv := by
  unfold Engine.write
  split
  · split
    · exact h.writeCtrl v
    · exact h
  case isFalse hnotBusy => exact h.writeIdle (Engine.idle_of_not_busy hnotBusy) v r

theorem Engine.Inv.writeAt (v : Word) (off : Nat) : (e.writeAt v off).Inv := by
  unfold Engine.writeAt
  split
  · exact h.write v _
  · exact h

end

/-! The invariant of every engine, part by part of a step. -/

theorem State.EnginesInv_iff (s : State) : s.EnginesInv ↔ ∀ e ∈ s.eng :: s.others, e.Inv :=
  List.forall_mem_cons.symm

section
variable {s t : State} (h : s.EnginesInv)
include h

theorem State.EnginesInv.focus {p : Engine → Bool} (hf : focus p s = some t) : t.EnginesInv := by
  obtain ⟨-, hperm, -⟩ := focus_eq_some hf
  exact t.EnginesInv_iff.2 fun e he => s.EnginesInv_iff.1 h e (hperm.mem_iff.1 he)

theorem State.EnginesInv.runEngine (hbusy : s.eng.busy = true) (hr : runEngine s = .next t) : t.EnginesInv := by
  obtain ⟨heng, hothers⟩ := runEngine_next_engines hr
  exact ⟨h.1.completed ((Engine.busy_iff _).1 hbusy) heng, hothers ▸ h.2⟩

theorem State.EnginesInv.runPending (hr : runPending s = .next t) : t.EnginesInv := by
  unfold Machine.runPending at hr
  split at hr
  case h_1 s1 hf => exact (h.focus hf).runEngine (focus_eq_some hf).1 hr
  case h_2 => cases hr; exact h

theorem State.EnginesInv.complete {base : Nat} (hr : complete base s = .next t) : t.EnginesInv := by
  unfold Machine.complete at hr
  split at hr
  · cases hr
  case h_2 s1 hf =>
    split at hr
    case isTrue hbusy => exact (h.focus hf).runEngine hbusy hr
    case isFalse => cases hr; exact h.focus hf

/-- A register access keeps the invariant when what it does to the engine of the block keeps it. -/
theorem State.EnginesInv.withBlock {addr width : Nat} {k : Nat → State → State}
    (hk : ∀ off (s1 : State), s1.EnginesInv → (k off s1).EnginesInv) (hr : withBlock addr width s k = .next t) : t.EnginesInv := by
  obtain ⟨s1, off, hf, rfl⟩ := withBlock_next addr width s t k hr
  exact hk off s1 (h.focus hf)

theorem State.EnginesInv.hostWrite (v : Word) (off : Nat) : (hostWrite v off s).EnginesInv := ⟨h.1.writeAt v off, h.2⟩

theorem State.EnginesInv.hostRead (off : Nat) : (hostRead off s).EnginesInv := ⟨h.1.afterRead off, h.2⟩

theorem State.EnginesInv.hostPoll (addr : Nat) (mask value : Word) (off : Nat) : (hostPoll addr mask value off s).EnginesInv := by
  rw [hostPoll_eq]
  exact h.hostRead off

theorem State.EnginesInv.hostStore {a : Nat} {b : Byte} (hr : hostStore a b s = .next t) : t.EnginesInv := by
  obtain ⟨-, hr⟩ := hostAccess_next hr
  split at hr
  · cases hr
  · cases hr; exact h

theorem State.EnginesInv.hostLoad {a : Nat} (hr : hostLoad a s = .next t) : t.EnginesInv := by
  obtain ⟨-, hr⟩ := hostAccess_next hr
  split at hr
  · cases hr; exact h
  · cases hr; exact h

theorem State.EnginesInv.resetEngine : (resetEngine s).EnginesInv := by
  unfold Machine.resetEngine
  split <;> exact ⟨.reset _, h.2⟩

theorem State.EnginesInv.takeIrq : (if s.eng.irq then s.withEng s.eng.observed else s).EnginesInv := by
  split
  · exact ⟨h.1.observed, h.2⟩
  · exact h

/-- Every input served keeps the invariant: an access to a block, to memory, the interrupt, a reset, a completion. -/
theorem State.EnginesInv.serve {i : Input} (hr : serve i s = .next t) : t.EnginesInv := by
  cases i with
  | regWrite addr width v => exact h.withBlock (fun off s1 h1 => h1.hostWrite v off) hr
  | regRead addr width => exact h.withBlock (fun off s1 h1 => h1.hostRead off) hr
  | poll addr mask value => exact h.withBlock (fun off s1 h1 => h1.hostPoll addr mask value off) hr
  | memWrite a b => exact h.hostStore hr
  | memRead a => exact h.hostLoad hr
  | takeIrq base =>
    simp only [Machine.serve] at hr
    split at hr
    · cases hr
    case h_2 s1 hf => cases hr; exact (h.focus hf).takeIrq
  | reset base =>
    simp only [Machine.serve] at hr
    split at hr
    · cases hr
    case h_2 s1 hf =>
      split at hr
      · cases hr
      · cases hr; exact (h.focus hf).resetEngine
  | complete base => exact h.complete hr

end

/-- Settles O58: a step either runs a pending command or serves an input of the machine with that input consumed, and both keep the
invariant. -/
theorem stepKeepsEnginesInv : Obligations.StepKeepsEnginesInv := by
  intro s t h hstep
  cases hin : s.inputs with
  | nil => exact h.runPending (step_of_inputs_nil hin ▸ hstep)
  | cons i rest =>
    have hrest : ({ s with inputs := rest } : State).EnginesInv := h
    exact hrest.serve (step_of_inputs_cons hin ▸ hstep)

/-- Settles O60: the reset engine meets the invariant, there is no other engine, and no byte of memory is listed. -/
theorem resetMeetsInvariants : Obligations.ResetMeetsInvariants :=
  ⟨⟨.reset _, by simp [State.reset]⟩, by simp [State.reset, Memory.wf]⟩

end Sys2Proof.Machine
end

section
/-! The registers a command ignores (R44): operands that agree on the others give the same regions, checks and computation. -/

namespace Sys2Proof.Machine

/-! Agreement on the registers a command of form `f` uses, group by group of the table of R44. -/

/-- The operands agree on what CONV and DWCONV use and UNPACK4 ignores. -/
structure Operands.SameConv (o o' : Operands) : Prop where
  N : o.N = o'.N
  IH : o.IH = o'.IH
  IW : o.IW = o'.IW
  OH : o.OH = o'.OH
  OW : o.OW = o'.OW
  SH : o.SH = o'.SH
  SW : o.SW = o'.SW
  DH : o.DH = o'.DH
  DW : o.DW = o'.DW
  PH : o.PH = o'.PH
  PW : o.PW = o'.PW
  inAddr : o.inAddr = o'.inAddr
  outAddr : o.outAddr = o'.outAddr

/-- The operands agree on what only the integer paths use. -/
structure Operands.SameInt (o o' : Operands) : Prop where
  inZp : o.inZp = o'.inZp
  outZp : o.outZp = o'.outZp
  actMin : o.actMin = o'.actMin
  actMax : o.actMax = o'.actMax
  qtabAddr : o.qtabAddr = o'.qtabAddr
  qtabLen : o.qtabLen = o'.qtabLen

/-- The operands agree on every register a command of form `f` does not ignore (R44). -/
structure Operands.AgreeOn (f : Form) (o o' : Operands) : Prop where
  IC : o.IC = o'.IC
  OC : o.OC = o'.OC
  KH : o.KH = o'.KH
  KW : o.KW = o'.KW
  fltAddr : o.fltAddr = o'.fltAddr
  conv : f.op ≠ .unpack4 → o.SameConv o'
  depth : f.op = .dwconv → o.DM = o'.DM
  int : IntegerForm f → o.SameInt o'
  bias : f.biasType ≠ .absent → o.biasAddr = o'.biasAddr
  scratch : f.fltType = .int4p → o.scratchAddr = o'.scratchAddr ∧ o.scratchLen = o'.scratchLen

/-- Two tests behind one guard agree when they agree where the guard holds. -/
theorem guarded_congr {b x y : Bool} (h : b = true → x = y) : (b && x) = (b && y) := by
  cases b with
  | false => rfl
  | true => exact h rfl

section
variable {f : Form} {o o' : Operands} (h : o.AgreeOn f o')
include h

/-! Regions (R69). -/

theorem Operands.AgreeOn.eFlt (op : Op) : eFlt op o = eFlt op o' := by
  simp only [Machine.eFlt, h.OC, h.KH, h.KW, h.IC]

theorem Operands.AgreeOn.inRegion (hc : f.op ≠ .unpack4) : inRegion f o = inRegion f o' := by
  simp only [Machine.inRegion, eIn, (h.conv hc).inAddr, (h.conv hc).N, (h.conv hc).IH, (h.conv hc).IW, h.IC]

theorem Operands.AgreeOn.fltRegion : fltRegion f o = fltRegion f o' := by
  simp only [Machine.fltRegion, h.fltAddr, h.eFlt]

theorem Operands.AgreeOn.biasRegion (hb : f.biasType ≠ .absent) : biasRegion f o = biasRegion f o' := by
  simp only [Machine.biasRegion, h.bias hb, h.OC]

theorem Operands.AgreeOn.qtabRegion (hi : IntegerForm f) : qtabRegion o = qtabRegion o' := by
  simp only [Machine.qtabRegion, (h.int hi).qtabAddr, h.OC]

theorem Operands.AgreeOn.outRegion (hc : f.op ≠ .unpack4) : outRegion f o = outRegion f o' := by
  simp only [Machine.outRegion, eOut, (h.conv hc).outAddr, (h.conv hc).N, (h.conv hc).OH, (h.conv hc).OW, h.OC]

theorem Operands.AgreeOn.scrRegion (hp : f.fltType = .int4p) : scrRegion f o = scrRegion f o' := by
  simp only [Machine.scrRegion, (h.scratch hp).1, h.eFlt]

/-- The active regions agree: UNPACK4 reads its filter packed, as every command with a scratch region does. -/
theorem Operands.AgreeOn.regions (hu : f.op = .unpack4 → f.fltType = .int4p) : regions f o = regions f o' := by
  unfold Machine.regions
  split
  case isTrue hconv =>
    have hc := (isConv_iff f).1 hconv
    have hbias : (if f.biasType != .absent then [Machine.biasRegion f o] else []) =
        if f.biasType != .absent then [Machine.biasRegion f o'] else [] := by
      split
      case isTrue hb => rw [h.biasRegion (bne_iff_ne.1 hb)]
      case isFalse => rfl
    have hqtab : (if isInt f then [Machine.qtabRegion o] else []) = if isInt f then [Machine.qtabRegion o'] else [] := by
      split
      case isTrue hi => rw [h.qtabRegion ((isInt_iff f).1 hi)]
      case isFalse => rfl
    have hscr : (if isPacked f then [Machine.scrRegion f o] else []) = if isPacked f then [Machine.scrRegion f o'] else [] := by
      split
      case isTrue hp => rw [h.scrRegion ((isPacked_iff f).1 hp)]
      case isFalse => rfl
    rw [h.inRegion hc, h.fltRegion, h.outRegion hc, hbias, hqtab, hscr]
  case isFalse hconv =>
    have hop : f.op = .unpack4 := by simpa [isConv_iff] using hconv
    rw [h.fltRegion, h.scrRegion (hu hop)]

/-! Phases 3 to 5: the checks (R119 to R130). -/

theorem Operands.AgreeOn.paramRangeBad (hc : f.op ≠ .unpack4) : paramRangeBad f o = paramRangeBad f o' := by
  have hdepth : (f.op == .dwconv && o.DM == 0) = (f.op == .dwconv && o'.DM == 0) :=
    guarded_congr fun hd => by rw [h.depth (eq_of_beq hd)]
  simp only [Machine.paramRangeBad, (h.conv hc).SH, (h.conv hc).SW, (h.conv hc).DH, (h.conv hc).DW, h.KH, h.KW, hdepth]

theorem Operands.AgreeOn.depthBad : depthBad f o = depthBad f o' :=
  guarded_congr fun hd => by rw [h.OC, h.IC, h.depth (eq_of_beq hd)]

theorem Operands.AgreeOn.configChecks (hu : f.op = .unpack4 → f.fltType = .int4p) : configChecks f o = configChecks f o' := by
  have hint : ∀ {x y : Bool}, (o.SameInt o' → x = y) → (isInt f && x) = (isInt f && y) :=
    fun hxy => guarded_congr fun hi => hxy (h.int ((isInt_iff f).1 hi))
  have hpacked : ∀ {x y : Bool}, (o.scratchLen = o'.scratchLen → x = y) → (isPacked f && x) = (isPacked f && y) :=
    fun hxy => guarded_congr fun hp => hxy (h.scratch ((isPacked_iff f).1 hp)).2
  have hparam : (isConv f && Machine.paramRangeBad f o) = (isConv f && Machine.paramRangeBad f o') :=
    guarded_congr fun hc => h.paramRangeBad ((isConv_iff f).1 hc)
  have hqtab : (isInt f && qtabLenBad o) = (isInt f && qtabLenBad o') :=
    hint fun hi => by simp only [qtabLenBad, hi.qtabLen, h.OC]
  have hmissing : (isPacked f && scratchMissing o) = (isPacked f && scratchMissing o') :=
    hpacked fun hl => by simp only [scratchMissing, hl]
  have hsmall : (isPacked f && scratchSmall f o) = (isPacked f && scratchSmall f o') :=
    hpacked fun hl => by simp only [scratchSmall, hl, h.eFlt]
  have hzp : (isInt f && zpRangeBad f o) = (isInt f && zpRangeBad f o') :=
    hint fun hi => by simp only [zpRangeBad, hi.inZp, hi.outZp]
  have hact : (isInt f && actRangeBad o) = (isInt f && actRangeBad o') :=
    hint fun hi => by simp only [actRangeBad, hi.actMin, hi.actMax]
  simp only [Machine.configChecks, hparam, h.depthBad, hqtab, hmissing, hsmall, hzp, hact, h.regions hu]

theorem Operands.AgreeOn.configError (hu : f.op = .unpack4 → f.fltType = .int4p) : configError f o = configError f o' := by
  simp only [Machine.configError, h.configChecks hu]

theorem Operands.AgreeOn.addrQtab (hi : IntegerForm f) : addrQtab o = addrQtab o' := by
  funext c
  simp only [Machine.addrQtab, (h.int hi).qtabAddr]

theorem Operands.AgreeOn.shift (hi : IntegerForm f) (m : Memory) : shift m o = shift m o' := by
  funext c
  simp only [Machine.shift, h.addrQtab hi]

theorem Operands.AgreeOn.tableError (p : Platform) (m : Memory) : tableError f p m o = tableError f p m o' := by
  unfold Machine.tableError
  split
  case isTrue hi =>
    have hentry : entryError p m o = entryError p m o' := by
      funext c
      unfold entryError
      rw [h.addrQtab ((isInt_iff f).1 hi), h.shift ((isInt_iff f).1 hi)]
    rw [h.OC, hentry]
  case isFalse => rfl

theorem Operands.AgreeOn.faultSet (hu : f.op = .unpack4 → f.fltType = .int4p) (p : Platform) : faultSet f p o = faultSet f p o' := by
  simp only [Machine.faultSet, h.regions hu]

/-! The computation (R132, R141, R150 to R162). -/

theorem Operands.AgreeOn.unpackPass (hp : f.fltType = .int4p) : unpackPass f o = unpackPass f o' := by
  funext m
  simp only [Machine.unpackPass, unpackCells, h.eFlt, h.fltAddr, (h.scratch hp).1]

theorem Operands.AgreeOn.outputElems (hc : f.op ≠ .unpack4) : outputElems o = outputElems o' := by
  simp only [Machine.outputElems, (h.conv hc).N, (h.conv hc).OH, (h.conv hc).OW, h.OC]

theorem Operands.AgreeOn.addrOut (hc : f.op ≠ .unpack4) : addrOut f o = addrOut f o' := by
  funext n y x oc
  simp only [Machine.addrOut, (h.conv hc).outAddr, (h.conv hc).OH, (h.conv hc).OW, h.OC]

theorem Operands.AgreeOn.windowTaps (hc : f.op ≠ .unpack4) : windowTaps o = windowTaps o' := by
  have hrow : tapRow o = tapRow o' := by
    funext oy ky
    simp only [tapRow, (h.conv hc).SH, (h.conv hc).PH, (h.conv hc).DH]
  have hcol : tapCol o = tapCol o' := by
    funext ox kx
    simp only [tapCol, (h.conv hc).SW, (h.conv hc).PW, (h.conv hc).DW]
  have hinBounds : inBounds o = inBounds o' := by
    funext iy ix
    simp only [inBounds, (h.conv hc).IH, (h.conv hc).IW]
  unfold Machine.windowTaps
  rw [hrow, hcol, hinBounds, h.KH, h.KW]

theorem Operands.AgreeOn.addrIn (hc : f.op ≠ .unpack4) : addrIn f o = addrIn f o' := by
  funext n y x c
  simp only [Machine.addrIn, (h.conv hc).inAddr, (h.conv hc).IH, (h.conv hc).IW, h.IC]

/-- Only DWCONV divides a channel by DEPTH_MULT (R155). -/
theorem Operands.AgreeOn.terms (hc : f.op ≠ .unpack4) : terms f o = terms f o' := by
  funext e
  unfold Machine.terms
  split
  case h_1 hop => simp only [termsDw, filterDw, h.windowTaps hc, h.addrIn hc, h.depth hop, h.KW, h.OC]
  case h_2 => simp only [termsStd, filterStd, h.windowTaps hc, h.addrIn hc, h.IC, h.KH, h.KW]

theorem Operands.AgreeOn.biasValue (m : Memory) (oc : Nat) : biasValue f o m oc = biasValue f o' m oc := by
  unfold Machine.biasValue
  split
  · rfl
  case isFalse hb => rw [addrBias, addrBias, h.bias (by simpa using hb)]

theorem Operands.AgreeOn.floatBias (m : Memory) (oc : Nat) : floatBias f o m oc = floatBias f o' m oc := by
  unfold Machine.floatBias
  split
  · rfl
  case isFalse hb => rw [addrBias, addrBias, h.bias (by simpa using hb)]

theorem Operands.AgreeOn.floatPath (hc : f.op ≠ .unpack4) : floatPath f o = floatPath f o' := by
  funext m
  simp only [Machine.floatPath, floatCells, floatTerms, h.outputElems hc, h.addrOut hc, h.terms hc, h.floatBias, h.fltAddr]

/-- The filter is read at FLT_ADDR, or at SCRATCH_ADDR when it is packed (R158). -/
theorem Operands.AgreeOn.filterBase : filterBase f o = filterBase f o' := by
  unfold Machine.filterBase
  split
  case isTrue hp => exact (h.scratch ((isPacked_iff f).1 hp)).1
  case isFalse => exact h.fltAddr

theorem Operands.AgreeOn.accumulate (hi : IntegerForm f) : accumulate f o = accumulate f o' := by
  have hproduct : product f o = product f o' := by
    funext m t
    simp only [product, filterElem, h.filterBase, (h.int hi).inZp]
  funext m e
  simp only [Machine.accumulate, exactSum, h.terms hi.1, hproduct, h.biasValue]

theorem Operands.AgreeOn.integerCells (hi : IntegerForm f) : integerCells f o = integerCells f o' := by
  funext qt m
  simp only [Machine.integerCells, outputValue, multiplier, h.addrQtab hi, h.shift hi, h.outputElems hi.1, h.addrOut hi.1,
    h.accumulate hi, (h.int hi).outZp, (h.int hi).actMin, (h.int hi).actMax]

theorem Operands.AgreeOn.integerPath (hi : IntegerForm f) : integerPath f o = integerPath f o' := by
  funext m
  simp only [Machine.integerPath, h.integerCells hi]

theorem Operands.AgreeOn.packedPath (hi : IntegerForm f) (hp : f.fltType = .int4p) : packedPath f o = packedPath f o' := by
  funext m
  simp only [Machine.packedPath, h.unpackPass hp, h.integerCells hi]

end

/-- Each command computes alike on operands that agree on what it uses. -/
theorem workOf_congr {i : Instr} {o o' : Operands} (h : o.AgreeOn i.form o') : workOf i o = workOf i o' := by
  cases i
  case convF32 | convF32Nb | dwconvF32 | dwconvF32Nb => exact h.floatPath (by decide)
  case convI8w4 | convI8w4Nb | dwconvI8w4 | dwconvI8w4Nb => exact h.packedPath (by decide) rfl
  case unpack4 => exact h.unpackPass rfl
  all_goals exact h.integerPath (by decide)

/-- The form of UNPACK4 has a packed filter. -/
theorem fltType_of_unpack4 {i : Instr} (h : i.form.op = .unpack4) : i.form.fltType = .int4p := by
  cases i
  case unpack4 => rfl
  all_goals exact absurd h (by decide)

/-! The descriptor registers of the moving engine replaced. -/

/-- The state with `d` in the moving engine's descriptor registers. -/
def State.withDesc (s : State) (d : Descriptors) : State := { s with eng := { s.eng with desc := d } }

section
variable {f : Form} {work : Operands → Memory → Memory} {s t : State} {d : Descriptors}
  (h : s.operands.AgreeOn f (operandsOf d)) (hu : f.op = .unpack4 → f.fltType = .int4p)
  (hw : work s.operands = work (operandsOf d))
include h hu hw

theorem runMemoryPhases_withDesc (hr : runMemoryPhases f work s = .next t) :
    runMemoryPhases f work (s.withDesc d) = .next (t.withDesc d) := by
  have htable' : tableError f (s.withDesc d).platform (s.withDesc d).mem (s.withDesc d).operands =
      tableError f s.platform s.mem s.operands := (h.tableError s.platform s.mem).symm
  have hfault' : faultSet f (s.withDesc d).platform (s.withDesc d).operands = faultSet f s.platform s.operands :=
    (h.faultSet hu s.platform).symm
  have hregions : regions f (s.withDesc d).operands = regions f s.operands := (h.regions hu).symm
  have hwork : work (s.withDesc d).operands = work s.operands := hw.symm
  simp only [runMemoryPhases, htable', hfault', hregions, hwork]
  cases htable : tableError f s.platform s.mem s.operands with
  | some e =>
    simp only [runMemoryPhases, htable] at hr
    cases hr; rfl
  | none =>
    cases hfault : faultSet f s.platform s.operands with
    | cons x xs =>
      simp only [runMemoryPhases, htable, hfault] at hr
      cases hr; rfl
    | nil =>
      simp only [runMemoryPhases, htable, hfault] at hr
      cases hr; rfl

/-- A command whose operands agree on all it uses, in regions, checks and computation, ends alike. -/
theorem runCommand_withDesc (hr : runCommand f work s = .next t) : runCommand f work (s.withDesc d) = .next (t.withDesc d) := by
  have hregions : regions f (s.withDesc d).operands = regions f s.operands := (h.regions hu).symm
  have hconfig' : configError f (s.withDesc d).operands = configError f s.operands := (h.configError hu).symm
  have hconflict' : conflictsRunning (s.withDesc d) = conflictsRunning s := rfl
  have hdevice' : coversDevice (s.withDesc d) = coversDevice s := rfl
  simp only [runCommand, hregions, hconfig', hconflict', hdevice']
  cases hconflict : conflictsRunning s (regions f s.operands) with
  | true =>
    rw [runCommand_of_conflict f work s hconflict] at hr
    cases hr
  | false =>
    cases hconfig : configError f s.operands with
    | some c =>
      simp only [runCommand, hconflict, hconfig] at hr
      cases hr; rfl
    | none =>
      cases hdevice : coversDevice s (regions f s.operands) with
      | true => simp [runCommand, hconflict, hconfig, hdevice] at hr
      | false =>
        simp only [runCommand, hconflict, hconfig, hdevice] at hr
        exact runMemoryPhases_withDesc h hu hw hr

end

/-- Settles O51: the premises say register by register that the operands agree on what the command uses, so that its regions, checks and
computation agree. -/
theorem ignoredRegistersDoNotMatter : Obligations.IgnoredRegistersDoNotMatter := by
  intro i s t d hexec hall hconv hdepth hint hbias hpacked
  obtain ⟨hIC, hOC, hKH, hKW, hflt⟩ := hall
  have hagree : s.operands.AgreeOn i.form (operandsOf d) :=
    { IC := congrArg BitVec.toNat hIC.symm
      OC := congrArg BitVec.toNat hOC.symm
      KH := congrArg BitVec.toNat hKH.symm
      KW := congrArg BitVec.toNat hKW.symm
      fltAddr := congrArg BitVec.toNat hflt.symm
      conv := fun hop => by
        have hne : i ≠ .unpack4 := by rintro rfl; exact hop rfl
        obtain ⟨hN, hIH, hIW, hOH, hOW, hSH, hSW, hDH, hDW, hPH, hPW, hin, hout⟩ := hconv hne
        constructor <;> simp only [State.operands, operandsOf, *]
      depth := fun hop => congrArg BitVec.toNat (hdepth hop).symm
      int := fun hi => by
        obtain ⟨hinZp, houtZp, hmin, hmax, hqtab, hlen⟩ := hint hi
        constructor <;> simp only [State.operands, operandsOf, *]
      bias := fun hb => congrArg BitVec.toNat (hbias hb).symm
      scratch := fun hp => by
        obtain ⟨haddr, hlen⟩ := hpacked hp
        exact ⟨congrArg BitVec.toNat haddr.symm, congrArg BitVec.toNat hlen.symm⟩ }
  rw [exec_eq_runCommand] at hexec ⊢
  exact runCommand_withDesc hagree fltType_of_unpack4 (workOf_congr hagree) hexec

end Sys2Proof.Machine
end

section
/-! Bytes and little-endian values of data memory (R60, R62, R75). -/

namespace Sys2Proof.Machine

/-- The number of `n` bytes as one sum, the byte at the lowest address least significant (R62). -/
theorem Memory.number_eq_sum (m : Memory) (a n : Nat) :
    Memory.number m a n = ∑ i ∈ Finset.range n, (Memory.get m (a + i)).toNat * 2 ^ (8 * i) := by
  induction n with
  | zero => rfl
  | succ n ih => rw [Memory.number, ih, Finset.sum_range_succ]

/-- Byte `i` of a value just written: no other cell of the write goes to its address. -/
theorem get_memWrite (m : Memory) (a n : Nat) (v : BitVec (8 * n)) {i : Nat} (hi : i < n) :
    Memory.get (memWrite m a n v) (a + i) = v.extractLsb' (8 * i) 8 := by
  apply Memory.get_store_of_mem
  · exact ⟨_, (mem_cellsLE ..).2 ⟨i, hi, rfl⟩, rfl⟩
  · intro c hc haddr
    obtain ⟨j, -, rfl⟩ := (mem_cellsLE ..).1 hc
    obtain rfl : j = i := Nat.add_left_cancel haddr
    rfl

theorem get_memWrite_outside (m : Memory) (a n : Nat) (v : BitVec (8 * n)) {a' : Nat} (ha : ¬ (a ≤ a' ∧ a' < a + n)) :
    Memory.get (memWrite m a n v) a' = Memory.get m a' := by
  apply Memory.get_store_of_notMem
  intro c hc haddr
  obtain ⟨i, hi, rfl⟩ := (mem_cellsLE ..).1 hc
  exact ha (by simp only at haddr; omega)

theorem memRead_memWrite (m : Memory) (a n : Nat) (v : BitVec (8 * n)) : memRead (memWrite m a n v) a n = v :=
  memRead_eq_of_bytes _ a n v fun _ hi => get_memWrite m a n v hi

/-- Settles O56: the law of a read after a write of one byte. -/
theorem byteReadsAsLastWritten : Obligations.ByteReadsAsLastWritten :=
  fun m a a' b => Memory.get_put m a b a'

/-- Settles O57: the read as a sum, and what each address holds after the write. -/
theorem littleEndianReadBack : Obligations.LittleEndianReadBack := fun m a n v =>
  ⟨(memRead_toNat m a n).trans (Memory.number_eq_sum m a n), memRead_memWrite m a n v, fun _ hi => get_memWrite m a n v hi,
    fun _ ha => get_memWrite_outside m a n v ha⟩

end Sys2Proof.Machine
end

section
/-! What a command may change, and when it is refused for a breach of a duty of the host (R61, R75, R82, R250, R257). -/

namespace Sys2Proof.Machine

/-- A command that ends in a next state has raised an error with memory untouched, or ended in an execution bus error, or executed normally
(R111). -/
theorem exec_next_cases {i : Instr} {s t : State} (h : exec i s = .next t) :
    (∃ r, t = raiseErr r s) ∨ (∃ x xs, t = busFault (regions i.form s.operands) x xs s) ∨
    (Accepted i.form s ∧ t = finish (workOf i s.operands s.mem) s) := by
  rw [exec_eq_runCommand] at h
  obtain ⟨-, hr⟩ | ⟨-, c, -, hr⟩ | ⟨-, -, -, hr⟩ | ⟨-, -, r, -, hr⟩ | ⟨-, -, -, x, xs, -, hr⟩ | ⟨hacc, hr⟩ :=
    runCommand_cases i.form (workOf i) s <;> rw [hr] at h <;> cases h
  · exact .inl ⟨_, rfl⟩
  · exact .inl ⟨_, rfl⟩
  · exact .inr (.inl ⟨x, xs, rfl⟩)
  · exact .inr (.inr ⟨hacc, rfl⟩)

/-- Settles O20: an error leaves memory as it was, a bus error touches the bytes of OUT and SCR, and a normal end those its computation
writes; each completion sets the result registers of its own engine and nothing else. -/
theorem commandWritesOnlyResults : Obligations.CommandWritesOnlyResults := by
  intro i s t h
  obtain ⟨r, rfl⟩ | ⟨x, xs, rfl⟩ | ⟨-, rfl⟩ := exec_next_cases h
  · exact ⟨rfl, fun _ _ => rfl⟩
  · exact ⟨rfl, fun a ha => get_unspecify_outside s.draws _ s.mem a ha⟩
  · exact ⟨rfl, fun a ha => workOf_outside i s.operands s.mem a ha⟩

/-- Settles O54: the conflict is what `runCommand` judges before all else. -/
theorem overlappingEnginesRefused : Obligations.OverlappingEnginesRefused := by
  intro i s e r t he hrun hr ht hwritten hoverlap
  rw [exec_eq_runCommand]
  exact runCommand_of_conflict _ _ s ((conflictsRunning_eq_true_iff ..).2 ⟨e, he, hrun, r, hr, t, ht, hwritten, hoverlap⟩)

/-- Where a device stands: at a range of the platform's map or at an engine's register block (R61, R75). -/
theorem mem_deviceRanges (s : State) (d : Range) :
    d ∈ deviceRanges s ↔ d ∈ s.platform.devices ∨ ∃ e ∈ s.eng :: s.others, d = ⟨e.base, 256⟩ := by
  simp only [deviceRanges, Engine.block, List.mem_append, List.mem_map, eq_comm]

/-- Two stretches with an address in common overlap (R71). -/
theorem overlap_of_common {a la b lb x : Nat} (ha : a ≤ x) (ha' : x < a + la) (hb : b ≤ x) (hb' : x < b + lb) :
    overlap a la b lb = true := by
  simp only [overlap, Bool.and_eq_true, decide_eq_true_eq]
  omega

theorem coversDevice_of_common {s : State} {rs : List Region} {r : Region} {d : Range} {a : Nat} (hr : r ∈ rs)
    (hd : d ∈ deviceRanges s) (hra : r.base ≤ a) (hra' : a < r.base + r.len) (hda : d.base ≤ a) (hda' : a < d.base + d.len) :
    coversDevice s rs = true :=
  List.any_eq_true.2 ⟨r, hr, List.any_eq_true.2 ⟨d, hd, overlap_of_common hra hra' hda hda'⟩⟩

/-- Settles O55: a region and a device with an address in common overlap, and `runCommand` refuses that after phase 3. -/
theorem regionOverDeviceRefused : Obligations.RegionOverDeviceRefused := by
  intro i s r d a hchecks hconflict hr hd hra hra' hda hda'
  have hcovers := coversDevice_of_common hr ((mem_deviceRanges s d).2 hd) hra hra' hda hda'
  rw [exec_eq_runCommand]
  exact runCommand_of_device _ _ s hconflict hchecks hcovers

end Sys2Proof.Machine
end

section
/-! Host accesses to data memory (R60, R61, R72, R79, R80, R248). -/

namespace Sys2Proof.Machine

theorem Region.holds_iff (r : Region) (a : Nat) : r.holds a = true ↔ r.base ≤ a ∧ a < r.base + r.len := by
  simp [Region.holds]

theorem lentRegions_any_iff (s : State) (p : Region → Bool) :
    (lentRegions s).any p = true ↔ ∃ e ∈ s.eng :: s.others, ∃ r ∈ e.lent, p r = true := by
  simp only [lentRegions, List.any_flatMap, List.any_eq_true]

section
variable {s : State} {a : Nat} (ha : a < addrSpace) (hdev : (deviceRanges s).any (fun r => inRange r a) = false)
include ha hdev

/-- An admitted access to a byte that exists and is no device goes through. -/
theorem hostAccess_of_plain {k : AccessKind} (hadm : admits s.platform a k = true) (t : Host.Outcome State Fault Refusal) :
    hostAccess a k s t = t := by
  simp [hostAccess, Nat.not_le.2 ha, hdev, hadm]

theorem hostStore_of_plain (hadm : admits s.platform a .write = true) (b : Byte) :
    hostStore a b s =
      if ∃ e ∈ s.eng :: s.others, ∃ r ∈ e.lent, r.base ≤ a ∧ a < r.base + r.len then .refused (.hostWriteToLentByte a)
      else .next { s with mem := Memory.put s.mem a b } := by
  simp only [hostStore, hostAccess_of_plain ha hdev hadm, lentRegions_any_iff, Region.holds_iff]

theorem hostLoad_of_plain (hadm : admits s.platform a .read = true) :
    hostLoad a s =
      if ∃ e ∈ s.eng :: s.others, ∃ r ∈ e.lent, r.written = true ∧ r.base ≤ a ∧ a < r.base + r.len then
        .next { s with replies := .byte (Config.freeByte s.draws a) :: s.replies, draws := s.draws + 1 }
      else .next { s with replies := .byte (Memory.get s.mem a) :: s.replies } := by
  simp only [hostLoad, hostAccess_of_plain ha hdev hadm, lentRegions_any_iff, Bool.and_eq_true, Region.holds_iff]

end

/-- Settles O53: each clause is one branch of the access to a plain byte, served with its input consumed. -/
theorem hostAccessToLentBytes : Obligations.HostAccessToLentBytes := by
  intro s a b rest ha hdev
  refine ⟨fun hin hadm => ?_, fun hin hadm => ?_⟩
  · have hstep := (step_of_inputs_cons hin).trans (hostStore_of_plain (s := { s with inputs := rest }) ha hdev hadm b)
    refine ⟨fun hlent => hstep.trans (if_pos hlent), fun hfree => hstep.trans (if_neg ?_)⟩
    rintro ⟨e, he, r, hr, hra⟩
    exact hfree e he r hr hra
  · have hstep := (step_of_inputs_cons hin).trans (hostLoad_of_plain (s := { s with inputs := rest }) ha hdev hadm)
    refine ⟨fun hfree => hstep.trans (if_neg ?_), fun hlent => ⟨_, _, hstep.trans (if_pos hlent), rfl⟩⟩
    rintro ⟨e, he, r, hr, hwritten, hra⟩
    exact hfree e he r hr hwritten hra

end Sys2Proof.Machine
end

section
/-! The canonical form of data memory, kept by every part of a step (R60, R70). A step writes memory in four ways: the computation of a
command, the unspecified bytes of a bus error and of a reset, and a host write. -/

namespace Sys2Proof.Machine

/-! What leaves memory alone. -/

@[simp] theorem hostWrite_mem (v : Word) (off : Nat) (s : State) : (hostWrite v off s).mem = s.mem := rfl

@[simp] theorem hostRead_mem (off : Nat) (s : State) : (hostRead off s).mem = s.mem := rfl

@[simp] theorem hostPoll_mem (addr : Nat) (mask value : Word) (off : Nat) (s : State) :
    (hostPoll addr mask value off s).mem = s.mem := by
  rw [hostPoll_eq, hostRead_mem]

theorem focus_mem {p : Engine → Bool} {s t : State} (h : focus p s = some t) : t.mem = s.mem :=
  by
  obtain ⟨-, -, ht⟩ := focus_eq_some h
  rw [ht]

/-- A register access leaves memory alone when what it does to the engine of the block does. -/
theorem withBlock_mem {addr width : Nat} {s t : State} {k : Nat → State → State} (hk : ∀ off s1, (k off s1).mem = s1.mem)
    (h : withBlock addr width s k = .next t) : t.mem = s.mem := by
  obtain ⟨s1, off, hf, rfl⟩ := withBlock_next addr width s t k h
  rw [hk, focus_mem hf]

theorem hostLoad_mem {a : Nat} {s t : State} (h : hostLoad a s = .next t) : t.mem = s.mem := by
  obtain ⟨-, h⟩ := hostAccess_next h
  split at h <;> cases h <;> rfl

/-! What writes memory, and the steps it is part of. -/

section
variable {s t : State} (hm : Memory.wf s.mem)
include hm

/-- The bytes a command computes lie in regions that phase 3 has found to end inside the address space (R127). -/
theorem exec_wf {i : Instr} (h : exec i s = .next t) : Memory.wf t.mem := by
  obtain ⟨r, rfl⟩ | ⟨x, xs, rfl⟩ | ⟨hacc, rfl⟩ := exec_next_cases h
  · exact hm
  · exact wf_unspecify _ _ _ hm
  · exact workOf_wf i _ _ hacc.1 hm

theorem runEngine_wf (h : runEngine s = .next t) : Memory.wf t.mem := by
  unfold runEngine at h
  split at h
  · exact exec_wf hm h
  · cases h; exact hm

theorem runPending_wf (h : runPending s = .next t) : Memory.wf t.mem := by
  unfold runPending at h
  split at h
  case h_1 s1 hf => exact runEngine_wf (focus_mem hf ▸ hm) h
  case h_2 => cases h; exact hm

theorem complete_wf {base : Nat} (h : complete base s = .next t) : Memory.wf t.mem := by
  unfold complete at h
  split at h
  · cases h
  case h_2 s1 hf =>
    have hm1 : Memory.wf s1.mem := focus_mem hf ▸ hm
    split at h
    · exact runEngine_wf hm1 h
    · cases h; exact hm1

theorem hostStore_wf {a : Nat} {b : Byte} (h : hostStore a b s = .next t) : Memory.wf t.mem := by
  obtain ⟨ha, h⟩ := hostAccess_next h
  split at h
  · cases h
  · cases h; exact Memory.wf_put s.mem a b hm ha

theorem resetEngine_wf : Memory.wf (resetEngine s).mem := by
  unfold resetEngine
  split
  · exact wf_unspecify _ _ _ hm
  · exact hm

/-- Every input served keeps the canonical form. -/
theorem serve_wf {i : Input} (h : serve i s = .next t) : Memory.wf t.mem := by
  cases i with
  | regWrite addr width v => exact withBlock_mem (hostWrite_mem v) h ▸ hm
  | regRead addr width => exact withBlock_mem hostRead_mem h ▸ hm
  | poll addr mask value => exact withBlock_mem (hostPoll_mem addr mask value) h ▸ hm
  | memWrite a b => exact hostStore_wf hm h
  | memRead a => exact hostLoad_mem h ▸ hm
  | takeIrq base =>
    simp only [serve] at h
    split at h
    · cases h
    case h_2 s1 hf =>
      cases h
      rw [apply_ite State.mem, State.withEng_mem, ite_self, focus_mem hf]
      exact hm
  | reset base =>
    simp only [serve] at h
    split at h
    · cases h
    case h_2 s1 hf =>
      split at h
      · cases h
      · cases h; exact resetEngine_wf (focus_mem hf ▸ hm)
  | complete base => exact complete_wf hm h

end

/-- Settles O59: a step either runs a pending command or serves an input of the machine with that input consumed, and both keep the
canonical form. -/
theorem stepKeepsMemoryCanonical : Obligations.StepKeepsMemoryCanonical := by
  intro s t hm hstep
  cases hin : s.inputs with
  | nil => exact runPending_wf hm (step_of_inputs_nil hin ▸ hstep)
  | cons i rest => exact serve_wf (s := { s with inputs := rest }) hm (step_of_inputs_cons hin ▸ hstep)

end Sys2Proof.Machine
end

section
/-! The opcode map (R91 to R102): `decode` and `encode` are inverse, so the words that decode are the words of the 19 commands and no
others. -/

namespace Sys2Proof

/-- Every command is well formed and its CMD word reads back as its fields: the per-command laws together. -/
theorem encodesOwnWord (i : Instr) : Laws.EncodesOwnWord.Statement i := by
  cases i with
  | convF32 => exact Laws.EncodesOwnWord.convF32
  | convF32Nb => exact Laws.EncodesOwnWord.convF32Nb
  | convI8 => exact Laws.EncodesOwnWord.convI8
  | convI8Nb => exact Laws.EncodesOwnWord.convI8Nb
  | convI8w4 => exact Laws.EncodesOwnWord.convI8w4
  | convI8w4Nb => exact Laws.EncodesOwnWord.convI8w4Nb
  | convI16 => exact Laws.EncodesOwnWord.convI16
  | convI16Nb => exact Laws.EncodesOwnWord.convI16Nb
  | convI16b64 => exact Laws.EncodesOwnWord.convI16b64
  | dwconvF32 => exact Laws.EncodesOwnWord.dwconvF32
  | dwconvF32Nb => exact Laws.EncodesOwnWord.dwconvF32Nb
  | dwconvI8 => exact Laws.EncodesOwnWord.dwconvI8
  | dwconvI8Nb => exact Laws.EncodesOwnWord.dwconvI8Nb
  | dwconvI8w4 => exact Laws.EncodesOwnWord.dwconvI8w4
  | dwconvI8w4Nb => exact Laws.EncodesOwnWord.dwconvI8w4Nb
  | dwconvI16 => exact Laws.EncodesOwnWord.dwconvI16
  | dwconvI16Nb => exact Laws.EncodesOwnWord.dwconvI16Nb
  | dwconvI16b64 => exact Laws.EncodesOwnWord.dwconvI16b64
  | unpack4 => exact Laws.EncodesOwnWord.unpack4

theorem Instr.wellFormed_eq_true (i : Instr) : i.wellFormed = true := (encodesOwnWord i).1

@[simp] theorem CmdFields.ofWord_encode (i : Instr) : CmdFields.ofWord (encode i) = i.form.fields := (encodesOwnWord i).2

/-- The fields of a command pass every check of phases 1 and 2 and select that command (R94, R116). -/
@[simp] theorem decodeFields_form_fields (i : Instr) : decodeFields i.form.fields = .ok i := by
  cases i <;> rfl

@[simp] theorem decode_encode (i : Instr) : decode (encode i) = .ok i := by
  rw [decode, CmdFields.ofWord_encode, decodeFields_form_fields]

/-- A word that decodes is the word of the command it decodes to: no bit is dropped. -/
theorem encode_of_decode_ok {w : Word} {i : Instr} (h : decode w = .ok i) : encode i = w := by
  have hfields : i.form.fields = CmdFields.ofWord w := decodeFields_ok _ i h
  rw [encode, hfields, CmdFields.toWord_ofWord]

theorem decode_ok_iff {w : Word} {i : Instr} : decode w = .ok i ↔ encode i = w :=
  ⟨encode_of_decode_ok, by rintro rfl; exact decode_encode i⟩

/-- A list whose rows all pair a command with its word, and that has a row for every command, is the graph of `encode`. -/
theorem mem_rows_iff_encode_eq {rows : List (Instr × Word)} (hsound : ∀ row ∈ rows, encode row.1 = row.2)
    (hcomplete : ∀ i, (i, encode i) ∈ rows) (i : Instr) (w : Word) : (i, w) ∈ rows ↔ encode i = w :=
  ⟨hsound (i, w), by rintro rfl; exact hcomplete i⟩

/-- Settles O1: `decode` inverts `encode` in both directions, and the 19 rows of R102 are the graph of `encode`. -/
theorem opcodeMapExact : Obligations.OpcodeMapExact := by
  intro w i
  rw [decode_ok_iff, mem_rows_iff_encode_eq]
  · decide
  · intro i
    cases i <;> decide

/-- Settles O2: each word is the encoding of its command. -/
theorem specWordsDecode : Obligations.SpecWordsDecode :=
  ⟨decode_encode .convF32, decode_encode .convI8Nb, decode_encode .dwconvI8w4, decode_encode .dwconvI16Nb,
    decode_encode .convI16b64, decode_encode .unpack4⟩

/-- Settles O3. -/
theorem decodeOfEncode : Obligations.DecodeOfEncode := fun i =>
  ⟨i.wellFormed_eq_true, decode_encode i⟩

end Sys2Proof

namespace Sys2Proof.Machine

/-- A full 32-bit table word is placed unchanged: no bit lies above `nbits` = 32. -/
theorem State.withFetchWord_toNat (s : State) (w : Word) : s.withFetchWord 32 w.toNat = startWord s w := by
  rw [State.withFetchWord, Nat.mod_eq_of_lt w.isLt, BitVec.ofNat_toNat, BitVec.setWidth_eq]

/-- Settles O7: the placed command is a running engine's with no input pending, so its step is that of `stepRunsDecodedCommand`. -/
theorem placedCommandRunsNext : Obligations.PlacedCommandRunsNext := by
  intro s w i hdec
  rw [State.withFetchWord_toNat]
  have hrun : (startWord s w).eng.phase = .run := Engine.start_phase _
  have hcmd : decode (startWord s w).eng.cmd = .ok i := hdec
  exact (stepRunsDecodedCommand _ i hrun hcmd).1 rfl

end Sys2Proof.Machine
end

section
/-! The ends of a command: START, the error of each phase, and the completion that every command reaches (R110 to R113, R119 to R131). -/

namespace Sys2Proof.Machine

/-! START (R110). -/

/-- A write to CTRL with bit 0 set starts an idle engine, IRQ_EN as written. -/
theorem Engine.writeCtrl_start {e : Engine} {v : Word} (h0 : v.getLsbD 0 = true) (hidle : e.phase = .idle) :
    e.writeCtrl v = ({ e with irqEn := v.getLsbD 1 } : Engine).start := by
  have hstart : (v.getLsbD 0 && !e.busy) = true := by rw [h0, Engine.busy_of_idle hidle]; rfl
  exact if_pos hstart

/-- Settles O15: a word write at 0x08 is `writeCtrl`, which starts the engine, finds START clear, or finds the engine running. -/
theorem startAccepted : Obligations.StartAccepted := by
  intro s v rest hin
  have hwrite : s.eng.writeAt v 0x08 = s.eng.writeCtrl v :=
    (s.eng.writeAt_offset v .ctrl).trans (s.eng.write_ctrl v)
  have hstep := step_regWrite_self (by decide) (by decide) hin
  rw [hwrite] at hstep
  refine ⟨_, hstep, rfl, fun h0 hidle => ?_, fun h => ?_⟩
  · rw [Engine.writeCtrl_start h0 hidle]
    rfl
  · rcases h with h0 | hrun
    · exact s.eng.writeCtrl_noStart v h0
    · exact s.eng.writeCtrl_busy v (Engine.busy_of_run hrun)

/-! The completion of a command (R111 to R113, R254). -/

/-- A completed engine is idle with DONE set (R112, R113). -/
theorem Engine.Completed.idle_done {e e' : Engine} (h : e.Completed e') : e'.phase = .idle ∧ e'.done = true := by
  obtain rfl | ⟨r, -, rfl⟩ := h <;> exact ⟨rfl, rfl⟩

/-- A command ends in a next state, or one of the host's duties is broken and it is refused (R75, R82); it never faults. -/
theorem exec_next_or_refused (i : Instr) (s : State) :
    (∃ t, exec i s = .next t) ∨ (¬ DutiesKept i.form s ∧ ∃ r, exec i s = .refused r) := by
  rw [exec_eq_runCommand]
  obtain ⟨hconf, hr⟩ | ⟨-, c, -, hr⟩ | ⟨-, -, hdev, hr⟩ | ⟨-, -, e, -, hr⟩ | ⟨-, -, -, x, xs, -, hr⟩ | ⟨-, hr⟩ :=
    runCommand_cases i.form (workOf i) s
  · exact .inr ⟨fun hd => hconf hd.2, _, hr⟩
  · exact .inl ⟨_, hr⟩
  · exact .inr ⟨fun hd => hdev hd.1, _, hr⟩
  · exact .inl ⟨_, hr⟩
  · exact .inl ⟨_, hr⟩
  · exact .inl ⟨_, hr⟩

/-- Settles O21: only a broken duty keeps a command from a next state, and every next state is a completion. -/
theorem commandAlwaysCompletes : Obligations.CommandAlwaysCompletes := by
  intro i s
  obtain ⟨t, ht⟩ | ⟨hbroken, r, hr⟩ := exec_next_or_refused i s
  · exact ⟨fun _ => ⟨t, ht, (exec_next_engines ht).1.idle_done⟩, by rw [ht]; trivial⟩
  · exact ⟨fun hduties => absurd hduties hbroken, by rw [hr]; trivial⟩

/-! Errors as the words they leave in ERR_INFO and ERR_ADDR (R27, R28, R113). -/

/-- An error that names no tensor leaves CHANNEL and SUBCAUSE in ERR_INFO (R27). -/
theorem ErrRecord.info_eq (code : ErrCode) (sub : BitVec 8) (channel addr : Nat) :
    (ErrRecord.mk code sub 0#4 0#4 channel addr).info = BitVec.ofNat 32 (channel * 65536 + sub.toNat) := by
  apply BitVec.eq_of_toNat_eq
  have hsub := sub.isLt
  simp only [ErrRecord.info, BitVec.toNat_append, BitVec.toNat_ofNat, Nat.zero_mod, Nat.zero_shiftLeft, Nat.zero_or]
  rw [← Nat.shiftLeft_add_eq_or_of_lt (by omega), Nat.shiftLeft_eq]
  omega

theorem raiseErr_eq_failed (code : ErrCode) (sub : BitVec 8) (channel addr : Nat) (s : State) :
    raiseErr ⟨code, sub, 0#4, 0#4, channel, addr⟩ s =
      failed s code (BitVec.ofNat 32 (channel * 65536 + sub.toNat)) (BitVec.ofNat 32 addr) := by
  rw [← ErrRecord.info_eq code sub channel addr]
  rfl

/-! Phase 3 (R119). -/

/-- The sub-cause of a configuration check is its place in the order of R119, counted from 1 (R215). -/
theorem ConfigCause.sub_toNat_of_order {before after : List ConfigCause} {c : ConfigCause} (h : checkOrder = before ++ c :: after) :
    c.sub.toNat = before.length + 1 := by
  have hplaces : checkOrder.map (·.sub.toNat) = List.range' 1 9 := rfl
  have hlt : before.length < 9 := by
    have hlen := congrArg List.length h
    simp only [checkOrder, List.length_append, List.length_cons, List.length_nil] at hlen
    omega
  have hget := congrArg (·[before.length]?) hplaces
  simp only [h, List.map_append, List.map_cons] at hget
  simp [hlt] at hget
  omega

/-- Settles O22: the first check that holds is the one `configError` raises, and its sub-cause is its place in the order. -/
theorem configurationChecksInOrder : Obligations.ConfigurationChecksInOrder := by
  intro i s before after c horder hconflict hc hbefore
  have hraise := runCommand_of_config i.form (workOf i) s c hconflict
    (configError_eq_some i.form s.operands before after c horder hc hbefore)
  rw [exec_eq_runCommand, hraise, ErrRecord.ofConfig, raiseErr_eq_failed, ConfigCause.sub_toNat_of_order horder,
    Nat.zero_mul, Nat.zero_add]

/-! Phases 4 and 5, one lemma per end (R111). -/

section
variable {f : Form} {work : Operands → Memory → Memory} {s : State}

theorem runMemoryPhases_of_tableError {e : ErrRecord} (he : tableError f s.platform s.mem s.operands = some e) :
    runMemoryPhases f work s = .next (raiseErr e s) := by
  simp only [runMemoryPhases, he]

theorem runMemoryPhases_of_faultSet {x : Nat × AccessKind} {xs : List (Nat × AccessKind)} (ht : TableGood f s)
    (hf : faultSet f s.platform s.operands = x :: xs) :
    runMemoryPhases f work s = .next (busFault (regions f s.operands) x xs s) := by
  simp only [runMemoryPhases, (tableError_eq_none_iff ..).2 ht, hf]

theorem runMemoryPhases_of_admitted (ht : TableGood f s) (ha : AllAdmitted f s) :
    runMemoryPhases f work s = .next (finish (work s.operands s.mem) s) := by
  simp only [runMemoryPhases, (tableError_eq_none_iff ..).2 ht, (faultSet_eq_nil_iff ..).2 ha]

end

/-- Past phase 3, with both duties kept, a command is its phases 4 and 5. -/
theorem exec_of_duties {i : Instr} {s : State} (hc : NoCheckHolds i.form s.operands) (hd : DutiesKept i.form s) :
    exec i s = runMemoryPhases i.form (workOf i) s := by
  rw [exec_eq_runCommand, runCommand_of_duties _ _ s hc hd]

/-! Phase 4 (R129). -/

/-- The first entry that has an error is the one whose error ends the command. -/
theorem tableError_eq_some {f : Form} {s : State} {c : Nat} {e : ErrRecord} (hi : IntegerForm f) (hc : c < s.operands.OC)
    (hgood : ∀ c' < c, EntryGood s c') (he : entryError s.platform s.mem s.operands c = some e) :
    tableError f s.platform s.mem s.operands = some e := by
  have hsplit : List.range s.operands.OC = List.range c ++ c :: (List.range (s.operands.OC - c - 1)).map (c + 1 + ·) := by
    conv_lhs => rw [show s.operands.OC = (c + 1) + (s.operands.OC - c - 1) by omega]
    rw [List.range_add, List.range_succ]
    simp
  rw [tableError, if_pos ((isInt_iff f).2 hi), hsplit, List.findSome?_append, List.findSome?_eq_none_iff.2, List.findSome?_cons, he]
  · rfl
  · exact fun c' hc' => (entryError_eq_none_iff s c').2 (hgood c' (List.mem_range.1 hc'))

/-- The lowest unadmitted byte of an entry is its error. -/
theorem entryError_of_unadmitted {p : Platform} {m : Memory} {o : Operands} {c j : Nat} (hj : j < 8)
    (hbad : admits p (addrQtab o c + j) .read = false) (hfirst : ∀ j' < j, admits p (addrQtab o c + j') .read = true) :
    entryError p m o c = some (.tableBus c (addrQtab o c + j)) := by
  have hfind : ((List.range 8).map (addrQtab o c + ·)).find? (fun a => !admits p a .read) = some (addrQtab o c + j) := by
    rw [List.find?_map, List.find?_range_eq_some.2]
    · rfl
    · simpa [hbad, hj] using hfirst
  rw [entryError, hfind]

/-- With every byte of an entry admitted a shift outside [-31, 31] is its error. -/
theorem entryError_of_shift {p : Platform} {m : Memory} {o : Operands} {c : Nat}
    (hadm : ∀ j < 8, admits p (addrQtab o c + j) .read = true) (hshift : shift m o c < -31 ∨ 31 < shift m o c) :
    entryError p m o c = some (.shiftRange c (addrQtab o c + 4)) := by
  have hfind : ((List.range 8).map (addrQtab o c + ·)).find? (fun a => !admits p a .read) = none := by
    simpa using hadm
  rw [entryError, hfind]
  exact if_pos hshift

/-- Settles O23: the first bad entry gives the table error, its lowest unadmitted byte before its shift. -/
theorem tableCheckInChannelOrder : Obligations.TableCheckInChannelOrder := by
  intro i s c hi hchecks hduties hc hgood
  have hend : ∀ {e}, entryError s.platform s.mem s.operands c = some e → exec i s = .next (raiseErr e s) := fun he =>
    (exec_of_duties hchecks hduties).trans (runMemoryPhases_of_tableError (tableError_eq_some hi hc hgood he))
  constructor
  · intro j hj hbad hfirst
    rw [hend (entryError_of_unadmitted hj hbad hfirst), ErrRecord.tableBus, raiseErr_eq_failed]
    rfl
  · intro hadm hshift
    rw [hend (entryError_of_shift hadm hshift), ErrRecord.shiftRange, raiseErr_eq_failed]
    rfl

/-! Phase 5 (R130). -/

/-- Settles O24: the access reported is an element of the fault set, and only bytes of OUT and SCR become unspecified. -/
theorem executionBusError : Obligations.ExecutionBusError := by
  intro i s hchecks hduties htable hbad
  obtain ⟨x, xs, hfault⟩ := List.exists_cons_of_ne_nil fun hnil => hbad ((faultSet_eq_nil_iff i.form s).1 hnil)
  have hend : exec i s = .next (busFault (regions i.form s.operands) x xs s) :=
    (exec_of_duties hchecks hduties).trans (runMemoryPhases_of_faultSet htable hfault)
  have hpick := busPickOf_mem s.draws x xs
  rw [← hfault] at hpick
  obtain ⟨⟨r, hr, hname, j, hj, haddr, hkind⟩, hadm⟩ := (mem_faultSet ..).1 hpick
  refine ⟨r, hr, hname, j, hj, _, hkind, haddr ▸ hadm, _, hend, ?_, rfl, rfl, rfl, rfl, fun a ha => get_unspecify_outside _ _ _ a ha⟩
  rw [busFault, ErrRecord.execBus, raiseErr_eq_failed, haddr]
  cases (busPickOf s.draws x xs).2 <;> rfl

/-! Commands that end in a next state: no breach of a duty, so the checks alone decide the end (R131, R133). -/

section
variable {i : Instr} {s t : State} (h : exec i s = .next t)
include h

/-- A command that ends in a next state met no conflict, nor, past phase 3, a device. -/
theorem duties_of_exec_next : NoConflict i.form s ∧ (NoCheckHolds i.form s.operands → DutiesKept i.form s) := by
  rw [exec_eq_runCommand] at h
  obtain ⟨-, hr⟩ | ⟨hconflict, c, hc, -⟩ | ⟨-, -, -, hr⟩ | ⟨-, hduties, -⟩ | ⟨-, hduties, -⟩ | ⟨⟨-, hduties, -⟩, -⟩ :=
    runCommand_cases i.form (workOf i) s
  · rw [hr] at h; cases h
  · exact ⟨hconflict, fun hchecks => absurd (hc.symm.trans ((configError_eq_none_iff ..).2 hchecks)) (by simp)⟩
  · rw [hr] at h; cases h
  · exact ⟨hduties.2, fun _ => hduties⟩
  · exact ⟨hduties.2, fun _ => hduties⟩
  · exact ⟨hduties.2, fun _ => hduties⟩

theorem exec_next_of_configError {c : ConfigCause} (hc : configError i.form s.operands = some c) :
    t = raiseErr (.ofConfig c) s := by
  have hraise := runCommand_of_config i.form (workOf i) s c (duties_of_exec_next h).1 hc
  rw [← exec_eq_runCommand, h] at hraise
  cases hraise; rfl

theorem memoryPhases_of_exec_next (hc : NoCheckHolds i.form s.operands) : runMemoryPhases i.form (workOf i) s = .next t := by
  rw [← exec_of_duties hc ((duties_of_exec_next h).2 hc), h]

/-- A command that ends although a configuration check holds or a table entry is bad has raised an error before phase 5. -/
theorem exec_next_of_earlyEnd (hbad : ¬ NoCheckHolds i.form s.operands ∨ ¬ TableGood i.form s) : ∃ r, t = raiseErr r s := by
  cases hc : configError i.form s.operands with
  | some c => exact ⟨_, exec_next_of_configError h hc⟩
  | none =>
    have hchecks := (configError_eq_none_iff ..).1 hc
    have htable : ¬ TableGood i.form s := hbad.resolve_left (not_not_intro hchecks)
    rw [← tableError_eq_none_iff] at htable
    obtain ⟨e, he⟩ := Option.ne_none_iff_exists'.1 htable
    have hend := memoryPhases_of_exec_next h hchecks
    rw [runMemoryPhases_of_tableError he] at hend
    cases hend
    exact ⟨e, rfl⟩

end

/-- Settles O25: a word that is no command and a command that fails in phase 3 or 4 end in `raiseErr`, which leaves memory alone. -/
theorem earlyEndsLeaveMemory : Obligations.EarlyEndsLeaveMemory := by
  intro s t hin hrun hstep hearly
  have hraise : ∃ r, t = raiseErr r s := by
    obtain ⟨e, hdec⟩ | ⟨i, hdec, hbad⟩ := hearly
    · rw [step_error s e hin hrun hdec] at hstep
      cases hstep
      exact ⟨_, rfl⟩
    · rw [(stepRunsDecodedCommand s i hrun hdec).1 hin] at hstep
      exact exec_next_of_earlyEnd hstep hbad
  obtain ⟨r, rfl⟩ := hraise
  exact ⟨rfl, rfl⟩

/-- Two runs from the same registers, memory and platform meet the same checks, table and fault set, so both end with the same error, with a
bus error over the same fault set, or with the same memory computed (R133). -/
theorem exec_next_alike {i : Instr} {s s' t t' : State} (h : exec i s = .next t) (h' : exec i s' = .next t')
    (hdesc : s.eng.desc = s'.eng.desc) (hmem : s.mem = s'.mem) (hplatform : s.platform = s'.platform) :
    (∃ r, t = raiseErr r s ∧ t' = raiseErr r s') ∨
    (NoCheckHolds i.form s.operands ∧ TableGood i.form s ∧ ¬ AllAdmitted i.form s ∧
      ∃ x xs, t = busFault (regions i.form s.operands) x xs s ∧ t' = busFault (regions i.form s.operands) x xs s') ∨
    (∃ m, t = finish m s ∧ t' = finish m s') := by
  have hops : s'.operands = s.operands := congrArg operandsOf hdesc.symm
  cases hconfig : configError i.form s.operands with
  | some c => exact .inl ⟨_, exec_next_of_configError h hconfig, exec_next_of_configError h' (hops ▸ hconfig)⟩
  | none =>
    have hchecks := (configError_eq_none_iff ..).1 hconfig
    have hend := memoryPhases_of_exec_next h hchecks
    have hend' := memoryPhases_of_exec_next h' (hops ▸ hchecks)
    have htable' : tableError i.form s'.platform s'.mem s'.operands = tableError i.form s.platform s.mem s.operands := by
      rw [hops, hmem, hplatform]
    have hfault' : faultSet i.form s'.platform s'.operands = faultSet i.form s.platform s.operands := by rw [hops, hplatform]
    cases htable : tableError i.form s.platform s.mem s.operands with
    | some e =>
      rw [runMemoryPhases_of_tableError htable] at hend
      rw [runMemoryPhases_of_tableError (htable'.trans htable)] at hend'
      cases hend; cases hend'
      exact .inl ⟨e, rfl, rfl⟩
    | none =>
      have hgood := (tableError_eq_none_iff ..).1 htable
      have hgood' := (tableError_eq_none_iff ..).1 (htable'.trans htable)
      cases hfault : faultSet i.form s.platform s.operands with
      | cons x xs =>
        rw [runMemoryPhases_of_faultSet hgood hfault] at hend
        rw [runMemoryPhases_of_faultSet hgood' (hfault'.trans hfault), hops] at hend'
        cases hend; cases hend'
        have hbad : ¬ AllAdmitted i.form s := by
          rw [← faultSet_eq_nil_iff, hfault]
          exact List.cons_ne_nil x xs
        exact .inr (.inl ⟨hchecks, hgood, hbad, x, xs, rfl, rfl⟩)
      | nil =>
        rw [runMemoryPhases_of_admitted hgood ((faultSet_eq_nil_iff ..).1 hfault)] at hend
        rw [runMemoryPhases_of_admitted hgood' ((faultSet_eq_nil_iff ..).1 (hfault'.trans hfault)), hops, ← hmem] at hend'
        cases hend; cases hend'
        exact .inr (.inr ⟨_, rfl, rfl⟩)

/-- Settles O50: of two runs that end alike only the draws of a bus error may differ, and they reach the report and the bytes of OUT and
SCR alone. -/
theorem outcomeIsDetermined : Obligations.OutcomeIsDetermined := by
  intro i s s' t t' h h' hdesc hmem hplatform hinfo hinfo' haddr haddr'
  obtain ⟨r, rfl, rfl⟩ | ⟨hchecks, hgood, hbad, x, xs, rfl, rfl⟩ | ⟨m, rfl, rfl⟩ := exec_next_alike h h' hdesc hmem hplatform
  · exact ⟨rfl, rfl, fun a _ => congrArg (Memory.get · a) hmem, fun _ => ⟨rfl, rfl, hmem⟩⟩
  · refine ⟨rfl, rfl, fun a ha => ?_, fun hearly => ?_⟩
    · rw [busFault_mem, busFault_mem, get_unspecify_outside _ _ _ a ha, get_unspecify_outside _ _ _ a ha, hmem]
    · obtain hadm | hcheck | htable := hearly
      · exact absurd hadm hbad
      · exact absurd hchecks hcheck
      · exact absurd hgood htable
  · exact ⟨rfl, rfl, fun _ _ => rfl, fun _ => ⟨hinfo.trans hinfo'.symm, haddr.trans haddr'.symm, rfl⟩⟩

end Sys2Proof.Machine
end

section
/-! What the computation of a command reads (R69, R128, R154 to R158): never a byte of OUT, and of SCR only the bytes its own unpack pass
wrote. So a second run writes what the first did (R134), and a run without output elements writes scratch bytes at most (R135). -/

namespace Sys2Proof.Machine

/-! The bytes outside OUT and SCR. -/

/-- OUT and SCR overlap no other active region once phase 3 has passed (R128). -/
theorem outsideWritten_of_readRegion {f : Form} {o : Operands} (hN : NoCheckHolds f o) {r : Region} (hr : r ∈ regions f o)
    (hread : r.written = false) {a : Nat} (h1 : r.base ≤ a) (h2 : a < r.base + r.len) : OutsideWritten f o a := by
  rintro t ht hwritten ⟨h3, h4⟩
  have hname : r.name ≠ t.name := by
    intro hname
    rw [Region.written, hname] at hread
    exact absurd hwritten (by rw [Region.written, hread]; simp)
  have hout : t.name = .out ∨ t.name = .scr := by simpa [Region.written] using hwritten
  exact hN .regionOverlap (by decide) ⟨t, ht, r, hr, hout, hname, by omega, by omega, by omega, by omega⟩

/-- The regions a command writes are OUT, for a convolution, and SCR, for a packed filter. -/
theorem outsideWritten_of_notOut_notScr {i : Instr} {o : Operands} {a : Nat}
    (hout : i.form.op ≠ .unpack4 → ¬ (o.outAddr ≤ a ∧ a < o.outAddr + (outRegion i.form o).len))
    (hscr : i.form.fltType = .int4p → ¬ (o.scratchAddr ≤ a ∧ a < o.scratchAddr + eFlt i.form.op o)) :
    OutsideWritten i.form o a := by
  intro r hr hwritten
  obtain ⟨rfl, -⟩ | rfl | ⟨rfl, -⟩ | ⟨rfl, -⟩ | ⟨rfl, hop⟩ | ⟨rfl, hpacked⟩ := mem_regions_cases _ o r hr
  · exact absurd hwritten Bool.false_ne_true
  · exact absurd hwritten Bool.false_ne_true
  · exact absurd hwritten Bool.false_ne_true
  · exact absurd hwritten Bool.false_ne_true
  · exact hout hop
  · exact hscr (hpacked.elim fltType_of_unpack4 id)

/-- The memories agree on every byte outside the OUT and SCR regions of a command of form `f`. -/
def AgreeOutside (f : Form) (o : Operands) (m m' : Memory) : Prop :=
  ∀ a, OutsideWritten f o a → Memory.get m a = Memory.get m' a

/-- Past phase 3 a depthwise command has OC = IC * DM (R121). -/
theorem depth_of_noCheckHolds {f : Form} {o : Operands} (hN : NoCheckHolds f o) (hd : f.op = .dwconv) : o.OC = o.IC * o.DM := by
  by_contra hne
  exact hN .depthMismatch (by decide) ⟨hd, hne⟩

/-! Reads of memories that agree outside OUT and SCR. -/

section
variable {f : Form} {o : Operands} {m m' : Memory} (hN : NoCheckHolds f o) (hm : AgreeOutside f o m m')
include hN hm

theorem AgreeOutside.memRead {r : Region} (hr : r ∈ regions f o) (hread : r.written = false) {a n : Nat} (h1 : r.base ≤ a)
    (h2 : a + n ≤ r.base + r.len) : memRead m a n = memRead m' a n :=
  memRead_congr fun _ _ => hm _ (outsideWritten_of_readRegion hN hr hread (by omega) (by omega))

/-- A table entry of an integer path lies in the table (R67). -/
theorem AgreeOutside.entry (hi : IntegerForm f) {c : Nat} (hc : c < o.OC) :
    multiplier m o c = multiplier m' o c ∧ shift m o c = shift m' o c := by
  have hread : ∀ k ≤ 4, Machine.memRead m (addrQtab o c + k) 4 = Machine.memRead m' (addrQtab o c + k) 4 := fun k hk =>
    hm.memRead hN (qtabRegion_mem f o hi) rfl (by simp only [addrQtab, qtabRegion]; omega)
      (by simp only [addrQtab, qtabRegion]; omega)
  exact ⟨congrArg BitVec.toInt (hread 0 (by decide)), congrArg BitVec.toInt (hread 4 le_rfl)⟩

/-- The bias element of a channel lies in the bias region (R66). -/
theorem AgreeOutside.bias (hop : f.op ≠ .unpack4) (hb : f.biasType ≠ .absent) (hp : f.biasType ≠ .int4p) {c : Nat} (hc : c < o.OC) :
    Machine.memRead m (addrBias f o c) (tagSize f.biasType) = Machine.memRead m' (addrBias f o c) (tagSize f.biasType) := by
  have hlast : c * tagSize f.biasType + tagSize f.biasType ≤ o.OC * tagSize f.biasType := by
    rw [← Nat.succ_mul]; exact Nat.mul_le_mul_right _ hc
  refine hm.memRead hN (biasRegion_mem f o hop hb) rfl (by simp only [addrBias, biasRegion]; omega) ?_
  simp only [biasRegion, addrBias, tensorBytes_eq _ _ hp]
  omega

theorem AgreeOutside.biasValue (hop : f.op ≠ .unpack4) (hp : f.biasType ≠ .int4p) {c : Nat} (hc : c < o.OC) :
    biasValue f o m c = biasValue f o m' c := by
  unfold Machine.biasValue
  split
  case isTrue => rfl
  case isFalse hb => exact congrArg BitVec.toInt (hm.bias hN hop (by simpa using hb) hp hc)

theorem AgreeOutside.floatBias (hop : f.op ≠ .unpack4) (hb : f.biasType = .absent ∨ f.biasType = .float32) {c : Nat} (hc : c < o.OC) :
    floatBias f o m c = floatBias f o m' c := by
  unfold Machine.floatBias
  split
  case isTrue => rfl
  case isFalse hne =>
    have hfloat : f.biasType = .float32 := hb.resolve_left (by simpa using hne)
    have hread := hm.bias hN hop (by rw [hfloat]; decide) (by rw [hfloat]; decide) hc
    rw [hfloat] at hread
    exact congrArg some hread

/-- The input element of a term lies in the input region (R64). -/
theorem AgreeOutside.input (hop : f.op ≠ .unpack4) (hp : f.inType ≠ .int4p) {e : Elem} (he : e ∈ outputElems o) {t : Nat × Nat}
    (ht : t ∈ terms f o e) : Machine.memRead m t.1 (tagSize f.inType) = Machine.memRead m' t.1 (tagSize f.inType) := by
  obtain ⟨h1, h2, -⟩ := terms_bound f o e he (depth_of_noCheckHolds hN) hop t ht
  exact hm.memRead hN (inRegion_mem f o hop) rfl h1 (by simp only [inRegion, tensorBytes_eq _ _ hp]; exact h2)

/-- The filter element of a flat index lies in the filter region, where the filter is not packed (R65). -/
theorem AgreeOutside.filter (hp : f.fltType ≠ .int4p) {size : Nat} (hs : tagSize f.fltType = size) {x : Nat} (hx : x < eFlt f.op o) :
    Machine.memRead m (o.fltAddr + x * size) size = Machine.memRead m' (o.fltAddr + x * size) size := by
  have hlast : x * size + size ≤ eFlt f.op o * size := by
    rw [← Nat.succ_mul]; exact Nat.mul_le_mul_right _ hx
  refine hm.memRead hN (fltRegion_mem f o) rfl (by simp only [fltRegion]; omega) ?_
  simp only [fltRegion, tensorBytes_eq _ _ hp, hs]
  omega

/-- The byte of a packed element lies in the filter region (R69, R140). -/
theorem AgreeOutside.unpackElem (hp : f.fltType = .int4p) {x : Nat} (hx : x < eFlt f.op o) :
    unpackElem m o.fltAddr x = unpackElem m' o.fltAddr x := by
  have hbyte : Machine.memRead m (o.fltAddr + x / 2) 1 = Machine.memRead m' (o.fltAddr + x / 2) 1 := by
    refine hm.memRead hN (fltRegion_mem f o) rfl (by simp only [fltRegion]; omega) ?_
    simp only [fltRegion, hp, tensorBytes]
    omega
  rw [Machine.unpackElem, Machine.unpackElem, nibble, nibble, hbyte]

theorem AgreeOutside.unpackCells (hp : f.fltType = .int4p) : unpackCells f o m = unpackCells f o m' :=
  List.map_congr_left fun x hx => by rw [hm.unpackElem hN hp (List.mem_range.1 hx)]

/-- After the unpack pass the scratch bytes agree too. -/
theorem AgreeOutside.scratch (hp : f.fltType = .int4p) {x : Nat} (hx : x < eFlt f.op o) :
    filterElem f o (unpackPass f o m) x = filterElem f o (unpackPass f o m') x := by
  simp only [filterElem, filterBase, (isPacked_iff f).2 hp, if_true, readSigned, memRead_one, get_unpackPass _ _ _ _ hx,
    hm.unpackElem hN hp hx]

theorem AgreeOutside.int8Filter (hp : f.fltType = .int8) {x : Nat} (hx : x < eFlt f.op o) :
    filterElem f o m x = filterElem f o m' x := by
  have hread := hm.filter hN (by rw [hp]; decide) (by rw [hp]; rfl) hx (size := 1)
  simp only [Nat.mul_one] at hread
  have hbase : filterBase f o = o.fltAddr := by simp [filterBase, isPacked, hp]
  rw [filterElem, filterElem, hbase, readSigned, readSigned, hread]

/-- The cells of the float path: the terms and the bias of each output element (R160). -/
theorem AgreeOutside.floatCells (hop : f.op ≠ .unpack4) (hin : f.inType = .float32) (hflt : f.fltType = .float32)
    (hb : f.biasType = .absent ∨ f.biasType = .float32) : floatCells f o m = floatCells f o m' := by
  refine List.flatMap_congr fun e he => ?_
  have hterms : floatTerms f o m e = floatTerms f o m' e := by
    refine List.map_congr_left fun t ht => ?_
    have hx := (terms_bound f o e he (depth_of_noCheckHolds hN) hop t ht).2.2
    have hinput := hm.input hN hop (by rw [hin]; decide) he ht
    rw [hin] at hinput
    have hfilter := hm.filter hN (by rw [hflt]; decide) (by rw [hflt]; rfl) hx (size := 4)
    rw [hflt]
    exact Prod.ext hinput hfilter
  rw [hterms, hm.floatBias hN hop hb ((mem_outputElems o e).1 he).2.2.2]

/-- The cells of the integer elements: the terms, the bias and the table entry of each output element, the filter elements read alike
(R162, R164). -/
theorem AgreeOutside.integerCells {qt qt' : Memory} (hqt : AgreeOutside f o qt qt') (hi : IntegerForm f) (hin : f.inType ≠ .int4p)
    (hb : f.biasType ≠ .int4p) (hflt : ∀ x < eFlt f.op o, filterElem f o m x = filterElem f o m' x) :
    integerCells f o qt m = integerCells f o qt' m' := by
  refine List.flatMap_congr fun e he => ?_
  obtain ⟨-, -, -, hoc⟩ := (mem_outputElems o e).1 he
  obtain ⟨hmult, hshift⟩ := hqt.entry hN hi hoc
  have hproducts : (terms f o e).map (product f o m) = (terms f o e).map (product f o m') := by
    refine List.map_congr_left fun t ht => ?_
    have hx := (terms_bound f o e he (depth_of_noCheckHolds hN) hi.1 t ht).2.2
    rw [product, product, readSigned, readSigned, hm.input hN hi.1 hin he ht, hflt _ hx]
  rw [outputValue, outputValue, accumulate, accumulate, exactSum, exactSum, hproducts, hm.biasValue hN hi.1 hb hoc, hmult, hshift]

end

theorem AgreeOutside.unpackPass {f : Form} {o : Operands} {m m' : Memory} (hm : AgreeOutside f o m m') (hp : f.fltType = .int4p) :
    AgreeOutside f o (unpackPass f o m) (unpackPass f o m') := by
  intro a ha
  have hscr := ha _ (scrRegion_mem f o hp) rfl
  rw [get_unpackPass_outside _ _ _ _ hscr, get_unpackPass_outside _ _ _ _ hscr, hm a ha]

/-! The writes of a command. -/

theorem Memory.store_append (m : Memory) (l l' : List Host.Cell) :
    Memory.store m (l ++ l') = Memory.store (Memory.store m l) l' := List.foldl_append

/-- The packed path writes the scratch bytes and then the output elements (R192, R202). -/
theorem packedPath_eq_store (f : Form) (o : Operands) (m : Memory) :
    packedPath f o m = Memory.store m (unpackCells f o m ++ integerCells f o m (unpackPass f o m)) := by
  rw [Memory.store_append, packedPath, unpackPass]

/-- A byte that `l` writes holds the same after `l`, whatever memory it is written over. -/
theorem Memory.get_store_congr_of_mem (m m' : Memory) (l : List Host.Cell) (a : Nat) (h : ∃ c ∈ l, c.1 = a) :
    Memory.get (Memory.store m l) a = Memory.get (Memory.store m' l) a := by
  induction l generalizing m m' with
  | nil => obtain ⟨c, hc, -⟩ := h; cases hc
  | cons c l ih =>
    by_cases hl : ∃ d ∈ l, d.1 = a
    · exact ih _ _ hl
    · have hlast : ∀ d ∈ l, d.1 ≠ a := fun d hd he => hl ⟨d, hd, he⟩
      obtain ⟨d, hd, rfl⟩ := h
      obtain rfl := (List.mem_cons.1 hd).resolve_right fun hd => hl ⟨d, hd, rfl⟩
      simp only [Memory.store_cons, Memory.get_store_of_notMem _ _ _ hlast, Memory.get_put_same]

/-- Writing the same bytes a second time changes nothing. -/
theorem Memory.get_store_store (m : Memory) (l : List Host.Cell) (a : Nat) :
    Memory.get (Memory.store (Memory.store m l) l) a = Memory.get (Memory.store m l) a := by
  by_cases h : ∃ c ∈ l, c.1 = a
  · exact Memory.get_store_congr_of_mem _ _ l a h
  · exact Memory.get_store_of_notMem _ _ _ fun c hc he => h ⟨c, hc, he⟩

/-- A command writes the same cells over memories that agree outside its OUT and SCR regions. -/
theorem workOf_sameCells {i : Instr} {o : Operands} {m m' : Memory} (hN : NoCheckHolds i.form o) (hm : AgreeOutside i.form o m m') :
    ∃ l, workOf i o m = Memory.store m l ∧ workOf i o m' = Memory.store m' l := by
  obtain ⟨hin, hbias, -, hint8, hfloat⟩ := form_facts i
  obtain ⟨hk, hi, hop⟩ | ⟨hk, hi, hp⟩ | ⟨hk, hi, hp⟩ | ⟨hk, -, hp⟩ := workOf_kind i <;> rw [hk]
  · obtain ⟨hflt, hin, -, hb⟩ := hfloat hi hop
    exact ⟨floatCells i.form o m, rfl, by rw [floatPath, hm.floatCells hN hop hin hflt hb]⟩
  · have hcells := hm.integerCells hN hm hi hin hbias fun _ => hm.int8Filter hN (hint8 hi hp)
    exact ⟨integerCells i.form o m m, rfl, by rw [integerPath, hcells]⟩
  · have hcells := (hm.unpackPass hp).integerCells hN hm hi hin hbias fun _ => hm.scratch hN hp
    rw [packedPath_eq_store, packedPath_eq_store, ← hcells, ← hm.unpackCells hN hp]
    exact ⟨_, rfl, rfl⟩
  · exact ⟨unpackCells i.form o m, rfl, by rw [Machine.unpackPass, hm.unpackCells hN hp]⟩

/-- A command computes from its operands only bytes of OUT and SCR, so its memory agrees with the one before elsewhere. -/
theorem AgreeOutside.workOf (i : Instr) (o : Operands) (m : Memory) : AgreeOutside i.form o m (workOf i o m) :=
  fun a ha => (workOf_outside i o m a ha).symm

/-- The command executes normally from the memory it left: its table is as it was (R128). -/
theorem Accepted.afterWork {i : Instr} {s : State} (h : Accepted i.form s) :
    Accepted i.form { s with mem := workOf i s.operands s.mem } := by
  obtain ⟨hchecks, hduties, htable, hadm⟩ := h
  refine ⟨hchecks, hduties, fun hi c hc => ?_, hadm⟩
  obtain ⟨hentry, hshift⟩ := htable hi c hc
  refine ⟨hentry, ?_⟩
  show -31 ≤ shift (Machine.workOf i s.operands s.mem) s.operands c ∧ shift (Machine.workOf i s.operands s.mem) s.operands c ≤ 31
  rwa [← ((AgreeOutside.workOf i s.operands s.mem).entry hchecks hi hc).2]

/-- Settles O48: the first run leaves the table and all that the command reads, so the second is accepted and writes the same cells again. -/
theorem successfulCommandIdempotent : Obligations.SuccessfulCommandIdempotent := by
  intro i s h
  obtain ⟨l, hfirst, hsecond⟩ := workOf_sameCells h.1 (AgreeOutside.workOf i s.operands s.mem)
  refine ⟨Machine.workOf i s.operands s.mem, Machine.workOf i s.operands (Machine.workOf i s.operands s.mem), ?_, ?_, fun a => ?_⟩
  · rw [exec_eq_runCommand]
    exact runCommand_of_accepted _ _ s h
  · rw [exec_eq_runCommand]
    exact runCommand_of_accepted _ _ _ (Accepted.afterWork h)
  · rw [hsecond, hfirst]
    exact Memory.get_store_store s.mem l a

/-- A region of no element has no byte (R69). -/
theorem tensorBytes_zero (t : Tag) : tensorBytes t 0 = 0 := by
  cases t <;> rfl

/-- Settles O49: OUT is empty, so the only bytes a command may write are those of SCR, and UNPACK4 has none of these either. -/
theorem emptyWorkSucceeds : Obligations.EmptyWorkSucceeds := by
  intro i s h hempty
  refine ⟨fun hp => ?_, Machine.workOf i s.operands s.mem, ?_, fun a ha => ?_⟩
  · exact Nat.pos_of_ne_zero fun hzero => h.1 .scratchMissing (by decide) ⟨hp, hzero⟩
  · rw [exec_eq_runCommand]
    exact runCommand_of_accepted _ _ s h
  · refine workOf_outside i s.operands s.mem a (outsideWritten_of_notOut_notScr (fun hop => ?_) fun hp hscr => ha ⟨hp, hscr⟩)
    have hne : i ≠ .unpack4 := by rintro rfl; exact hop rfl
    rw [if_neg hne] at hempty
    simp only [outRegion, hempty, tensorBytes_zero]
    omega

end Sys2Proof.Machine
end

section
/-! The unpacker (R140 to R144): a nibble of a byte, the element it stands for, and the unpack pass of UNPACK4. -/

namespace Sys2Proof.Machine

/-! The nibbles of a packed byte (R140). -/

theorem nibble_even (m : Memory) (b k : Nat) : nibble m b (2 * k) = (Memory.get m (b + k)).extractLsb' 0 4 := by
  rw [nibble, if_pos (by omega), memRead_one, Nat.mul_div_cancel_left k (by decide)]

theorem nibble_odd (m : Memory) (b k : Nat) : nibble m b (2 * k + 1) = (Memory.get m (b + k)).extractLsb' 4 4 := by
  rw [nibble, if_neg (by omega), memRead_one, show (2 * k + 1) / 2 = k by omega]

/-- The nibble of an element in plain arithmetic: the remainder or the quotient of its byte by 16. -/
theorem nibble_toNat (m : Memory) (b i : Nat) :
    (nibble m b i).toNat =
      if i % 2 = 0 then (Memory.get m (b + i / 2)).toNat % 16 else (Memory.get m (b + i / 2)).toNat / 16 := by
  have hbyte := (Memory.get m (b + i / 2)).isLt
  rw [nibble, memRead_one]
  split
  · simp
  · rw [BitVec.extractLsb'_toNat, Nat.shiftRight_eq_div_pow]
    omega

/-- The element a nibble stands for: 0 to 7 as they are, 8 to 15 for -8 to -1. -/
theorem toInt_nibble (n : BitVec 4) : n.toInt = if n.toNat < 8 then (n.toNat : Int) else n.toNat - 16 := by
  rw [BitVec.toInt_eq_toNat_cond]
  split <;> split <;> omega

/-- The scratch byte of a nibble: 0x00 to 0x07 or 0xF8 to 0xFF. -/
theorem ofInt_toInt_nibble : ∀ n : BitVec 4, BitVec.ofInt 8 n.toInt = BitVec.ofNat 8 (if n.toNat < 8 then n.toNat else n.toNat + 0xF0) := by
  decide

/-- An element re-packed is its nibble. -/
@[simp] theorem ofInt_unpackElem (m : Memory) (b i : Nat) : BitVec.ofInt 4 (unpackElem m b i) = nibble m b i :=
  BitVec.ofInt_toInt

/-- Settles O26: `v` is the nibble of element `i`, and the value and the byte are those of the nibble. -/
theorem unpackedElementValue : Obligations.UnpackedElementValue := by
  intro m b i v hv
  obtain rfl : v = (nibble m b i).toNat := hv.trans (nibble_toNat m b i).symm
  exact ⟨toInt_nibble _, ofInt_toInt_nibble _⟩

/-- Settles O27: re-packing puts the high nibble of the byte next to its low one. -/
theorem unpackRoundTrip : Obligations.UnpackRoundTrip := by
  intro m b k
  rw [ofInt_unpackElem, ofInt_unpackElem, nibble_odd, nibble_even, BitVec.extractLsb'_append_extractLsb'_eq_extractLsb' (rfl : 4 = 0 + 4)]
  exact BitVec.extractLsb'_eq_self

/-! What the unpack pass reads (R144) and does (R141, R142). -/

/-- Memories whose filters hold the same nibbles give the unpack pass the same bytes to write. -/
theorem unpackCells_congr {f : Form} {o : Operands} {m m' : Memory}
    (h : ∀ i < eFlt f.op o, nibble m o.fltAddr i = nibble m' o.fltAddr i) : unpackCells f o m = unpackCells f o m' :=
  List.map_congr_left fun i hi => by rw [unpackElem, unpackElem, h i (List.mem_range.1 hi)]

/-- Equal bytes hold equal nibbles. -/
theorem nibble_congr {m m' : Memory} {b i : Nat} (h : Memory.get m (b + i / 2) = Memory.get m' (b + i / 2)) :
    nibble m b i = nibble m' b i := by
  rw [nibble, nibble, memRead_one, memRead_one, h]

/-- Settles O28: of `2k + 1` elements the first `2k` lie in the first `k` bytes, and the last one is the low nibble of byte `k`. -/
theorem oddHighNibbleIgnored : Obligations.OddHighNibbleIgnored := by
  constructor
  · intro f o hp
    simp only [fltRegion, hp, tensorBytes]
    omega
  · intro f o m m' k hodd hbytes hlow
    refine unpackCells_congr fun i hi => ?_
    obtain hlt | rfl : i / 2 < k ∨ i = 2 * k := by omega
    · exact nibble_congr (hbytes _ hlt)
    · apply BitVec.eq_of_toNat_eq
      simpa [nibble_toNat] using hlow

/-- Settles O29: UNPACK4 executes normally, so its memory is that of the unpack pass, which is known inside the scratch stretch and
outside it. -/
theorem unpackFourCompletes : Obligations.UnpackFourCompletes := by
  intro s h
  refine ⟨unpackPass Instr.unpack4.form s.operands s.mem, ?_, fun i hi => ?_, fun a ha => ?_⟩
  · rw [exec_eq_runCommand]
    exact runCommand_of_accepted _ _ s h
  · exact get_unpackPass Instr.unpack4.form s.operands s.mem i hi
  · exact get_unpackPass_outside Instr.unpack4.form s.operands s.mem a ha

end Sys2Proof.Machine
end

section
/-! The W-bit wrap and the accumulator's operands: wrapping additions in any order (R12, R156, R163), the range of a signed element (R63),
and the tags the integer paths read (R153 to R159). -/

namespace Sys2Proof.Machine

/-! The wrap (R12). -/

theorem wrap_eq_bmod (w : Nat) (v : Int) : wrap w v = v.bmod (2 ^ w) := BitVec.toInt_ofInt v

/-- An addition of a wrapped value, wrapped, is the wrapped addition. -/
theorem wrap_wrap_add (w : Nat) (a b : Int) : wrap w (wrap w a + b) = wrap w (a + b) := by
  simp only [wrap_eq_bmod, Int.bmod_add_bmod]

theorem wrap_range (w : Nat) (v : Int) : -(2 ^ (w - 1) : Int) ≤ wrap w v ∧ wrap w v < 2 ^ (w - 1) :=
  ⟨BitVec.le_toInt _, BitVec.toInt_lt⟩

theorem dvd_sub_wrap (w : Nat) (v : Int) : (2 ^ w : Int) ∣ v - wrap w v := by
  rw [wrap_eq_bmod]
  exact_mod_cast Int.dvd_self_sub_bmod (x := v) (m := 2 ^ w)

theorem wrap_of_range {w : Nat} (hw : 0 < w) {v : Int} (h1 : -(2 ^ (w - 1) : Int) ≤ v) (h2 : v < 2 ^ (w - 1)) : wrap w v = v :=
  BitVec.toInt_ofInt_eq_self hw h1 h2

/-- Wrapping additions one by one, then one more, are the wrap of the whole sum. -/
theorem wrap_foldl_add (w : Nat) (l : List Int) (a b : Int) :
    wrap w (l.foldl (fun acc x => wrap w (acc + x)) a + b) = wrap w (a + l.sum + b) := by
  induction l generalizing a with
  | nil => simp
  | cons x l ih =>
    calc wrap w ((x :: l).foldl (fun acc x => wrap w (acc + x)) a + b)
        = wrap w (wrap w (a + x) + l.sum + b) := ih _
      _ = wrap w (a + x + (l.sum + b)) := by rw [add_assoc, wrap_wrap_add]
      _ = wrap w (a + (x :: l).sum + b) := by rw [List.sum_cons, add_assoc a x, add_assoc a, add_assoc x]

/-! Signed elements (R63). -/

theorem readSigned_range (m : Memory) (a n : Nat) :
    -(2 ^ (8 * n - 1) : Int) ≤ readSigned m a n ∧ readSigned m a n < 2 ^ (8 * n - 1) :=
  ⟨BitVec.le_toInt _, BitVec.toInt_lt⟩

/-- An element no wider than the accumulator is not changed by the wrap. -/
theorem wrap_readSigned (m : Memory) (a : Nat) {n w : Nat} (hw : 0 < w) (h : 8 * n ≤ w) :
    wrap w (readSigned m a n) = readSigned m a n := by
  obtain ⟨h1, h2⟩ := readSigned_range m a n
  have hpow : (2 ^ (8 * n - 1) : Int) ≤ 2 ^ (w - 1) := pow_le_pow_right₀ (by decide) (by omega)
  exact wrap_of_range hw (by omega) (by omega)

/-! Width, bias and filter source (R156, R157, R158). -/

theorem accWidth_eq (f : Form) : accWidth f = if f.inType = .int16 then 64 else 32 := by simp [accWidth]

theorem accWidth_pos (f : Form) : 0 < accWidth f := by
  rw [accWidth_eq]
  split <;> decide

theorem biasValue_eq (f : Form) (o : Operands) (m : Memory) (oc : Nat) :
    biasValue f o m oc =
      if f.biasType = .absent then 0 else readSigned m (o.biasAddr + oc * tagSize f.biasType) (tagSize f.biasType) := by
  simp [biasValue, addrBias]

theorem filterElem_eq (f : Form) (o : Operands) (m : Memory) (x : Nat) :
    filterElem f o m x = readSigned m ((if f.fltType = .int4p then o.scratchAddr else o.fltAddr) + x) 1 := by
  simp [filterElem, filterBase, isPacked]

/-- The integer paths read int8 or int16 input. -/
theorem inType_of_integerForm {i : Instr} (h : IntegerForm i.form) : i.form.inType = .int8 ∨ i.form.inType = .int16 := by
  cases i
  case convF32 | convF32Nb | dwconvF32 | dwconvF32Nb | unpack4 => exact absurd h (by decide)
  all_goals decide

/-- The bias of a command is no wider than its accumulator (R95, R156). -/
theorem biasType_le_accWidth (i : Instr) : 8 * tagSize i.form.biasType ≤ accWidth i.form := by
  cases i <;> decide

/-- So a bias is its own wrap (R157). -/
theorem wrap_biasValue (i : Instr) (o : Operands) (m : Memory) (oc : Nat) :
    wrap (accWidth i.form) (biasValue i.form o m oc) = biasValue i.form o m oc := by
  unfold biasValue
  split
  case isTrue => exact wrap_of_range (accWidth_pos _) (by simp) (by simp)
  case isFalse => exact wrap_readSigned _ _ (accWidth_pos _) (biasType_le_accWidth i)

/-- Settles O33: the accumulator is a `wrap`, which lies in the range, is congruent to its argument, and is its argument in the range. -/
theorem accumulatorWidthAndWrap : Obligations.AccumulatorWidthAndWrap := by
  rintro f o m e W rfl
  rw [← accWidth_eq]
  refine ⟨wrap_range _ _, dvd_sub_wrap _ _, fun hfits => ?_⟩
  obtain ⟨h1, h2⟩ := abs_le.1 hfits
  exact wrap_of_range (accWidth_pos f) (by omega) (by omega)

/-- Settles O35: the wrapping additions give the wrap of the sum of the list, and permuted lists have one sum. -/
theorem tapOrderIndependent : Obligations.TapOrderIndependent := by
  intro f o m e l hperm
  rw [wrap_foldl_add, zero_add, hperm.sum_eq]
  rfl

/-- The product of a difference within a range and a byte is at most the range's width times 128 in magnitude (R153). -/
theorem abs_sub_mul_le {lo hi x z y : Int} (hx : lo ≤ x ∧ x ≤ hi) (hz : lo ≤ z ∧ z ≤ hi) (hy : |y| ≤ 128) :
    |(x - z) * y| ≤ (hi - lo) * 128 := by
  have hsub : |x - z| ≤ hi - lo := abs_le.2 ⟨by omega, by omega⟩
  rw [abs_mul]
  exact mul_le_mul hsub hy (abs_nonneg y) (by omega)

/-- An input element of an integer path lies in the range of its type (R125, R159). -/
theorem readSigned_inType {f : Form} (h : f.inType = .int8 ∨ f.inType = .int16) (m : Memory) (a : Nat) :
    tagMin f.inType ≤ readSigned m a (tagSize f.inType) ∧ readSigned m a (tagSize f.inType) ≤ tagMax f.inType := by
  have hrange := readSigned_range m a (tagSize f.inType)
  obtain h | h := h <;> rw [h] at hrange ⊢ <;> simp only [tagMin, tagMax, tagSize] at hrange ⊢ <;> omega

theorem abs_filterElem_le (f : Form) (o : Operands) (m : Memory) (x : Nat) : |filterElem f o m x| ≤ 128 := by
  obtain ⟨h1, h2⟩ := readSigned_range m (filterBase f o + x) 1
  exact abs_le.2 ⟨h1, by unfold filterElem; omega⟩

/-- Settles O34: the tap's definition spelled out, and the widths of the two factors' ranges multiplied. -/
theorem productBounds : Obligations.ProductBounds := by
  intro i o m t hi
  have hin := inType_of_integerForm hi
  constructor
  · rw [product, filterElem_eq]
    obtain h | h := hin <;> rw [h] <;> rfl
  · intro hz1 hz2
    have hle := abs_sub_mul_le (readSigned_inType hin m t.1) ⟨hz1, hz2⟩ (abs_filterElem_le i.form o m t.2)
    rw [← product] at hle
    obtain h | h := hin <;> rw [h] at hle ⊢ <;> exact hle

end Sys2Proof.Machine
end

section
/-! The terms of an output element in loop order (R151 to R155, R160), and what the accumulator is and depends on. -/

namespace Sys2Proof.Machine

/-- The address of channel `c` of the input element under the tap (ky, kx) (R64, R151). -/
def tapInput (f : Form) (o : Operands) (e : Elem) (ky kx c : Nat) : Nat :=
  addrIn f o e.n (tapRow o e.oy ky).toNat (tapCol o e.ox kx).toNat c

/-- The terms of the tap (ky, kx): for DWCONV the one of input channel `oc div DM` (R155), else one for each input channel (R154). -/
def tapTerms (f : Form) (o : Operands) (e : Elem) (ky kx : Nat) : List (Nat × Nat) :=
  if f.op = .dwconv then [(tapInput f o e ky kx (e.oc / o.DM), filterDw o ky kx e.oc)]
  else (List.range o.IC).map fun ic => (tapInput f o e ky kx ic, filterStd o e.oc ky kx ic)

/-- The in-bounds taps are the kernel positions in the order ky, kx, the padded ones skipped (R151, R152). -/
theorem windowTaps_flatMap {α : Type} (o : Operands) (oy ox : Nat) (g : Tap → List α) :
    (windowTaps o oy ox).flatMap g =
      (List.range o.KH).flatMap fun ky => (List.range o.KW).flatMap fun kx =>
        if inBounds o (tapRow o oy ky) (tapCol o ox kx) then g ⟨ky, kx, (tapRow o oy ky).toNat, (tapCol o ox kx).toNat⟩ else [] := by
  simp only [windowTaps, List.filterMap_eq_flatMap_toList, List.flatMap_assoc]
  refine List.flatMap_congr fun ky _ => List.flatMap_congr fun kx _ => ?_
  split <;> simp

/-- The terms of an element are those of its in-bounds taps, in the loop order of R154 and R155. -/
theorem terms_eq_loops (f : Form) (o : Operands) (e : Elem) :
    terms f o e = (List.range o.KH).flatMap fun ky => (List.range o.KW).flatMap fun kx =>
      if inBounds o (tapRow o e.oy ky) (tapCol o e.ox kx) then tapTerms f o e ky kx else [] := by
  unfold terms
  split
  case h_1 hop => simp only [termsDw, List.map_eq_flatMap, windowTaps_flatMap, tapTerms, tapInput, hop, if_true]
  case h_2 hop => simp only [termsStd, windowTaps_flatMap, tapTerms, tapInput, if_neg hop]

theorem mem_terms_iff (f : Form) (o : Operands) (e : Elem) (t : Nat × Nat) :
    t ∈ terms f o e ↔ ∃ ky < o.KH, ∃ kx < o.KW,
      inBounds o (tapRow o e.oy ky) (tapCol o e.ox kx) = true ∧ t ∈ tapTerms f o e ky kx := by
  simp only [terms_eq_loops, List.mem_flatMap, List.mem_range, List.mem_ite_nil_right]

/-- Settles O37: the loops of `terms_eq_loops`, each term taken to its pair of patterns; the elements are 4 bytes wide. -/
theorem floatTermsInLoopOrder : Obligations.FloatTermsInLoopOrder := by
  intro i o m e hi
  obtain ⟨hin, hflt, hop⟩ : i.form.inType = .float32 ∧ i.form.fltType = .float32 ∧
      (i.form.op = .conv ∨ i.form.op = .dwconv) := by
    revert i
    decide
  simp only [floatTerms, terms_eq_loops, List.map_flatMap, apply_ite (List.map _), List.map_nil]
  refine List.flatMap_congr fun ky _ => List.flatMap_congr fun kx _ => ?_
  obtain hop | hop := hop <;> simp [tapTerms, tapInput, hop, addrIn, filterStd, filterDw, hin, hflt, tagSize, Function.comp_def]

/-! The sum over the taps (R154, R155). -/

theorem sum_flatMap_range (n : Nat) (g : Nat → List Int) :
    ((List.range n).flatMap g).sum = ∑ k ∈ Finset.range n, (g k).sum := by
  rw [List.flatMap_def, List.sum_flatten, List.map_map]
  rfl

/-- The accumulator is the wrap of the sum over the kernel positions, a padded one adding 0, and the bias. -/
theorem accumulate_eq_loops (f : Form) (o : Operands) (m : Memory) (e : Elem) :
    accumulate f o m e = wrap (accWidth f)
      ((∑ ky ∈ Finset.range o.KH, ∑ kx ∈ Finset.range o.KW,
        if inBounds o (tapRow o e.oy ky) (tapCol o e.ox kx) then ((tapTerms f o e ky kx).map (product f o m)).sum else 0) +
        biasValue f o m e.oc) := by
  simp only [accumulate, exactSum, terms_eq_loops, List.map_flatMap, sum_flatMap_range, apply_ite (List.map _), List.map_nil,
    apply_ite List.sum, List.sum_nil]

theorem sum_tapTerms_of_conv {f : Form} (o : Operands) (m : Memory) (e : Elem) (ky kx : Nat) (hop : f.op = .conv) :
    ((tapTerms f o e ky kx).map (product f o m)).sum =
      ∑ ic ∈ Finset.range o.IC, product f o m (tapInput f o e ky kx ic, filterStd o e.oc ky kx ic) := by
  rw [tapTerms, if_neg (by rw [hop]; decide), List.map_map]
  rfl

theorem sum_tapTerms_of_dwconv {f : Form} (o : Operands) (m : Memory) (e : Elem) (ky kx : Nat) (hop : f.op = .dwconv) :
    ((tapTerms f o e ky kx).map (product f o m)).sum =
      product f o m (tapInput f o e ky kx (e.oc / o.DM), filterDw o ky kx e.oc) := by
  rw [tapTerms, if_pos hop, List.map_singleton, List.sum_singleton]

/-- Settles O30: the sum of `accumulate_eq_loops` with a tap's sum over the input channels; a padded tap adds 0 for each channel. -/
theorem standardSum : Obligations.StandardSum := by
  intro f o m n oy ox oc hop
  simp only [accumulate_eq_loops, sum_tapTerms_of_conv o m _ _ _ hop, accWidth_eq, biasValue_eq, inBounds_iff, product, filterElem_eq,
    tapInput, tapRow, tapCol, filterStd, Finset.sum_ite_irrel, Finset.sum_const_zero]

/-- Settles O31: the sum of `accumulate_eq_loops`, one term for a tap. -/
theorem depthwiseSum : Obligations.DepthwiseSum := by
  intro f o m n oy ox oc hop
  simp only [accumulate_eq_loops, sum_tapTerms_of_dwconv o m _ _ _ hop, accWidth_eq, biasValue_eq, inBounds_iff, product, filterElem_eq,
    tapInput, tapRow, tapCol, filterDw]

/-! What the accumulator depends on (R164, R165). -/

theorem terms_eq_nil {f : Form} {o : Operands} {e : Elem}
    (h : (f.op = .conv ∧ o.IC = 0) ∨
      ∀ ky < o.KH, ∀ kx < o.KW, inBounds o (tapRow o e.oy ky) (tapCol o e.ox kx) = false) : terms f o e = [] := by
  refine List.eq_nil_iff_forall_not_mem.2 fun t ht => ?_
  obtain ⟨ky, hky, kx, hkx, hin, hmem⟩ := (mem_terms_iff f o e t).1 ht
  obtain ⟨hop, hIC⟩ | hpad := h
  · simp [tapTerms, hop, hIC] at hmem
  · exact absurd hin (by simp [hpad ky hky kx hkx])

/-- Settles O32: the element has no terms, so its sum is the bias, which fits the accumulator. -/
theorem onlyPaddingLeavesBias : Obligations.OnlyPaddingLeavesBias := by
  rintro i o qt m e b - hpad rfl
  have hacc : accumulate i.form o m e = biasValue i.form o m e.oc := by
    rw [accumulate, exactSum, terms_eq_nil hpad, List.map_nil, List.sum_nil, zero_add, wrap_biasValue]
  rw [outputValue, hacc, biasValue_eq]
  exact ⟨rfl, rfl⟩

theorem mem_tapTerms_iff (f : Form) (o : Operands) (e : Elem) (ky kx : Nat) (t : Nat × Nat) :
    t ∈ tapTerms f o e ky kx ↔
      if f.op = .dwconv then t = (tapInput f o e ky kx (e.oc / o.DM), filterDw o ky kx e.oc)
      else ∃ ic < o.IC, t = (tapInput f o e ky kx ic, filterStd o e.oc ky kx ic) := by
  unfold tapTerms
  split <;> simp [eq_comm]

/-- Memories that give every term of an element the same product, and its bias, give the same accumulator. -/
theorem accumulate_congr {f : Form} {o : Operands} {m m' : Memory} {e : Elem}
    (hproduct : ∀ t ∈ terms f o e, product f o m t = product f o m' t) (hbias : biasValue f o m e.oc = biasValue f o m' e.oc) :
    accumulate f o m e = accumulate f o m' e := by
  rw [accumulate, accumulate, exactSum, exactSum, List.map_congr_left hproduct, hbias]

/-- Settles O36: each term's two elements are among those the memories agree on. -/
theorem accumulatorLocality : Obligations.AccumulatorLocality := by
  intro f o qt qt' m m' e hinput hfilter hbias hmult hshift
  have hacc : accumulate f o m e = accumulate f o m' e := by
    refine accumulate_congr (fun t ht => ?_) hbias
    obtain ⟨ky, hky, kx, hkx, hin, hmem⟩ := (mem_terms_iff f o e t).1 ht
    replace hinput := hinput ky hky kx hkx hin
    replace hfilter := hfilter ky hky kx hkx
    rw [mem_tapTerms_iff] at hmem
    split at hmem
    case isTrue hop =>
      simp only [hop, if_true, forall_eq] at hinput hfilter
      rw [hmem, product, product, tapInput, hinput, hfilter]
    case isFalse hop =>
      simp only [hop, if_false] at hinput hfilter
      obtain ⟨ic, hic, rfl⟩ := hmem
      rw [product, product, tapInput, hinput ic hic, hfilter ic hic]
  exact ⟨hacc, by rw [outputValue, outputValue, hacc, hmult, hshift]⟩

end Sys2Proof.Machine
end

section
/-! Rounding, scaling and requantization (R170 to R183). -/

namespace Sys2Proof.Machine

/-! Rounding to nearest, ties away from zero (R172). -/

@[simp] theorem rhaz_zero_bits (P : Int) : rhaz P 0 = P := if_pos rfl

@[simp] theorem rhaz_zero (r : Nat) : rhaz 0 r = 0 := by simp [rhaz]

theorem rhaz_neg (P : Int) (r : Nat) : rhaz (-P) r = -rhaz P r := by
  unfold rhaz
  split
  · rfl
  · rw [Int.sign_neg, Int.natAbs_neg, neg_mul]

/-- Of a value that is not negative it is the floor of `P / 2^r + 1/2`. -/
theorem rhaz_of_nonneg {P : Int} (hP : 0 ≤ P) (r : Nat) : rhaz P r = (2 * P + 2 ^ r) / (2 * 2 ^ r) := by
  cases r with
  | zero => simp only [rhaz_zero_bits, pow_zero]; omega
  | succ r =>
    have htwice : 2 * P + 2 ^ (r + 1) = 2 * (P + 2 ^ r) := by ring
    have hhalf : (0 : Int) < 2 ^ r := Int.pow_pos two_pos
    rw [htwice, Int.mul_ediv_mul_of_pos _ _ two_pos]
    obtain rfl | hpos := hP.eq_or_lt
    · rw [rhaz_zero, Int.ediv_eq_zero_of_lt] <;> omega
    · rw [rhaz, if_neg r.succ_ne_zero, Int.sign_eq_one_of_pos hpos, one_mul, Nat.add_sub_cancel]
      push_cast
      rw [abs_of_nonneg hP]

theorem rhaz_nonneg {P : Int} (hP : 0 ≤ P) (r : Nat) : 0 ≤ rhaz P r := by
  rw [rhaz_of_nonneg hP]
  positivity

theorem rhaz_nonpos {P : Int} (hP : P ≤ 0) (r : Nat) : rhaz P r ≤ 0 := by
  have h := rhaz_nonneg (neg_nonneg.2 hP) r
  rwa [rhaz_neg, neg_nonneg] at h

/-- Bits that only scale the value are shifted out without rounding. -/
theorem rhaz_mul_two_pow (P : Int) (r k : Nat) : rhaz (P * 2 ^ k) (r + k) = rhaz P r := by
  have hpow : (0 : Int) < 2 ^ k := Int.pow_pos two_pos
  have hnonneg : ∀ Q : Int, 0 ≤ Q → rhaz (Q * 2 ^ k) (r + k) = rhaz Q r := fun Q hQ => by
    have hnum : 2 * (Q * 2 ^ k) + 2 ^ (r + k) = (2 * Q + 2 ^ r) * 2 ^ k := by ring
    have hden : (2 * 2 ^ (r + k) : Int) = 2 * 2 ^ r * 2 ^ k := by ring
    rw [rhaz_of_nonneg hQ, rhaz_of_nonneg (mul_nonneg hQ hpow.le), hnum, hden, Int.mul_ediv_mul_of_pos_left _ _ hpow]
  obtain h | h := le_total 0 P
  · exact hnonneg P h
  · rw [← neg_inj, ← rhaz_neg, ← rhaz_neg, ← neg_mul]
    exact hnonneg (-P) (by omega)

/-- `q` is an integer nearest to `P / 2^r`, and on a tie the one of larger magnitude. -/
def NearestAwayFromZero (P : Int) (r : Nat) (q : Int) : Prop :=
  2 * |q * 2 ^ r - P| ≤ 2 ^ r ∧ (2 * |q * 2 ^ r - P| = 2 ^ r → |P| < |q * 2 ^ r|)

theorem NearestAwayFromZero.neg {P : Int} {r : Nat} {q : Int} (h : NearestAwayFromZero P r q) : NearestAwayFromZero (-P) r (-q) := by
  have hdiff : |(-q) * 2 ^ r - -P| = |q * 2 ^ r - P| := by rw [neg_mul, ← neg_sub', abs_neg]
  unfold NearestAwayFromZero
  rwa [hdiff, neg_mul, abs_neg, abs_neg]

/-- The floor leaves `q * 2^r - P` above `-2^r / 2` and at most `2^r / 2`, so a tie lies above `P`. -/
theorem nearest_rhaz_of_nonneg {P : Int} (hP : 0 ≤ P) (r : Nat) : NearestAwayFromZero P r (rhaz P r) := by
  have hd : (0 : Int) < 2 * 2 ^ r := by positivity
  have hle := Int.ediv_mul_le (2 * P + 2 ^ r) hd.ne'
  have hlt := Int.lt_ediv_add_one_mul_self (2 * P + 2 ^ r) hd
  rw [← rhaz_of_nonneg hP, mul_left_comm] at hle
  rw [← rhaz_of_nonneg hP, mul_left_comm, add_one_mul] at hlt
  unfold NearestAwayFromZero
  rw [abs_of_nonneg hP]
  obtain ⟨habs, h⟩ | ⟨habs, h⟩ := abs_cases (rhaz P r * 2 ^ r - P) <;> rw [habs]
  · have := le_abs_self (rhaz P r * 2 ^ r)
    omega
  · omega

theorem nearest_rhaz (P : Int) (r : Nat) : NearestAwayFromZero P r (rhaz P r) := by
  obtain h | h := le_total 0 P
  · exact nearest_rhaz_of_nonneg h r
  · have hneg := (nearest_rhaz_of_nonneg (neg_nonneg.2 h) r).neg
    rwa [rhaz_neg, neg_neg, neg_neg] at hneg

/-! Scaling by a table entry (R171, R179, R180). -/

theorem scaled_eq_rhaz (acc M : Int) {S : Int} {r : Nat} (h : (r : Int) = 31 - S) : scaled acc M S = rhaz (acc * M) r := by
  rw [scaled, ← h, Int.toNat_natCast]

/-- The accumulator 0 scales to 0 by every table entry. -/
@[simp] theorem scaled_zero_acc (M S : Int) : scaled 0 M S = 0 := by
  rw [scaled, zero_mul, rhaz_zero]

/-- Settles O38: `rhaz` is nearest to its value and odd, and `scaled` is one `rhaz` of the product. -/
theorem roundsHalfAwayFromZero : Obligations.RoundsHalfAwayFromZero := by
  intro P r
  obtain ⟨hnear, htie⟩ := nearest_rhaz P r
  refine ⟨hnear, htie, rhaz_neg P r, ?_⟩
  rintro acc M S rfl hr
  exact scaled_eq_rhaz acc M hr

/-- Half of a value, rounded half away from zero. -/
theorem rhaz_one_bit {P : Int} (hP : 0 ≤ P) : rhaz P 1 = (P + 1) / 2 := by
  rw [rhaz_of_nonneg hP]
  omega

/-- Settles O39: each landmark leaves 0 or 1 bit of rounding once the factor 2^30 of the multiplier is shifted out. -/
theorem scalingLandmarks : Obligations.ScalingLandmarks := by
  constructor
  · intro acc M S r hr
    rw [scaled_eq_rhaz acc M hr]
    exact nearest_rhaz (acc * M) r
  · intro acc M
    have hhalf : scaled acc (2 ^ 30) 0 = rhaz acc 1 :=
      (scaled_eq_rhaz acc _ (r := 1 + 30) rfl).trans (rhaz_mul_two_pow acc 1 30)
    have hone : scaled acc (2 ^ 30) 1 = rhaz acc 0 :=
      (scaled_eq_rhaz acc _ (r := 0 + 30) rfl).trans (rhaz_mul_two_pow acc 0 30)
    refine ⟨scaled_eq_rhaz acc M (r := 0) rfl, by rw [hone, rhaz_zero_bits], fun h => ?_, fun h => ?_⟩
    · rw [hhalf, rhaz_one_bit h]
    · rw [hhalf, ← neg_neg acc, rhaz_neg, rhaz_one_bit (by omega)]
      omega

/-- Settles O41: the product of the accumulator and the multiplier has the sign that rounding keeps. -/
theorem multiplierSign : Obligations.MultiplierSign := by
  intro acc M S
  refine ⟨?_, fun hM hacc => rhaz_nonpos (mul_nonpos_of_nonneg_of_nonpos hacc hM.le) _,
    fun hM hacc => rhaz_nonneg (mul_nonneg_of_nonpos_of_nonpos hacc hM.le) _⟩
  rintro rfl
  rw [scaled, mul_zero, rhaz_zero]

/-! The output value (R170, R181, R183). -/

theorem clamp_range (v : Int) {lo hi : Int} (h : lo ≤ hi) : lo ≤ clamp v lo hi ∧ clamp v lo hi ≤ hi :=
  ⟨le_min (le_max_right v lo) h, min_le_right _ hi⟩

/-- The last clamp puts the value into the output range. -/
theorem requant_range (acc M S zpo amin amax : Int) {T : Tag} (hT : tagMin T ≤ tagMax T) :
    tagMin T ≤ requant acc M S zpo amin amax T ∧ requant acc M S zpo amin amax T ≤ tagMax T :=
  clamp_range _ hT

/-- Settles O40: the ranges of INT8 and INT16. -/
theorem requantizedInRange : Obligations.RequantizedInRange := fun acc M S zpo amin amax =>
  ⟨requant_range acc M S zpo amin amax (T := .int8) (by decide), requant_range acc M S zpo amin amax (T := .int16) (by decide)⟩

/-- The accumulator 0 leaves the output zero point, clamped. -/
theorem requant_zero_acc (M S zpo amin amax : Int) (T : Tag) :
    requant 0 M S zpo amin amax T = clamp (clamp zpo amin amax) (tagMin T) (tagMax T) := by
  rw [requant, scaled_zero_acc, zero_add]

theorem accumulate_eq_zero {f : Form} {o : Operands} {m : Memory} {e : Elem} (hproduct : ∀ t ∈ terms f o e, product f o m t = 0)
    (hbias : biasValue f o m e.oc = 0) : accumulate f o m e = 0 := by
  have hsum : ((terms f o e).map (product f o m)).sum = 0 := List.sum_eq_zero (List.forall_mem_map.2 hproduct)
  rw [accumulate, exactSum, hsum, hbias, zero_add, wrap_eq_bmod, Int.zero_bmod]

/-- Settles O42: each product has a factor 0, so the accumulator is 0. -/
theorem degenerateOutput : Obligations.DegenerateOutput := by
  intro i o qt m e _ hzero hbias
  have hproduct : ∀ t ∈ terms i.form o e, product i.form o m t = 0 := fun t ht => by
    obtain hfilter | hinput := hzero
    · rw [product, hfilter t ht, mul_zero]
    · rw [product, hinput t ht, sub_self, zero_mul]
  rw [outputValue, accumulate_eq_zero hproduct hbias, requant_zero_acc]
  rfl

end Sys2Proof.Machine
end

section
/-! A channel's output elements and the other channels' table entries (R177, R182): an output element reads the IN, filter and bias regions and
its own table entry. -/

namespace Sys2Proof.Machine

/-! Reading an output element back (R162, R176). -/

/-- The memory an integer path takes its sums from: the one its own unpack pass leaves, where the filter is packed (R158). -/
def sumMemory (f : Form) (o : Operands) (m : Memory) : Memory :=
  if isPacked f then unpackPass f o m else m

theorem sumMemory_of_packed {f : Form} (hp : f.fltType = .int4p) (o : Operands) (m : Memory) : sumMemory f o m = unpackPass f o m :=
  if_pos ((isPacked_iff f).2 hp)

theorem sumMemory_of_not_packed {f : Form} (hp : f.fltType ≠ .int4p) (o : Operands) (m : Memory) : sumMemory f o m = m :=
  if_neg (mt (isPacked_iff f).1 hp)

/-- An integer path writes its output elements over the memory it takes the sums from. -/
theorem workOf_of_integerForm {i : Instr} (hi : IntegerForm i.form) (o : Operands) (m : Memory) :
    workOf i o m = Memory.store (sumMemory i.form o m) (integerCells i.form o m (sumMemory i.form o m)) := by
  obtain ⟨-, hni, -⟩ | ⟨hk, -, hp⟩ | ⟨hk, -, hp⟩ | ⟨-, hop, -⟩ := workOf_kind i
  · exact absurd hi hni
  · rw [hk, sumMemory_of_not_packed hp, integerPath]
  · rw [hk, sumMemory_of_packed hp, packedPath]
  · exact absurd hop hi.1

/-- The integer paths write int8 or int16 output. -/
theorem outType_of_integerForm {i : Instr} (h : IntegerForm i.form) : i.form.outType = .int8 ∨ i.form.outType = .int16 := by
  cases i
  case convF32 | convF32Nb | dwconvF32 | dwconvF32Nb | unpack4 => exact absurd h (by decide)
  all_goals decide

/-- A requantized value is its own wrap to the output element's bits (R181). -/
theorem wrap_requant {T : Tag} (hT : T = .int8 ∨ T = .int16) (acc M S zpo amin amax : Int) :
    wrap (8 * tagSize T) (requant acc M S zpo amin amax T) = requant acc M S zpo amin amax T := by
  have hrange := requant_range acc M S zpo amin amax (T := T) (by obtain rfl | rfl := hT <;> decide)
  obtain rfl | rfl := hT <;> exact wrap_of_range (by decide) hrange.1 (Int.lt_add_one_of_le hrange.2)

/-- A command that executes normally performs its computation and completes with success (R111, R132). -/
theorem exec_of_accepted {i : Instr} {s : State} (h : Accepted i.form s) : exec i s = .next (finish (workOf i s.operands s.mem) s) :=
  (exec_eq_runCommand i s).trans (runCommand_of_accepted i.form (workOf i) s h)

/-- After an integer path each output element reads back as its value. -/
theorem readSigned_workOf {i : Instr} (hi : IntegerForm i.form) (o : Operands) (m : Memory) {e : Elem} (he : e ∈ outputElems o) :
    readSigned (workOf i o m) (addrOut i.form o e.n e.oy e.ox e.oc) (tagSize i.form.outType) =
      outputValue i.form o m (sumMemory i.form o m) e := by
  rw [workOf_of_integerForm hi, integerCells_eq, addrOut_eq, readSigned, memRead_store_outCells _ _ _ _ _ he]
  exact wrap_requant (outType_of_integerForm hi) ..

/-! What an output element reads (R64 to R66). -/

/-- The region is IN, FLT or BIAS, one the sums are taken from. -/
abbrev Region.Tensor (r : Region) : Prop := r.name = .inp ∨ r.name = .flt ∨ r.name = .bias

/-- The memories agree on every byte of the IN, FLT and BIAS regions. -/
def TensorsAlike (f : Form) (o : Operands) (m m' : Memory) : Prop :=
  ∀ r ∈ regions f o, r.Tensor → ∀ a, r.base ≤ a → a < r.base + r.len → Memory.get m a = Memory.get m' a

/-- Memories that differ in the table only agree there, where the table overlaps none of the three. -/
theorem tensorsAlike_of_outside_table {f : Form} {o : Operands} {m m' : Memory}
    (htable : ∀ r ∈ regions f o, r.Tensor → r.overlaps (qtabRegion o) = false)
    (hm : ∀ a, ¬ (o.qtabAddr ≤ a ∧ a < o.qtabAddr + 8 * o.OC) → Memory.get m a = Memory.get m' a) : TensorsAlike f o m m' := by
  refine fun r hr hname a h1 h2 => hm a fun ⟨h3, h4⟩ => ?_
  have hover : r.overlaps (qtabRegion o) = true := overlap_of_common h1 h2 h3 h4
  rw [htable r hr hname] at hover
  cases hover

section
variable {f : Form} {o : Operands} {m m' : Memory} (hm : TensorsAlike f o m m')
include hm

theorem TensorsAlike.memRead {r : Region} (hr : r ∈ regions f o) (hname : r.Tensor) {a n : Nat}
    (h1 : r.base ≤ a) (h2 : a + n ≤ r.base + r.len) : memRead m a n = memRead m' a n :=
  memRead_congr fun _ _ => hm r hr hname _ (by omega) (by omega)

/-- An element `x` of a tensor of `E` elements lies in its region. -/
theorem TensorsAlike.elem {r : Region} (hr : r ∈ regions f o) (hname : r.Tensor) {T : Tag} {E x : Nat}
    (hlen : r.len = tensorBytes T E) (hT : T ≠ .int4p) (hx : x < E) :
    readSigned m (r.base + x * tagSize T) (tagSize T) = readSigned m' (r.base + x * tagSize T) (tagSize T) := by
  have hlast : (x + 1) * tagSize T ≤ E * tagSize T := Nat.mul_le_mul_right _ hx
  rw [← tensorBytes_eq T E hT, ← hlen, Nat.succ_mul] at hlast
  exact congrArg BitVec.toInt (hm.memRead hr hname (Nat.le_add_right ..) (by omega))

theorem TensorsAlike.biasValue (hop : f.op ≠ .unpack4) (hp : f.biasType ≠ .int4p) {c : Nat} (hc : c < o.OC) :
    biasValue f o m c = biasValue f o m' c := by
  rw [biasValue_eq, biasValue_eq]
  split
  case isTrue => rfl
  case isFalse hb => exact hm.elem (biasRegion_mem f o hop hb) (.inr (.inr rfl)) rfl hp hc

/-- The input element of a term lies in the IN region (R64). -/
theorem TensorsAlike.input (hN : NoCheckHolds f o) (hop : f.op ≠ .unpack4) (hp : f.inType ≠ .int4p) {e : Elem} (he : e ∈ outputElems o)
    {t : Nat × Nat} (ht : t ∈ terms f o e) : readSigned m t.1 (tagSize f.inType) = readSigned m' t.1 (tagSize f.inType) := by
  obtain ⟨h1, h2, -⟩ := terms_bound f o e he (depth_of_noCheckHolds hN) hop t ht
  rw [← tensorBytes_eq _ _ hp] at h2
  exact congrArg BitVec.toInt (hm.memRead (inRegion_mem f o hop) (.inl rfl) h1 h2)

/-- An int8 filter element is a byte of the filter region, a packed one a nibble of it (R65, R140). -/
theorem TensorsAlike.filterElem (hf : f.fltType ≠ .int4p → f.fltType = .int8) {x : Nat} (hx : x < eFlt f.op o) :
    filterElem f o (sumMemory f o m) x = filterElem f o (sumMemory f o m') x := by
  by_cases hp : f.fltType = .int4p
  · have hbyte : Memory.get m (o.fltAddr + x / 2) = Memory.get m' (o.fltAddr + x / 2) := by
      refine hm _ (fltRegion_mem f o) (.inr (.inl rfl)) _ (Nat.le_add_right ..) ?_
      simp only [fltRegion, hp, tensorBytes]
      omega
    simp only [filterElem_eq, sumMemory_of_packed hp, if_pos hp, readSigned, memRead_one, get_unpackPass _ _ _ _ hx, unpackElem,
      nibble_congr hbyte]
  · have hread := hm.elem (fltRegion_mem f o) (.inr (.inl rfl)) rfl hp hx
    rw [hf hp] at hread
    simpa only [filterElem_eq, sumMemory_of_not_packed hp, if_neg hp, fltRegion, tagSize, Nat.mul_one] using hread

/-- The unpack pass writes none of the three regions (R128). -/
theorem TensorsAlike.afterUnpack (hN : NoCheckHolds f o) : TensorsAlike f o (sumMemory f o m) (sumMemory f o m') := by
  by_cases hp : f.fltType = .int4p
  · intro r hr hname a h1 h2
    have hread : r.written = false := by obtain h | h | h := hname <;> rw [Region.written, h] <;> rfl
    have hscr := outsideWritten_of_readRegion hN hr hread h1 h2 _ (scrRegion_mem f o hp) rfl
    rw [sumMemory_of_packed hp, sumMemory_of_packed hp, get_unpackPass_outside _ _ _ _ hscr, get_unpackPass_outside _ _ _ _ hscr]
    exact hm r hr hname a h1 h2
  · rwa [sumMemory_of_not_packed hp, sumMemory_of_not_packed hp]

end

/-- A command's output elements have the same accumulators from memories alike in the three regions. -/
theorem TensorsAlike.accumulate {i : Instr} {o : Operands} {m m' : Memory} (hm : TensorsAlike i.form o m m') (hN : NoCheckHolds i.form o)
    (hi : IntegerForm i.form) {e : Elem} (he : e ∈ outputElems o) :
    accumulate i.form o (sumMemory i.form o m) e = accumulate i.form o (sumMemory i.form o m') e := by
  obtain ⟨hin, hbias, -, hint8, -⟩ := form_facts i
  obtain ⟨-, -, -, hoc⟩ := (mem_outputElems o e).1 he
  refine accumulate_congr (fun t ht => ?_) ((hm.afterUnpack hN).biasValue hi.1 hbias hoc)
  obtain ⟨-, -, hx⟩ := terms_bound i.form o e he (depth_of_noCheckHolds hN) hi.1 t ht
  rw [product, product, (hm.afterUnpack hN).input hN hi.1 hin he ht, hm.filterElem (hint8 hi) hx]

/-- A channel's multiplier and shift are those of its eight table bytes (R67). -/
theorem entry_congr {o : Operands} {m m' : Memory} {c : Nat} (h : ∀ j < 8, Memory.get m (addrQtab o c + j) = Memory.get m' (addrQtab o c + j)) :
    multiplier m o c = multiplier m' o c ∧ shift m o c = shift m' o c := by
  refine ⟨congrArg BitVec.toInt (memRead_congr fun j hj => h j (by omega)), congrArg BitVec.toInt (memRead_congr fun j hj => ?_)⟩
  rw [add_assoc]
  exact h (4 + j) (by omega)

/-- Settles O52: both runs succeed, and an output element of the channel has the same accumulator and the same table entry in both. -/
theorem perChannelIndependence : Obligations.PerChannelIndependence := by
  intro i s s' oc hi hs hacc hacc' hoc houtside hentry htable
  have hops : s'.operands = s.operands := by rw [hs]; rfl
  refine ⟨_, _, exec_of_accepted hacc, exec_of_accepted hacc', fun n oy ox hn hoy hox => ?_⟩
  have he : (⟨n, oy, ox, oc⟩ : Elem) ∈ outputElems s.operands := (mem_outputElems ..).2 ⟨hn, hoy, hox, hoc⟩
  have halike : TensorsAlike i.form s.operands s'.mem s.mem := tensorsAlike_of_outside_table htable houtside
  obtain ⟨hmult, hshift⟩ := entry_congr (o := s.operands) hentry
  have hvalue : outputValue i.form s.operands s'.mem (sumMemory i.form s.operands s'.mem) ⟨n, oy, ox, oc⟩ =
      outputValue i.form s.operands s.mem (sumMemory i.form s.operands s.mem) ⟨n, oy, ox, oc⟩ := by
    rw [outputValue, outputValue, halike.accumulate hacc.1 hi he, hmult, hshift]
  rw [finish_mem, finish_mem, hops]
  exact (readSigned_workOf hi _ _ he).trans (hvalue.trans (readSigned_workOf hi _ _ he).symm)

end Sys2Proof.Machine
end

section
/-! The completions of the convolutions (R160 to R162, R190 to R194): what each output element, and with a packed filter each scratch byte,
holds after a command that executes normally, and which bytes stay. -/

namespace Sys2Proof.Machine

/-- A command leaves every byte outside OUT and, with a packed filter, outside SCR as it was, the two regions as stretches of addresses. -/
theorem get_workOf_outside {i : Instr} {o : Operands} {a : Nat} (m : Memory)
    (hout : ¬ (o.outAddr ≤ a ∧ a < o.outAddr + eOut o * tagSize i.form.outType))
    (hscr : i.form.fltType = .int4p → ¬ (o.scratchAddr ≤ a ∧ a < o.scratchAddr + eFlt i.form.op o)) :
    Memory.get (workOf i o m) a = Memory.get m a := by
  obtain ⟨-, -, hp, -⟩ := form_facts i
  have hlen : (outRegion i.form o).len = eOut o * tagSize i.form.outType := tensorBytes_eq _ _ hp
  refine workOf_outside i o m a (outsideWritten_of_notOut_notScr (fun _ => ?_) hscr)
  rwa [hlen]

/-! The float path (R160, R161, R190). -/

theorem floatBias_eq {f : Form} (hb : f.biasType = .absent ∨ f.biasType = .float32) (o : Operands) (m : Memory) (oc : Nat) :
    floatBias f o m oc = if f.biasType = .absent then none else some (memRead m (o.biasAddr + oc * 4) 4) := by
  obtain hb | hb := hb <;> simp [floatBias, addrBias, hb, tagSize]

/-- A convolution that is no integer path is a float path. -/
theorem workOf_of_float {i : Instr} (hi : ¬ IntegerForm i.form) (hop : i.form.op ≠ .unpack4) : workOf i = floatPath i.form := by
  obtain ⟨hk, -⟩ | ⟨-, hint, -⟩ | ⟨-, hint, -⟩ | ⟨-, hunpack, -⟩ := workOf_kind i
  · exact hk
  · exact absurd hint hi
  · exact absurd hint hi
  · exact absurd hunpack hop

/-- After the float path each output element reads back as FLOAT_CONV of its terms and bias. -/
theorem memRead_floatPath {f : Form} (hout : f.outType = .float32) (o : Operands) (m : Memory) {e : Elem} (he : e ∈ outputElems o) :
    memRead (floatPath f o m) (addrOut f o e.n e.oy e.ox e.oc) 4 = Config.floatConv (floatTerms f o m e) (floatBias f o m e.oc) := by
  rw [floatPath, floatCells_eq _ _ _ hout, addrOut_eq, hout]
  exact memRead_store_outCells _ _ _ _ _ he

/-- Settles O43: the computation is the float path, whose elements read back as written. -/
theorem floatConvolutionCompletes : Obligations.FloatConvolutionCompletes := by
  intro i s hi
  obtain ⟨hni, hop⟩ : ¬ IntegerForm i.form ∧ i.form.op ≠ .unpack4 := by
    revert i; decide
  intro h
  obtain ⟨-, -, -, -, hfloat⟩ := form_facts i
  obtain ⟨hflt, -, hout, hb⟩ := hfloat hni hop
  refine ⟨_, exec_of_accepted h, fun n oy ox oc hn hoy hox hoc => ?_, fun a ha => ?_⟩
  · have he : (⟨n, oy, ox, oc⟩ : Elem) ∈ outputElems s.operands := (mem_outputElems ..).2 ⟨hn, hoy, hox, hoc⟩
    have hvalue := memRead_floatPath hout s.operands s.mem he
    rw [← workOf_of_float hni hop, floatBias_eq hb] at hvalue
    exact hvalue
  · refine get_workOf_outside _ (by rw [hout]; exact ha) fun hp => ?_
    rw [hflt] at hp
    cases hp

/-! The integer paths with an int8 filter (R162, R191, R193, R194). -/

/-- An integer path with an int8 filter completes with the output values of its elements, the sums and the table entries both of the memory
before it, and writes OUT only. -/
theorem completes_of_int8Filter {i : Instr} {s : State} (hi : IntegerForm i.form) (hflt : i.form.fltType = .int8)
    (h : Accepted i.form s) :
    ∃ m, exec i s = .next (succeeded s m) ∧
      (∀ e ∈ outputElems s.operands, readSigned m (addrOut i.form s.operands e.n e.oy e.ox e.oc) (tagSize i.form.outType) =
        outputValue i.form s.operands s.mem s.mem e) ∧
      (∀ a, ¬ (s.operands.outAddr ≤ a ∧ a < s.operands.outAddr + eOut s.operands * tagSize i.form.outType) →
        Memory.get m a = Memory.get s.mem a) := by
  have hp : i.form.fltType ≠ .int4p := by rw [hflt]; decide
  refine ⟨_, exec_of_accepted h, fun e he => ?_, fun a ha => get_workOf_outside _ ha fun hpacked => absurd hpacked hp⟩
  rw [readSigned_workOf hi _ _ he, sumMemory_of_not_packed hp]

/-- Settles O44: the five commands are integer paths with an int8 filter. -/
theorem integerConvolutionCompletes : Obligations.IntegerConvolutionCompletes := by
  intro i s hi
  obtain ⟨hint, hflt⟩ : IntegerForm i.form ∧ i.form.fltType = .int8 := by
    revert i; decide
  intro h
  obtain ⟨m, hexec, hvalue, hframe⟩ := completes_of_int8Filter hint hflt h
  exact ⟨m, hexec, fun n oy ox oc hn hoy hox hoc => hvalue ⟨n, oy, ox, oc⟩ ((mem_outputElems ..).2 ⟨hn, hoy, hox, hoc⟩), hframe⟩

/-! The packed path (R87, R140, R158, R192, R202). -/

/-- An unpacked element fits the scratch byte it is written to (R140). -/
theorem wrap_unpackElem (m : Memory) (b x : Nat) : wrap 8 (unpackElem m b x) = unpackElem m b x := by
  have hlow : -8 ≤ unpackElem m b x := BitVec.le_toInt _
  have hhigh : unpackElem m b x < 8 := BitVec.toInt_lt
  exact wrap_of_range (by decide) (by omega) (by omega)

/-- After the unpack pass a filter element is the element unpacked from FLT_ADDR (R158). -/
theorem filterElem_unpackPass {f : Form} {o : Operands} (hp : f.fltType = .int4p) (m : Memory) {x : Nat} (hx : x < eFlt f.op o) :
    filterElem f o (unpackPass f o m) x = unpackElem m o.fltAddr x := by
  rw [filterElem_eq, if_pos hp, readSigned, memRead_one, get_unpackPass _ _ _ _ hx]
  exact wrap_unpackElem m o.fltAddr x

/-- The unpack pass writes SCR only (R141). -/
theorem agreeOutside_unpackPass {f : Form} (hp : f.fltType = .int4p) (o : Operands) (m : Memory) :
    AgreeOutside f o (unpackPass f o m) m :=
  fun a ha => get_unpackPass_outside f o m a (ha _ (scrRegion_mem f o hp) rfl)

/-- The sums of the packed path in terms of the memory before the unpack pass: SCR overlaps neither IN nor BIAS (R128). -/
theorem accumulate_unpackPass {f : Form} {o : Operands} (hN : NoCheckHolds f o) (hop : f.op ≠ .unpack4) (hp : f.fltType = .int4p)
    (hin : f.inType = .int8) (hb : f.biasType ≠ .int4p) (m : Memory) {e : Elem} (he : e ∈ outputElems o) :
    accumulate f o (unpackPass f o m) e =
      wrap 32 (((terms f o e).map fun t => (readSigned m t.1 1 - o.inZp) * unpackElem m o.fltAddr t.2).sum +
        biasValue f o m e.oc) := by
  have hagree := agreeOutside_unpackPass hp o m
  obtain ⟨-, -, -, hoc⟩ := (mem_outputElems o e).1 he
  have hproducts : (terms f o e).map (product f o (unpackPass f o m)) =
      (terms f o e).map fun t => (readSigned m t.1 1 - o.inZp) * unpackElem m o.fltAddr t.2 := by
    refine List.map_congr_left fun t ht => ?_
    obtain ⟨-, -, hx⟩ := terms_bound f o e he (depth_of_noCheckHolds hN) hop t ht
    rw [product, readSigned, hagree.input hN hop (by rw [hin]; decide) he ht, filterElem_unpackPass hp m hx, hin]
    rfl
  rw [accumulate, exactSum, hproducts, hagree.biasValue hN hop hb hoc, accWidth, hin]
  rfl

theorem workOf_of_packed {i : Instr} (hi : IntegerForm i.form) (hp : i.form.fltType = .int4p) : workOf i = packedPath i.form := by
  funext o m
  rw [workOf_of_integerForm hi, sumMemory_of_packed hp, packedPath]

/-- The output elements lie outside SCR (R128), so the scratch bytes stay as the unpack pass wrote them. -/
theorem get_packedPath_scratch {f : Form} {o : Operands} (hN : NoCheckHolds f o) (hop : f.op ≠ .unpack4) (hp : f.fltType = .int4p)
    (hout : f.outType ≠ .int4p) (m : Memory) {x : Nat} (hx : x < eFlt f.op o) :
    Memory.get (packedPath f o m) (o.scratchAddr + x) = BitVec.ofInt 8 (unpackElem m o.fltAddr x) := by
  rw [packedPath, integerCells_eq, get_store_outCells_outside, get_unpackPass _ _ _ _ hx]
  rintro ⟨h1, h2⟩
  rw [← tensorBytes_eq _ _ hout] at h2
  refine hN .regionOverlap (by decide)
    ⟨scrRegion f o, scrRegion_mem f o hp, outRegion f o, outRegion_mem f o hop, .inr rfl, by simp [outRegion, scrRegion], ?_⟩
  simp only [outRegion, scrRegion]
  omega

/-- Settles O46: the unpack pass leaves the unpacked filter in SCR, which the output elements are summed from and do not touch. -/
theorem packedConvolutionCompletes : Obligations.PackedConvolutionCompletes := by
  intro i s hi
  obtain ⟨hint, hp, hin, hout⟩ : IntegerForm i.form ∧ i.form.fltType = .int4p ∧ i.form.inType = .int8 ∧ i.form.outType = .int8 := by
    revert i; decide
  intro h
  obtain ⟨-, hb, -⟩ := form_facts i
  refine ⟨_, exec_of_accepted h, fun x hx => ?_, fun n oy ox oc hn hoy hox hoc => ?_, fun a ha hscr => ?_⟩
  · rw [workOf_of_packed hint hp]
    exact get_packedPath_scratch h.1 hint.1 hp (by rw [hout]; decide) s.mem hx
  · have he : (⟨n, oy, ox, oc⟩ : Elem) ∈ outputElems s.operands := (mem_outputElems ..).2 ⟨hn, hoy, hox, hoc⟩
    have hvalue := readSigned_workOf hint s.operands s.mem he
    rw [sumMemory_of_packed hp, outputValue, accumulate_unpackPass h.1 hint.1 hp hin hb s.mem he, hout] at hvalue
    exact hvalue
  · exact get_workOf_outside _ (by rwa [hout, tagSize, Nat.mul_one]) fun _ => hscr

end Sys2Proof.Machine
end

section
/-! The depthwise convolutions (R200 to R205): the completion of the integer paths with an int8 filter, and per-channel scaling. -/

namespace Sys2Proof.Machine

/-- Settles O45: the five commands are integer paths with an int8 filter. -/
theorem integerDepthwiseCompletes : Obligations.IntegerDepthwiseCompletes := by
  intro i s hi
  obtain ⟨hint, hflt⟩ : IntegerForm i.form ∧ i.form.fltType = .int8 := by
    revert i; decide
  intro h
  obtain ⟨m, hexec, hvalue, hframe⟩ := completes_of_int8Filter hint hflt h
  exact ⟨m, hexec, fun n oy ox oc hn hoy hox hoc => hvalue ⟨n, oy, ox, oc⟩ ((mem_outputElems ..).2 ⟨hn, hoy, hox, hoc⟩), hframe⟩

/-! Per-channel scaling (R205). -/

/-- With stride 1 and no padding, kernel row 0 reads the output row's own input row (R151). -/
theorem tapRow_zero_of_unitStride {o : Operands} (hS : o.SH = 1) (hP : o.PH = 0) (oy : Nat) : tapRow o oy 0 = oy := by
  simp [tapRow, hS, hP]

/-- With stride 1 and no padding, kernel column 0 reads the output column's own input column (R151). -/
theorem tapCol_zero_of_unitStride {o : Operands} (hS : o.SW = 1) (hP : o.PW = 0) (ox : Nat) : tapCol o ox 0 = ox := by
  simp [tapCol, hS, hP]

/-- The accumulator of a depthwise 1x1 kernel whose only tap is in bounds is that tap's product and the bias (R155). -/
theorem accumulate_of_dwconv_oneTap {f : Form} {o : Operands} {e : Elem} (m : Memory) (hop : f.op = .dwconv) (hKH : o.KH = 1)
    (hKW : o.KW = 1) (hin : inBounds o (tapRow o e.oy 0) (tapCol o e.ox 0) = true) :
    accumulate f o m e = wrap (accWidth f)
      (product f o m (tapInput f o e 0 0 (e.oc / o.DM), filterDw o 0 0 e.oc) + biasValue f o m e.oc) := by
  rw [accumulate_eq_loops, hKH, hKW, Finset.sum_range_one, Finset.sum_range_one, if_pos hin, sum_tapTerms_of_dwconv _ _ _ _ _ hop]

/-- Settles O47: the only tap of pixel (h, w) is input pixel (h, w), and with DM = 1 channel c reads input channel c and filter element c. -/
theorem pointwiseDepthwiseScales : Obligations.PointwiseDepthwiseScales := by
  intro i o qt m n h w c _ hop hDM hKH hKW hPH hPW hSH hSW hh hw
  have hrow : tapRow o h 0 = h := tapRow_zero_of_unitStride hSH hPH h
  have hcol : tapCol o w 0 = w := tapCol_zero_of_unitStride hSW hPW w
  have hin : inBounds o (tapRow o h 0) (tapCol o w 0) = true := by
    rw [hrow, hcol, inBounds_iff]
    omega
  have hinput : tapInput i.form o ⟨n, h, w, c⟩ 0 0 (c / o.DM) = addrIn i.form o n h w c := by
    rw [tapInput, hrow, hcol, hDM, Nat.div_one, Int.toNat_natCast, Int.toNat_natCast]
  have hfilter : filterDw o 0 0 c = c := by simp [filterDw]
  rw [outputValue, accumulate_of_dwconv_oneTap (e := ⟨n, h, w, c⟩) m hop hKH hKW hin, hinput, hfilter, product]

end Sys2Proof.Machine
end

section
/-! The rejected CMD words (R94, R116, R213, R214): which word decodes to which error, and the completion it ends in. -/

namespace Sys2Proof

/-! Phase 1: the operation and the reserved fields (R94). -/

/-- OP 0 and 4 to 15 are reserved (R93). -/
theorem Op.ofBits_eq_none_iff : ∀ b : BitVec 4, Op.ofBits b = none ↔ b = 0#4 ∨ 4 ≤ b.toNat := by decide

@[simp] theorem Op.ofBits_bits (op : Op) : Op.ofBits op.bits = some op := by cases op <;> rfl

theorem CmdFields.reservedClear_ofWord (w : Word) :
    (CmdFields.ofWord w).reservedClear = true ↔ w.extractLsb' 4 4 = 0#4 ∧ w.extractLsb' 24 8 = 0#8 := by
  simp [CmdFields.reservedClear, CmdFields.ofWord]

theorem decode_of_reservedOp {w : Word} (h : Op.ofBits (w.extractLsb' 0 4) = none) : decode w = .error .illegalOp := by
  rw [decode, decodeFields, show (CmdFields.ofWord w).op = w.extractLsb' 0 4 from rfl, h]

/-- With a defined operation the reserved fields are looked at before the tags (R94). -/
theorem decode_of_op {w : Word} {op : Op} (h : w.extractLsb' 0 4 = op.bits) :
    decode w = if !(CmdFields.ofWord w).reservedClear then .error .reservedBits
      else dispatch op (w.extractLsb' 8 4) (w.extractLsb' 12 4) (w.extractLsb' 16 4) (w.extractLsb' 20 4) := by
  rw [decode, decodeFields, show (CmdFields.ofWord w).op = w.extractLsb' 0 4 from rfl, h, Op.ofBits_bits]
  rfl

theorem decode_of_reservedBits {w : Word} {op : Op} (h : w.extractLsb' 0 4 = op.bits)
    (hr : w.extractLsb' 4 4 ≠ 0#4 ∨ w.extractLsb' 24 8 ≠ 0#8) : decode w = .error .reservedBits := by
  have hset : ¬ (CmdFields.ofWord w).reservedClear = true := by
    rw [CmdFields.reservedClear_ofWord]
    tauto
  rw [decode_of_op h, if_pos (by simpa using hset)]

theorem decode_of_reservedClear {w : Word} {op : Op} (h : w.extractLsb' 0 4 = op.bits) (h0 : w.extractLsb' 4 4 = 0#4)
    (h1 : w.extractLsb' 24 8 = 0#8) :
    decode w = dispatch op (w.extractLsb' 8 4) (w.extractLsb' 12 4) (w.extractLsb' 16 4) (w.extractLsb' 20 4) := by
  have hclear : (CmdFields.ofWord w).reservedClear = true := (CmdFields.reservedClear_ofWord w).2 ⟨h0, h1⟩
  rw [decode_of_op h, hclear]
  rfl

/-! Phase 2: the first failing tensor (R116). -/

theorem dispatch_of_dispatchConv_error {op : Op} (hop : op ≠ .unpack4) {it ft bt ot : BitVec 4} {e : CmdError}
    (h : dispatchConv it ft bt ot = .error e) : dispatch op it ft bt ot = .error e := by
  cases op with
  | conv => rw [dispatch, h]; rfl
  | dwconv => rw [dispatch, h]; rfl
  | unpack4 => exact absurd rfl hop

/-- The input tags that CONV and DWCONV accept (R95). -/
abbrev ConvInput (it : BitVec 4) : Prop := it = 1#4 ∨ it = 2#4 ∨ it = 3#4

/-- The filter tags that CONV and DWCONV accept, with the input tag each stands beside (R95). -/
abbrev ConvFilter (it ft : BitVec 4) : Prop :=
  (it = 1#4 ∧ ft = 1#4) ∨ (it = 2#4 ∧ (ft = 2#4 ∨ ft = 4#4)) ∨ (it = 3#4 ∧ ft = 2#4)

/-- The bias tags that CONV and DWCONV accept, with the input tag each stands beside (R95). -/
abbrev ConvBias (it bt : BitVec 4) : Prop :=
  bt = 0#4 ∨ (it = 1#4 ∧ bt = 1#4) ∨ (it = 2#4 ∧ bt = 5#4) ∨ (it = 3#4 ∧ (bt = 5#4 ∨ bt = 6#4))

theorem mem_allowedFilters_iff {it : BitVec 4} (hit : ConvInput it) (ft : BitVec 4) :
    ft ∈ allowedFilters it ↔ ConvFilter it ft := by
  rcases hit with rfl | rfl | rfl <;> simp [allowedFilters, ConvFilter]

theorem mem_allowedBiases_iff {it : BitVec 4} (hit : ConvInput it) (bt : BitVec 4) :
    bt ∈ allowedBiases it ↔ ConvBias it bt := by
  rcases hit with rfl | rfl | rfl <;> simp [allowedBiases, ConvBias]

theorem ConvFilter.input {it ft : BitVec 4} (h : ConvFilter it ft) : ConvInput it := by
  rcases h with ⟨h, -⟩ | ⟨h, -⟩ | ⟨h, -⟩
  · exact .inl h
  · exact .inr (.inl h)
  · exact .inr (.inr h)

/-- The first test of `dispatchConv`. -/
theorem convInput_iff (it : BitVec 4) : (it == 1#4 || it == 2#4 || it == 3#4) = true ↔ ConvInput it := by
  simp [ConvInput, or_assoc]

theorem dispatchConv_input {it : BitVec 4} (hit : ¬ ConvInput it) (ft bt ot : BitVec 4) :
    dispatchConv it ft bt ot = .error (.unsupported .input it) := by
  rw [← convInput_iff, Bool.not_eq_true] at hit
  rw [dispatchConv, hit]
  rfl

theorem dispatchConv_output {it ot : BitVec 4} (hit : ConvInput it) (hot : ot ≠ it) (ft bt : BitVec 4) :
    dispatchConv it ft bt ot = .error (.unsupported .output ot) := by
  rw [dispatchConv, (convInput_iff it).2 hit]
  simp [hot]

theorem dispatchConv_filter {it ft ot : BitVec 4} (hit : ConvInput it) (hot : ot = it) (hft : ¬ ConvFilter it ft) (bt : BitVec 4) :
    dispatchConv it ft bt ot = .error (.unsupported .filter ft) := by
  rw [dispatchConv, (convInput_iff it).2 hit]
  simp [hot, mem_allowedFilters_iff hit, hft]

theorem dispatchConv_bias {it ft bt ot : BitVec 4} (hot : ot = it) (hft : ConvFilter it ft) (hbt : ¬ ConvBias it bt) :
    dispatchConv it ft bt ot = .error (.unsupported .bias bt) := by
  have hit : ConvInput it := hft.input
  rw [dispatchConv, (convInput_iff it).2 hit]
  simp [hot, mem_allowedFilters_iff hit, hft, mem_allowedBiases_iff hit, hbt]

end Sys2Proof

namespace Sys2Proof.Machine

/-! The completion of a rejected word (R113, R212). -/

/-- An error that names a tensor leaves its id and its tag in ERR_INFO (R27). -/
theorem ErrRecord.info_unsupported (t : TensorId) (g : BitVec 4) :
    (ErrRecord.ofCmdError (.unsupported t g)).info = BitVec.ofNat 32 (g.toNat * 4096 + t.bits.toNat * 256) := by
  revert g
  cases t <;> decide

/-- Phases 1 and 2 of a running word that names an unsupported tensor end the command with that tensor and its tag (R116, R214);
`field` is ERR_INFO.TENSOR in its place. -/
theorem step_unsupported {s : State} {t : TensorId} {g : BitVec 4} {field : Nat} (hin : s.inputs = []) (hrun : s.eng.phase = .run)
    (hdec : decode s.eng.cmd = .error (.unsupported t g)) (hid : t.bits.toNat * 256 = field) :
    step s = .next (failed s .unsupportedType (BitVec.ofNat 32 (g.toNat * 4096 + field)) 0#32) := by
  rw [step_error s _ hin hrun hdec, ← hid, ← ErrRecord.info_unsupported]
  rfl

/-- Settles O4: a reserved operation and a set reserved bit are the two errors of phase 1. -/
theorem reservedEncodingsIllegal : Obligations.ReservedEncodingsIllegal := by
  intro s hin hrun
  constructor
  · intro hop
    have hdec : decode s.eng.cmd = .error .illegalOp := decode_of_reservedOp ((Op.ofBits_eq_none_iff _).2 hop)
    rw [step_error s _ hin hrun hdec, ErrRecord.ofCmdError, raiseErr_eq_failed]
    rfl
  · intro hop hset
    obtain ⟨op, hbits⟩ : ∃ op : Op, s.eng.cmd.extractLsb' 0 4 = op.bits := by
      rcases hop with h | h | h
      · exact ⟨.conv, h⟩
      · exact ⟨.dwconv, h⟩
      · exact ⟨.unpack4, h⟩
    rw [step_error s _ hin hrun (decode_of_reservedBits hbits hset), ErrRecord.ofCmdError, raiseErr_eq_failed]
    rfl

/-- Settles O5: with the reserved fields clear the word decodes to its dispatch, and each clause is one test of `dispatchConv` or
`dispatchUnpack` that fails after the earlier ones held. -/
theorem unsupportedNamesFirstFailingTensor : Obligations.UnsupportedNamesFirstFailingTensor := by
  rintro s hin hrun h0 h1 it ft bt ot rfl rfl rfl rfl
  constructor
  · intro hop
    obtain ⟨op, hbits, hconv⟩ : ∃ op : Op, s.eng.cmd.extractLsb' 0 4 = op.bits ∧ op ≠ .unpack4 := by
      rcases hop with h | h
      · exact ⟨.conv, h, by decide⟩
      · exact ⟨.dwconv, h, by decide⟩
    have hend {t g field} (h : dispatchConv _ _ _ _ = .error (.unsupported t g)) :=
      step_unsupported (field := field) hin hrun ((decode_of_reservedClear hbits h0 h1).trans (dispatch_of_dispatchConv_error hconv h))
    exact ⟨fun hit => hend (dispatchConv_input hit ..) rfl, fun hit hot => hend (dispatchConv_output hit hot ..) rfl,
      fun hit hot hft => hend (dispatchConv_filter hit hot hft _) rfl,
      fun hot hft hbt => hend (dispatchConv_bias hot hft hbt) rfl⟩
  · intro hop
    have hend t {g field} (h : dispatchUnpack _ _ _ _ = .error (.unsupported t g)) :=
      step_unsupported (field := field) hin hrun ((decode_of_reservedClear (op := .unpack4) hop h0 h1).trans h)
    exact ⟨fun hit => hend .input (by simp [dispatchUnpack, hit]) rfl,
      fun hit hot => hend .output (by simp [dispatchUnpack, hit, hot]) rfl,
      fun hit hot hft => hend .filter (by simp [dispatchUnpack, hit, hot, hft]) rfl,
      fun hit hot hft hbt => hend .bias (by simp [dispatchUnpack, hit, hot, hft, hbt]) rfl⟩

end Sys2Proof.Machine
end

section
/-! Several engines (R230, R232): the choice of the engine that moves, and a machine in which none runs. -/

namespace Sys2Proof.Machine

/-- Some engine qualifies: the choice succeeds. -/
theorem focus_isSome {p : Engine → Bool} {s : State} (h : ∃ e ∈ s.eng :: s.others, p e = true) : ∃ t, focus p s = some t := by
  by_cases heng : p s.eng = true
  · exact ⟨s, focus_self p s heng⟩
  · obtain ⟨e, he, hpe⟩ := h
    rcases List.mem_cons.1 he with rfl | hothers
    · exact absurd hpe heng
    · obtain ⟨x, hx⟩ := takeEngine_isSome p s.eng s.others ⟨e, hothers, hpe⟩
      exact ⟨_, by rw [focus, if_neg heng, hx]; rfl⟩

/-- No engine qualifies: none is chosen. -/
theorem focus_eq_none {p : Engine → Bool} {s : State} (heng : p s.eng = false) (hothers : ∀ e ∈ s.others, p e = false) :
    focus p s = none := by
  rw [focus, heng, takeEngine_eq_none p _ _ hothers]
  rfl

/-- Settles O9: the choice succeeds by `focus_isSome`, and `focus_eq_some` says what it gives. -/
theorem focusOnlyExchangesEngines : Obligations.FocusOnlyExchangesEngines := fun _ _ =>
  ⟨focus_isSome, fun _ => focus_eq_some⟩

/-- Settles O8: no engine is busy, so none is chosen to perform a command. -/
theorem idleMachineWaits : Obligations.IdleMachineWaits := by
  intro s hin heng hothers
  have hnone : focus Engine.busy s = none :=
    focus_eq_none (Engine.busy_of_idle heng) fun e he => Engine.busy_of_idle (hothers e he)
  rw [step_of_inputs_nil hin, runPending, hnone]

end Sys2Proof.Machine
end

section
/-! Reset and the command started right after it (R240 to R243). -/

namespace Sys2Proof.Machine

/-- The registers after reset are those of `State.reset`, whatever the engine (R50). -/
theorem Engine.read_reset (page : Nat) (r : Reg) :
    (Engine.reset page).read r = if r = .id then 0x51434E56#32 else if r = .version then 1#32 else 0#32 :=
  resetRegisterValues.1 r

/-! What a reset does to the state (R240, R241). -/

@[simp] theorem resetEngine_eng (s : State) : (resetEngine s).eng = Engine.reset s.eng.page := by
  unfold resetEngine
  split <;> rfl

@[simp] theorem resetEngine_others (s : State) : (resetEngine s).others = s.others := by
  unfold resetEngine
  split <;> rfl

@[simp] theorem resetEngine_inputs (s : State) : (resetEngine s).inputs = s.inputs := by
  unfold resetEngine
  split <;> rfl

/-- The reset of an idle engine abandons no command (R242). -/
theorem resetEngine_mem_of_idle {s : State} (h : s.eng.phase = .idle) : (resetEngine s).mem = s.mem := by
  rw [resetEngine, Engine.busy_of_idle h]
  rfl

/-- An abandoned command leaves every byte outside its OUT and SCR regions as it was (R241). -/
theorem get_resetEngine_outside {s : State} {a : Nat}
    (ha : ∀ r ∈ s.eng.regions, r.written = true → ¬ (r.base ≤ a ∧ a < r.base + r.len)) :
    Memory.get (resetEngine s).mem a = Memory.get s.mem a := by
  cases hphase : s.eng.phase with
  | idle => rw [resetEngine_mem_of_idle hphase]
  | run =>
    rw [resetEngine, if_pos (Engine.busy_of_run hphase)]
    exact get_unspecify_outside _ _ _ _ ha

/-! The reset of the moving engine as a step (R240, R250). -/

theorem step_reset_self {s : State} {rest : List Input} (hin : s.inputs = .reset s.eng.base :: rest) :
    step s = if s.eng.busy && conflictsRunning s s.eng.regions then .refused .enginesConflict
      else .next (resetEngine { s with inputs := rest }) := by
  rw [step_of_inputs_cons hin, serve, focus_base_self { s with inputs := rest }]
  rfl

/-- Regions apart from those of every running engine, wherever one of the two is written, conflict with none (R82). -/
theorem conflictsRunning_eq_false_of_apart {s : State} {rs : List Region}
    (h : ∀ e ∈ s.others, e.phase = .run → ∀ r ∈ rs, ∀ t ∈ e.regions,
      (r.written = true ∨ t.written = true) → r.overlaps t = false) :
    conflictsRunning s rs = false := by
  rw [Bool.eq_false_iff, Ne, conflictsRunning_eq_true_iff]
  rintro ⟨e, he, hrun, r, hr, t, ht, hwritten, hoverlap⟩
  exact absurd hoverlap (by simp [h e he hrun r hr t ht hwritten])

/-- Settles O11: the step is `resetEngine` unless the running command conflicts with one on another engine, and `resetEngine` leaves
the engine as `Engine.reset`. -/
theorem resetInputResetsEngine : Obligations.ResetInputResetsEngine := by
  intro s rest hin
  rw [step_reset_self hin]
  constructor
  · intro hfree
    have hpass : ¬ (s.eng.busy && conflictsRunning s s.eng.regions) = true := by
      rcases hfree with hidle | hapart
      · simp [Engine.busy_of_idle hidle]
      · simp [conflictsRunning_eq_false_of_apart hapart]
    refine ⟨resetEngine { s with inputs := rest }, if_neg hpass, fun r => ?_, ?_, ?_, ?_, resetEngine_others _, resetEngine_inputs _,
      fun hidle => resetEngine_mem_of_idle hidle, fun _ ha => get_resetEngine_outside ha⟩ <;> rw [resetEngine_eng]
    · exact Engine.read_reset _ r
    all_goals rfl
  · rintro ⟨hrun, hconflict⟩
    exact if_pos (by rw [Engine.busy_of_run hrun, (conflictsRunning_eq_true_iff ..).2 hconflict]; rfl)

/-- Settles O12: the START is accepted with CMD = 0 (`startAccepted`), whose operation code 0 is reserved
(`reservedEncodingsIllegal`). -/
theorem startAfterResetIsIllegal : Obligations.StartAfterResetIsIllegal := by
  intro s v hreset hstart hin
  have hidle : s.eng.phase = .idle := by rw [hreset]; rfl
  obtain ⟨t, hstep, ht, heng, -⟩ := startAccepted s v [] hin
  have hrun : t.eng.phase = .run := by rw [heng hstart hidle]
  have hcmd : t.eng.cmd = 0#32 := by rw [heng hstart hidle, hreset]; rfl
  have hnil : t.inputs = [] := by rw [ht]
  have hmem : t.mem = s.mem := by rw [ht]
  have hend : step t = .next (failed t .illegalCommand 1#32 0#32) :=
    (reservedEncodingsIllegal t hnil hrun).1 (.inl (by rw [hcmd]; rfl))
  exact ⟨t, _, hstep, hrun, hend, rfl, rfl, rfl, rfl, rfl, rfl, hmem⟩

end Sys2Proof.Machine
end
